-- ==== Sys2Proof/Word.lean ====
section
/-! DEFINITION. The word types of BFCORE (00_scope.md R7, R12, R14; 10_state.md R32, R33). -/

namespace Sys2Proof

/-- The 64-bit words of `OPA`, `RES` and the `FV` entries, and the home of a stored `DATA_W`-bit value (R32, R90). -/
abbrev Word := BitVec 64

/-- A field width as `FW` holds it: 0 to 255 (R33). -/
abbrev Width := BitVec 8

/-- The 32-bit command word (R93). -/
abbrev CmdWord := BitVec 32

/-- `Opt(Bits(DATA_W))`: `none` is `absent`, `some v` is `present(v)` (R14, R290). -/
abbrev Val := Option Word

end Sys2Proof
end

