-- ==== Sys2Proof/Config.lean ====
section
/-! DEFINITION. What is fixed when BFCORE is elaborated (00_scope.md R8, R9): sizes, function tables, the agent
descriptor table; the free values of the model; and the reference configuration RC (decision D39). -/

namespace Sys2Proof

/-- An entry of the update-function table `UF` (R8, R204). The first three kinds are enough for RC and can be
evaluated; `free n` is the `n`-th function about which nothing is known (log entry 3). -/
inductive UpdateFn where
  | addConst (k : Word)
  | mulConst (k : Word)
  | const (k : Word)
  | free (n : Nat)
  deriving DecidableEq, Repr

/-- An entry of the map-function table `AF : Val → Val` (R291). `lift f` maps `present(v)` to `present(f v)` and
`absent` to `absent`. -/
inductive MapFn where
  | lift (f : UpdateFn)
  | free (n : Nat)
  deriving DecidableEq, Repr

/-- An entry of the predicate table `AP : Val → Bool` (R291). `even` holds of `present(v)` with `v` even. -/
inductive PredFn where
  | even
  | free (n : Nat)
  deriving DecidableEq, Repr

/-- An entry of the combine-function table `AC : Val × Val → Val` (R291). `add` adds two present values and gives
`absent` when an argument is `absent`. -/
inductive CombineFn where
  | add
  | free (n : Nat)
  deriving DecidableEq, Repr

/-- An agent descriptor, the abstract syntax of R292; agents, functions and cells are named by table index. -/
inductive AgentDesc where
  /-- `ID` (R294). -/
  | ident
  /-- `PURE k` (R295). -/
  | pureFn (k : Nat)
  /-- `CELL c` (R293). -/
  | cell (c : Nat)
  /-- `TRANSFORM a k` (R298). -/
  | transform (a k : Nat)
  /-- `FILTER a p` (R299). -/
  | filter (a p : Nat)
  /-- `PIPE a b` (R300). -/
  | pipe (a b : Nat)
  /-- `PAR a b k` (R303). -/
  | par (a b k : Nat)
  /-- `SHIFT a [s1, ..., sm]` (R301). -/
  | shift (a : Nat) (stages : List Nat)
  /-- `FEEDBACK a n` (R302). -/
  | feedback (a n : Nat)
  deriving DecidableEq, Repr

/-- The parameters of R8. `NCELLS`, `NUF`, `NAF`, `NAP`, `NAC` and `NAGENTS` are the lengths of their tables;
`STAGE_DEPTH` is fixed at 64 and needs no field. -/
structure Config where
  /-- `DATA_W`. -/
  dataW : Nat
  /-- `CELL_INIT[0..NCELLS-1]`. -/
  cellInit : List Word
  /-- `CLK_INTERVAL`. -/
  clkInterval : Nat
  /-- `SR_STAGES`. -/
  srStages : Nat
  /-- `RB_CAP`. -/
  rbCap : Nat
  /-- `MAXSHIFT`. -/
  maxShift : Nat
  /-- `UF`. -/
  uf : List UpdateFn
  /-- `AF`. -/
  af : List MapFn
  /-- `AP`. -/
  ap : List PredFn
  /-- `AC`. -/
  ac : List CombineFn
  /-- `AG`. -/
  ag : List AgentDesc
  deriving DecidableEq, Repr

namespace Config

/-- `NCELLS`. -/
def ncells (c : Config) : Nat := c.cellInit.length

/-- `NUF`. -/
def nuf (c : Config) : Nat := c.uf.length

/-- `NAGENTS`. -/
def nagents (c : Config) : Nat := c.ag.length

/-- The `n`-th unknown update function (R204; log entry 3): a free value, constrained by nothing. -/
opaque freeUpdate : Nat → Word → Word

/-- The `n`-th unknown map function (R291; log entry 3): a free value. -/
opaque freeMap : Nat → Val → Val

/-- The `n`-th unknown predicate (R291; log entry 3): a free value. -/
opaque freePred : Nat → Val → Bool

/-- The `n`-th unknown combine function (R291; log entry 3): a free value. -/
opaque freeCombine : Nat → Val → Val → Val

end Config

/-- The two orders in which `PAR` may run its sub-agents (R303). -/
inductive ParOrder where
  | ab
  | ba
  deriving DecidableEq, Repr, Inhabited

/-- The order taken at the `n`-th evaluation of a `PAR` descriptor (R18, R305): a free value, one fresh draw for
each value of the state's counter (log entry 8). -/
opaque Config.parOrder : Nat → ParOrder

/-- The reference configuration RC (decision D39; 95_test_vectors.md §RC; log entry 2). -/
def Config.rc : Config where
  dataW := 64
  cellInit := [0, 0, 0, 0]
  clkInterval := 3
  srStages := 3
  rbCap := 4
  maxShift := 4
  uf := [.addConst 1, .mulConst 2, .const 0]
  af := [.lift (.addConst 1), .lift (.mulConst 2)]
  ap := [.even]
  ac := [.add]
  ag := [.pureFn 0, .pureFn 1, .pipe 0 1, .feedback 0 3, .filter 0 0, .par 0 1 0, .shift 0 [1, 0], .cell 0,
    .transform 7 1, .par 7 8 0, .pipe 7 7, .ident]

end Sys2Proof
end

