-- ==== Sys2Proof/Machine/State.lean ====
section
/-! DEFINITION. The state of BFCORE (10_state.md R30 to R53) as plain data, beside it the host port (30_encoding.md
R90), the response (R97), the reasons a step can stop, and the state after reset (70_reset_and_hazards.md R400). -/

namespace Sys2Proof.Machine

/-- The response statuses (60_exceptions.md R360); codes 9 to 15 are never produced and have no name. -/
inductive Status where
  | ok
  | invalidBitWidth
  | capacityExceeded
  | lenMismatch
  | exceeds64Limit
  | illegalCommand
  | indexRange
  | fieldRange
  | agentInput
  deriving DecidableEq, Repr

/-- A response `(ST, RV, RES)` (R97) with the `pulse` line driven beside it (R98). -/
structure Response where
  st : Status
  rv : Bool
  res : Word
  pulse : Bool
  deriving DecidableEq, Repr

/-- What the host can do at the port (R90, R400, R406). -/
inductive HostEvent where
  /-- Present a command word with its operand word. -/
  | command (cmd : CmdWord) (opa : Word)
  /-- Assert `rst`; `inFlight` is a command accepted and not yet answered, if any (R400). -/
  | rst (inFlight : Option (CmdWord × Word))
  deriving DecidableEq, Repr

/-- The state. `fv` to `cause` are the tuple of R30; the other fields are the configuration (R9), the port, and the
model's own draw counter. A stored `DATA_W`-bit value stands in the low bits of a `Word`, the bits above 0 (log
entry 4). -/
structure State where
  /-- The configuration of R8: no step changes it (R9; log entry 1). -/
  cfg : Config
  /-- `FV`, the field values (R32). -/
  fv : Vector Word 64
  /-- `FW`, the field widths (R33). -/
  fw : Vector Width 64
  /-- `CELL[0..NCELLS-1]` (R35). -/
  cell : List Word
  /-- `TICK`, the clock's counter (R37). -/
  tick : BitVec 32
  /-- `SR[0..SR_STAGES-1]`, slot 0 the head (R40). -/
  sr : List Val
  /-- `RB[0..RB_CAP-1]` (R42). -/
  rb : List Val
  /-- `RIDX`, the read index (R43). -/
  ridx : BitVec 16
  /-- `WIDX`, the write index (R43). -/
  widx : BitVec 16
  /-- `SIZE`, the ring buffer's occupancy (R44). -/
  size : BitVec 17
  /-- `FLT`, the sticky fault flag (R46). -/
  flt : Bool
  /-- `CAUSE`, the cause of the first fault (R47). -/
  cause : BitVec 4
  /-- What the host will do next, oldest first (R82, R90; log entry 5). -/
  inputs : List HostEvent
  /-- `OPA`, the operand word sampled with the command being run (R90, R92). -/
  opa : Word
  /-- The response of the step that led here; `none` when `rsp_valid` is 0 (R90). -/
  rsp : Option Response
  /-- How many `PAR` draws have been taken (R305; log entry 8): the model's own, not the spec's. -/
  draw : Nat
  deriving DecidableEq, Repr

/-- Why the machine stops. It has no constructor: no step of BFCORE stops, "BFCORE has no command that can hang and
no stuck state" (R411), and the spec's own faults are next states with a response and a fault record (R361; log
entry 13). Nobody raises it; safe. -/
inductive Fault where
  deriving DecidableEq, Repr

/-- Why the model gives no meaning. -/
inductive Refusal where
  /-- An instruction without a meaning yet, by its mnemonic. Raised only by an arm of `exec`; no arm is left; safe. -/
  | notModelled (mnemonic : String)
  /-- The configuration violates R8 or R296: "an ill-formed configuration is refused, not run" (R10). Raised by
  `step` before anything else, and by `execArun` when the descriptor table names an entry it may not; safe. -/
  | illFormedConfig
  deriving DecidableEq, Repr

/-- The state after reset of a BFCORE elaborated with configuration `c` (R400; 10_state.md R32 to R47). -/
def State.resetOf (c : Config) : State where
  cfg := c
  fv := Vector.replicate 64 0
  fw := Vector.replicate 64 0
  cell := c.cellInit
  tick := 0
  sr := List.replicate c.srStages none
  rb := List.replicate c.rbCap none
  ridx := 0
  widx := 0
  size := 0
  flt := false
  cause := 0
  inputs := []
  opa := 0
  rsp := none
  draw := 0

/-- The machine right after reset, in the reference configuration RC (log entry 2). -/
def State.reset : State := State.resetOf Config.rc

end Sys2Proof.Machine
end

