-- ==== Sys2Proof/Machine/AgentResult.lean ====
section
/-! DEFINITION. What an agent evaluation threads and gives back (45_agents.md §3, R304, R306). -/

namespace Sys2Proof.Machine

/-- What an evaluation threads: the cell file `σ` (R304) and how many `PAR` draws have been taken (R305). -/
structure Thread where
  cells : List Word
  draw : Nat
  deriving DecidableEq, Repr

/-- What an evaluation gives: an output with the thread after it, the one fault `AGENT_INPUT` (R306) with the draws
taken on the way, or nothing, when the table names an entry it may not (R296), which `step` never lets happen. -/
inductive EvalResult where
  | ok (y : Val) (t : Thread)
  | fault (draw : Nat)
  | illFormed
  deriving DecidableEq, Repr

end Sys2Proof.Machine
end

