-- ==== Sys2Proof/Syntax.lean ====
section
/-! DEFINITION. The commands of BFCORE, one constructor per row of the opcode map (30_encoding.md R99), each with
the fields its format uses (R95) as unsigned bit fields (R94). `OPA` is no part of the command word: it is sampled
beside it (R92) and stands in the state. -/

namespace Sys2Proof

/-- A decoded command word (R95, R99). -/
inductive Instr where
  | nop
  | pack32 (n : BitVec 7) (w : BitVec 8)
  | unpack32 (n : BitVec 7) (w : BitVec 8)
  | pack64 (n : BitVec 7) (w : BitVec 8)
  | unpack64 (n : BitVec 7) (w : BitVec 8)
  | packf (n : BitVec 7)
  | unpackf (n : BitVec 7)
  | extract (off : BitVec 7) (w : BitVec 8)
  | packi (nv : BitVec 7) (nw : BitVec 8)
  | unpacki (nw : BitVec 8)
  | fvwr (idx : BitVec 10)
  | fvrd (idx : BitVec 10)
  | fwwr (idx : BitVec 10)
  | fwrd (idx : BitVec 10)
  | cget (c : BitVec 10)
  | cset (c : BitVec 10)
  | cupd (c : BitVec 10) (k : BitVec 8)
  | tick
  | tcur
  | trst
  | spush
  | sget (stage : BitVec 10)
  | sgetall
  | sclr
  | rwr
  | rrd
  | rfull
  | rempty
  | rsize
  | arun (iv : BitVec 1) (a : BitVec 10)
  | stat
  | cfgrd (sel : BitVec 10)
  deriving DecidableEq, Repr

end Sys2Proof
end

