-- ==== Sys2Proof/WellFormed.lean ====
section
/-! DEFINITION. The field values a decoded command may hold (30_encoding.md R102): every other field value is legal
at decode and checked by the command itself. -/

namespace Sys2Proof

/-- R102: a count field is at most 64, a `CFGRD` selector at most 8; nothing else is limited. -/
def WellFormed : Instr → Bool
  | .pack32 n _ => decide (n.toNat ≤ 64)
  | .unpack32 n _ => decide (n.toNat ≤ 64)
  | .pack64 n _ => decide (n.toNat ≤ 64)
  | .unpack64 n _ => decide (n.toNat ≤ 64)
  | .packf n => decide (n.toNat ≤ 64)
  | .unpackf n => decide (n.toNat ≤ 64)
  | .packi nv nw => decide (nv.toNat ≤ 64) && decide (nw.toNat ≤ 64)
  | .unpacki nw => decide (nw.toNat ≤ 64)
  | .cfgrd sel => decide (sel.toNat ≤ 8)
  | .nop | .extract _ _ | .fvwr _ | .fvrd _ | .fwwr _ | .fwrd _ | .cget _ | .cset _ | .cupd _ _ | .tick | .tcur
  | .trst | .spush | .sget _ | .sgetall | .sclr | .rwr | .rrd | .rfull | .rempty | .rsize | .arun _ _ | .stat => true

end Sys2Proof
end

