-- ==== Sys2Proof/Decode.lean ====
section
/-! DEFINITION. Decoding and encoding of command words (30_encoding.md R93 to R95, R99 to R105): `decode` is total
and rejects by name; `encode` writes the word of a command from the same map. -/

namespace Sys2Proof

/-- The fields of a command word (R93). -/
structure Fields where
  op : BitVec 6
  iv : BitVec 1
  a : BitVec 7
  b : BitVec 8
  c : BitVec 10
  deriving DecidableEq, Repr

/-- Field extraction (R94): `OP = cmd[31:26]`, `IV = cmd[25]`, `A = cmd[24:18]`, `B = cmd[17:10]`, `C = cmd[9:0]`. -/
def fieldsOf (w : CmdWord) : Fields where
  op := w.extractLsb' 26 6
  iv := w.extractLsb' 25 1
  a := w.extractLsb' 18 7
  b := w.extractLsb' 10 8
  c := w.extractLsb' 0 10

/-- The word of a set of fields (R94): `(OP << 26) | (IV << 25) | (A << 18) | (B << 10) | C`. -/
def wordOf (f : Fields) : CmdWord :=
  f.op ++ f.iv ++ f.a ++ f.b ++ f.c

/-- Why a word is no command. Every reason raises the one fault `ILLEGAL_COMMAND` (R104). -/
inductive DecodeError where
  /-- `OP` is not in the opcode map (R100). -/
  | reservedOpcode
  /-- A field the format does not use is nonzero (R101). -/
  | reservedField
  /-- A count above 64 or a `CFGRD` selector above 8 (R102). -/
  | illegalValue
  deriving DecidableEq, Repr

/-- The end of every format's decoding: the unused fields must be 0 (R101), then the used ones in range (R102). -/
def checked (unusedZero : Bool) (i : Instr) : Except DecodeError Instr :=
  if unusedZero then (if WellFormed i then .ok i else .error .illegalValue) else .error .reservedField

/-- Format N: no field is used (R95). -/
def formatN (f : Fields) (i : Instr) : Except DecodeError Instr :=
  checked (f.iv == 0 && f.a == 0 && f.b == 0 && f.c == 0) i

/-- Formats L, X and P: `A` and `B` are used (R95). -/
def formatAB (f : Fields) (i : BitVec 7 → BitVec 8 → Instr) : Except DecodeError Instr :=
  checked (f.iv == 0 && f.c == 0) (i f.a f.b)

/-- Format LC: `A` is used (R95). -/
def formatA (f : Fields) (i : BitVec 7 → Instr) : Except DecodeError Instr :=
  checked (f.iv == 0 && f.b == 0 && f.c == 0) (i f.a)

/-- Format Q: `B` is used (R95). -/
def formatB (f : Fields) (i : BitVec 8 → Instr) : Except DecodeError Instr :=
  checked (f.iv == 0 && f.a == 0 && f.c == 0) (i f.b)

/-- Format I: `C` is used (R95). -/
def formatC (f : Fields) (i : BitVec 10 → Instr) : Except DecodeError Instr :=
  checked (f.iv == 0 && f.a == 0 && f.b == 0) (i f.c)

/-- Format U: `C` and `B` are used (R95). -/
def formatCB (f : Fields) (i : BitVec 10 → BitVec 8 → Instr) : Except DecodeError Instr :=
  checked (f.iv == 0 && f.a == 0) (i f.c f.b)

/-- Format G: `IV` and `C` are used (R95). -/
def formatG (f : Fields) (i : BitVec 1 → BitVec 10 → Instr) : Except DecodeError Instr :=
  checked (f.a == 0 && f.b == 0) (i f.iv f.c)

/-- The opcode map (R99) over the fields of a word; an `OP` not listed is reserved (R100). -/
def decodeFields (f : Fields) : Except DecodeError Instr :=
  match f.op.toNat with
  | 0x00 => formatN f .nop
  | 0x01 => formatAB f .pack32
  | 0x02 => formatAB f .unpack32
  | 0x03 => formatAB f .pack64
  | 0x04 => formatAB f .unpack64
  | 0x05 => formatA f .packf
  | 0x06 => formatA f .unpackf
  | 0x07 => formatAB f .extract
  | 0x08 => formatAB f .packi
  | 0x09 => formatB f .unpacki
  | 0x0A => formatC f .fvwr
  | 0x0B => formatC f .fvrd
  | 0x0C => formatC f .fwwr
  | 0x0D => formatC f .fwrd
  | 0x10 => formatC f .cget
  | 0x11 => formatC f .cset
  | 0x12 => formatCB f .cupd
  | 0x18 => formatN f .tick
  | 0x19 => formatN f .tcur
  | 0x1A => formatN f .trst
  | 0x20 => formatN f .spush
  | 0x21 => formatC f .sget
  | 0x22 => formatN f .sgetall
  | 0x23 => formatN f .sclr
  | 0x28 => formatN f .rwr
  | 0x29 => formatN f .rrd
  | 0x2A => formatN f .rfull
  | 0x2B => formatN f .rempty
  | 0x2C => formatN f .rsize
  | 0x30 => formatG f .arun
  | 0x3C => formatN f .stat
  | 0x3D => formatC f .cfgrd
  | _ => .error .reservedOpcode

/-- The decoder, total on every 32-bit word (R104, R105). -/
def decode (w : CmdWord) : Except DecodeError Instr := decodeFields (fieldsOf w)

/-- The fields of a command's word, unused fields 0 (R95, R99). -/
def encodeFields : Instr → Fields
  | .nop => ⟨0x00, 0, 0, 0, 0⟩
  | .pack32 n w => ⟨0x01, 0, n, w, 0⟩
  | .unpack32 n w => ⟨0x02, 0, n, w, 0⟩
  | .pack64 n w => ⟨0x03, 0, n, w, 0⟩
  | .unpack64 n w => ⟨0x04, 0, n, w, 0⟩
  | .packf n => ⟨0x05, 0, n, 0, 0⟩
  | .unpackf n => ⟨0x06, 0, n, 0, 0⟩
  | .extract off w => ⟨0x07, 0, off, w, 0⟩
  | .packi nv nw => ⟨0x08, 0, nv, nw, 0⟩
  | .unpacki nw => ⟨0x09, 0, 0, nw, 0⟩
  | .fvwr idx => ⟨0x0A, 0, 0, 0, idx⟩
  | .fvrd idx => ⟨0x0B, 0, 0, 0, idx⟩
  | .fwwr idx => ⟨0x0C, 0, 0, 0, idx⟩
  | .fwrd idx => ⟨0x0D, 0, 0, 0, idx⟩
  | .cget c => ⟨0x10, 0, 0, 0, c⟩
  | .cset c => ⟨0x11, 0, 0, 0, c⟩
  | .cupd c k => ⟨0x12, 0, 0, k, c⟩
  | .tick => ⟨0x18, 0, 0, 0, 0⟩
  | .tcur => ⟨0x19, 0, 0, 0, 0⟩
  | .trst => ⟨0x1A, 0, 0, 0, 0⟩
  | .spush => ⟨0x20, 0, 0, 0, 0⟩
  | .sget stage => ⟨0x21, 0, 0, 0, stage⟩
  | .sgetall => ⟨0x22, 0, 0, 0, 0⟩
  | .sclr => ⟨0x23, 0, 0, 0, 0⟩
  | .rwr => ⟨0x28, 0, 0, 0, 0⟩
  | .rrd => ⟨0x29, 0, 0, 0, 0⟩
  | .rfull => ⟨0x2A, 0, 0, 0, 0⟩
  | .rempty => ⟨0x2B, 0, 0, 0, 0⟩
  | .rsize => ⟨0x2C, 0, 0, 0, 0⟩
  | .arun iv a => ⟨0x30, iv, 0, 0, a⟩
  | .stat => ⟨0x3C, 0, 0, 0, 0⟩
  | .cfgrd sel => ⟨0x3D, 0, 0, 0, sel⟩

/-- The encoder: the command word of an instruction (R94, R99). -/
def encode (i : Instr) : CmdWord := wordOf (encodeFields i)

/-- The instruction the decoder reads from a word whose low `nbits` bits are those of `w`; a word is 32 bits, has no
byte order of its own (20_memory.md R74), and every bit above `nbits` is 0. -/
def decodeTableWord (nbits w : Nat) : Option Instr :=
  match decode (BitVec.ofNat 32 (w % 2 ^ nbits)) with
  | .ok i => some i
  | .error _ => none

end Sys2Proof
end

