-- ==== Sys2Proof/Machine/Flags.lean ====
section
/-! DEFINITION. Status codes (60_exceptions.md R360), the fault record (R362), the STATUS register (10_state.md R48),
the clock pulse (42_clock.md R220), the ring buffer's predicates (44_ring_buffer.md R263, R264) and the response
signals of the port (30_encoding.md R90, R98). -/

namespace Sys2Proof.Machine

/-- The 4-bit code of a status (R360). -/
def statusCode : Status → BitVec 4
  | .ok => 0
  | .invalidBitWidth => 1
  | .capacityExceeded => 2
  | .lenMismatch => 3
  | .exceeds64Limit => 4
  | .illegalCommand => 5
  | .indexRange => 6
  | .fieldRange => 7
  | .agentInput => 8

/-- `CAUSE` after a fault with cause `c` (R362): the first fault's cause is kept. -/
def causeAfter (flt : Bool) (cause : BitVec 4) (c : Status) : BitVec 4 := if flt then cause else statusCode c

/-- A truth value as a number, `zext` of one bit. -/
def bitOf (b : Bool) : Nat := if b then 1 else 0

/-- The STATUS register (R48, R341): `FLT` at bit 0, `CAUSE` at bits 7:4, the other bits 0. -/
def statusWord (s : State) : Word := BitVec.ofNat 64 (s.cause.toNat <<< 4 ||| bitOf s.flt)

/-- The counter after a tick (R220): one more, modulo `CLK_INTERVAL`, computed over unbounded numbers. -/
def tickAfter (s : State) : Nat := (s.tick.toNat + 1) % s.cfg.clkInterval

/-- The ring buffer is full (R263). -/
def ringFull (s : State) : Bool := s.size.toNat == s.cfg.rbCap

/-- The ring buffer is empty (R264). -/
def ringEmpty (s : State) : Bool := s.size.toNat == 0

/-- The text a host must put into its rendering of a result failure (R149, R367); other codes carry none. -/
def requiredPhrase : Status → Option String
  | .lenMismatch => some "must match number of bit widths"
  | .exceeds64Limit => some "exceeds 64-bit limit"
  | .ok | .invalidBitWidth | .capacityExceeded | .illegalCommand | .indexRange | .fieldRange | .agentInput => none

/-- `rsp_valid` (R90): a response is presented. -/
def rspValid (s : State) : Bool := s.rsp.isSome

/-- `rsp_st` (R90), 0 while no response is presented. -/
def rspSt (s : State) : BitVec 4 := s.rsp.elim 0 fun r => statusCode r.st

/-- `rsp_rv` (R90), 0 while no response is presented. -/
def rspRv (s : State) : Bool := s.rsp.elim false Response.rv

/-- `rsp_res` (R90), 0 while no response is presented. -/
def rspRes (s : State) : Word := s.rsp.elim 0 Response.res

/-- The `pulse` output (R90, R98). -/
def pulseOut (s : State) : Bool := s.rsp.elim false Response.pulse

end Sys2Proof.Machine
end

