-- ==== Sys2Proof/Machine/Tables.lean ====
section
/-! DEFINITION. The configuration as the commands use it: the low `DATA_W` bits of a word (20_memory.md R75), the
function tables (41_cells.md R204, 45_agents.md R291), and which configurations are well formed (00_scope.md R8, R10;
45_agents.md R296). -/

namespace Sys2Proof.Machine

/-- `trunc_DATA_W(v)` as a word (R13, R75). -/
def truncData (c : Config) (v : Word) : Word := BitVec.ofNat 64 (v.toNat % 2 ^ c.dataW)

/-- `trunc_DATA_W` of a present value. -/
def truncVal (c : Config) (x : Val) : Val := x.map (truncData c)

/-- An update function on words, before its result is cut to `DATA_W` bits. -/
def updateFn : UpdateFn → Word → Word
  | .addConst k, v => v + k
  | .mulConst k, v => k * v
  | .const k, _ => k
  | .free n, v => Config.freeUpdate n v

/-- `UF[k](v)` (R204); an index outside the table is checked by the caller, and gives `v`. -/
def applyUpdate (c : Config) (k : Nat) (v : Word) : Word :=
  match c.uf[k]? with
  | some f => truncData c (updateFn f v)
  | none => v

/-- A map function on values, before its result is cut to `DATA_W` bits (R291). -/
def mapFn : MapFn → Val → Val
  | .lift f, x => x.map (updateFn f)
  | .free n, x => Config.freeMap n x

/-- `AF[k](x)` (R291); the index is in the table by R296 (b). -/
def applyMap (c : Config) (k : Nat) (x : Val) : Val :=
  match c.af[k]? with
  | some f => truncVal c (mapFn f x)
  | none => x

/-- A predicate on values (R291). -/
def predFn : PredFn → Val → Bool
  | .even, some v => v.toNat % 2 == 0
  | .even, none => false
  | .free n, x => Config.freePred n x

/-- `AP[p](x)` (R291); the index is in the table by R296 (b). -/
def applyPred (c : Config) (p : Nat) (x : Val) : Bool :=
  match c.ap[p]? with
  | some f => predFn f x
  | none => false

/-- A combine function on values, before its result is cut to `DATA_W` bits (R291). -/
def combineFn : CombineFn → Val → Val → Val
  | .add, some a, some b => some (a + b)
  | .add, _, _ => none
  | .free n, x, y => Config.freeCombine n x y

/-- `AC[k](x, y)` (R291); the index is in the table by R296 (b). -/
def applyCombine (c : Config) (k : Nat) (x y : Val) : Val :=
  match c.ac[k]? with
  | some f => truncVal c (combineFn f x y)
  | none => none

/-- One entry of the descriptor table, standing at index `e`, is well formed (R296). -/
def descOk (c : Config) (e : Nat) : AgentDesc → Bool
  | .ident => true
  | .pureFn k => decide (k < c.af.length)
  | .cell ci => decide (ci < c.ncells)
  | .transform a k => decide (a < e) && decide (k < c.af.length)
  | .filter a p => decide (a < e) && decide (p < c.ap.length)
  | .pipe a b => decide (a < e) && decide (b < e)
  | .par a b k => decide (a < e) && decide (b < e) && decide (k < c.ac.length)
  | .shift a ss => decide (a < e) && ss.all (fun j => decide (j < e)) && decide (ss.length ≤ c.maxShift)
  | .feedback a n => decide (a < e) && decide (n ≤ 65535)

/-- The entries of a descriptor table from index `e` on are well formed (R296). -/
def tableOkFrom (c : Config) : Nat → List AgentDesc → Bool
  | _, [] => true
  | e, d :: ds => descOk c e d && tableOkFrom c (e + 1) ds

/-- The range checks of R8, one entry each; every initial cell value has `DATA_W` bits. -/
def paramChecks (c : Config) : List Bool :=
  [decide (1 ≤ c.dataW), decide (c.dataW ≤ 64), decide (1 ≤ c.ncells), decide (c.ncells ≤ 1024),
    c.cellInit.all (fun v => decide (v.toNat < 2 ^ c.dataW)),
    decide (1 ≤ c.clkInterval), decide (c.clkInterval < 2 ^ 32),
    decide (1 ≤ c.srStages), decide (c.srStages ≤ 64), decide (1 ≤ c.rbCap), decide (c.rbCap < 2 ^ 16),
    decide (c.nuf ≤ 256), decide (c.nagents ≤ 1024), decide (c.maxShift ≤ 64)]

/-- Every parameter is in its legal range (R8). -/
def paramsOk (c : Config) : Bool := (paramChecks c).all id

/-- A well-formed configuration (R10): parameters in range (R8) and the agent table in order (R296). -/
def configOk (c : Config) : Bool := paramsOk c && tableOkFrom c 0 c.ag

end Sys2Proof.Machine
end

