-- ==== Sys2Proof/Machine/Operands.lean ====
section
/-! DEFINITION. Operand assembly (30_encoding.md R96; 20_memory.md R71, R75, R77): the forms in which a command reads
`OPA` and the staging files. Index and count fields are unsigned numbers (R94) and are read with `toNat`. -/

namespace Sys2Proof.Machine

/-- `OPA[31:0]` as a number (R75, R77). -/
def opaLow32 (s : State) : Nat := s.opa.toNat % 2 ^ 32

/-- `OPA[7:0]` (R77). -/
def opaLow8 (s : State) : Width := s.opa.setWidth 8

/-- `OPA[DATA_W-1:0]` (R75, R77). -/
def opaData (s : State) : Word := truncData s.cfg s.opa

/-- The agent input of `ARUN` (R96, R309): `present(trunc_DATA_W(OPA))` when `IV = 1`, `absent` when `IV = 0`. -/
def agentInput (s : State) (iv : BitVec 1) : Val := if iv = 1 then some (opaData s) else none

/-- The value sequence `FV[0..n-1]` (R71, R96). -/
def fvList (s : State) (n : Nat) : List Nat := (s.fv.toList.take n).map BitVec.toNat

/-- The width sequence `FW[0..n-1]` (R71, R96). -/
def fwList (s : State) (n : Nat) : List Nat := (s.fw.toList.take n).map BitVec.toNat

/-- `o.valid` (R14). -/
def valid (o : Val) : Bool := o.isSome

/-- `o.data`, 0 for `absent` (R14). -/
def data (o : Val) : Word := o.getD 0

end Sys2Proof.Machine
end

