-- ==== Sys2Proof/Machine/Ops.lean ====
section
/-! DEFINITION. The operations the commands share: responding (30_encoding.md R97), faulting (60_exceptions.md R361,
R362), failing (R366), access to the state files, the packing core (40_codec.md R130), block reset
(70_reset_and_hazards.md R400), and taking what the host presents (30_encoding.md R90, R91). -/

namespace Sys2Proof.Machine

/-- The result of a step of this machine. -/
abbrev Result := Host.Outcome State Fault Refusal

/-! ## Responses -/

/-- `respond(OK, rv, res)` with no pulse (R97, R98): the state `s` is the command's own effect. -/
def respond (s : State) (rv : Bool) (res : Word) : State := { s with rsp := some ⟨.ok, rv, res, false⟩ }

/-- A command with no result value responds `(OK, 0, 0)` (R97). -/
def respondNone (s : State) : State := respond s false 0

/-- A command with a plain result responds `(OK, 1, v)` (R97). -/
def respondWord (s : State) (v : Nat) : State := respond s true (BitVec.ofNat 64 v)

/-- A command with an optional result responds `(OK, o.valid, zext_64(o.data))` (R97). -/
def respondVal (s : State) (o : Val) : State := respond s (valid o) (data o)

/-- The response of `TICK` (R220): `(OK, 1, pulse)`, and the `pulse` line driven with it (R98). -/
def respondPulse (s : State) (p : Bool) : State :=
  { s with rsp := some ⟨.ok, true, BitVec.ofNat 64 (bitOf p), p⟩ }

/-- `raise Fault(cause)` (R361, R362), the one way a fault is taken: the response is `(cause, 0, 0)`, `CAUSE` takes
the cause when `FLT` was 0, `FLT` becomes 1, and nothing else changes. There is no handler and no mode (R364), and so
no return: the next command runs as usual (R371). -/
def raiseFault (s : State) (c : Status) : State :=
  { s with flt := true, cause := causeAfter s.flt s.cause c, rsp := some ⟨c, false, 0, false⟩ }

/-- `fail(code)` (R366): the response is `(code, 0, 0)` and nothing else changes. -/
def failWith (s : State) (c : Status) : State := { s with rsp := some ⟨c, false, 0, false⟩ }

/-- A command whose field values are limited at decode (R102) runs its body only within the limits. `decode` gives no
other (R104); here the same rule is said of `exec`, so that it holds of every `Instr`. -/
def limitChecked (i : Instr) (s : State) (body : State) : State :=
  if WellFormed i then body else raiseFault s .illegalCommand

/-! ## State files -/

/-- `FV[i]` for `i < 64` (R151). -/
def readFv (s : State) (i : Nat) : Word := s.fv.getD i 0

/-- `FV[i] <- v` (R150). -/
def writeFv (s : State) (i : Nat) (v : Word) : State := { s with fv := s.fv.setIfInBounds i v }

/-- `FW[i]` for `i < 64` (R153). -/
def readFw (s : State) (i : Nat) : Width := s.fw.getD i 0

/-- `FW[i] <- w` (R152). -/
def writeFw (s : State) (i : Nat) (w : Width) : State := { s with fw := s.fw.setIfInBounds i w }

/-- A list written into `FV` from entry `i` on. -/
def fillFrom (fv : Vector Word 64) : Nat → List Word → Vector Word 64
  | _, [] => fv
  | i, v :: vs => fillFrom (fv.setIfInBounds i v) (i + 1) vs

/-- `FV[0..len-1]` takes a list; the entries from `len` on are unchanged (R131, R242). -/
def writeFvList (s : State) (vs : List Word) : State := { s with fv := fillFrom s.fv 0 vs }

/-- `CELL[c]` for `c < NCELLS` (R200). -/
def readCell (cells : List Word) (c : Nat) : Word := cells.getD c 0

/-- `CELL[c] <- v`; every other cell is unchanged (R200). -/
def writeCell (s : State) (c : Nat) (v : Word) : State := { s with cell := s.cell.set c v }

/-- `SR[i]`, `absent` out of range (R241). -/
def readStage (s : State) (i : Nat) : Val := if i < s.cfg.srStages then s.sr.getD i none else none

/-- `RB[j]` for `j < RB_CAP` (R262). -/
def readSlot (s : State) (j : Nat) : Val := s.rb.getD j none

/-- A ring index advanced modulo `RB_CAP` (R260, R262). -/
def ringNext (s : State) (i : BitVec 16) : BitVec 16 := BitVec.ofNat 16 ((i.toNat + 1) % s.cfg.rbCap)

/-- Bit `i + k` is 1 exactly when slot `k` of the list is present (R242). -/
def presenceMask : Nat → List Val → Nat
  | _, [] => 0
  | i, o :: os => bitOf (valid o) <<< i ||| presenceMask (i + 1) os

/-! ## The packing core -/

/-- `mask(w) = 2^w - 1`, exact for every `w` (R13). -/
def mask (w : Nat) : Nat := 2 ^ w - 1

/-- `PackCore` of the fields `(v, w)` with the first one at offset `off` (R130): each value is cut to its width and
put at the sum of the widths below it. -/
def packFrom : Nat → List (Nat × Nat) → Nat
  | _, [] => 0
  | off, (v, w) :: fs => ((v &&& mask w) <<< off) + packFrom (off + w) fs

/-- `UnpackCore` of `p` with the first field at offset `off` (R130). -/
def unpackFrom (p : Nat) : Nat → List Nat → List Nat
  | _, [] => []
  | off, w :: ws => ((p >>> off) &&& mask w) :: unpackFrom p (off + w) ws

/-- `PackCore(v, w)` (R130). -/
def packCore (vs ws : List Nat) : Nat := packFrom 0 (vs.zip ws)

/-- `UnpackCore(p, w)` (R130). -/
def unpackCore (p : Nat) (ws : List Nat) : List Nat := unpackFrom p 0 ws

/-- The decoded fields go to `FV[0..n-1]`, zero-extended (R137, R141, R144, R148). -/
def unpackToFv (s : State) (p : Nat) (ws : List Nat) : State :=
  writeFvList s ((unpackCore p ws).map (BitVec.ofNat 64))

/-! ## The port -/

/-- Every state element takes its reset value, the configuration stays, no response is presented (R400 to R402). The
host's further inputs and the model's draw counter are no state elements and stay. -/
def blockReset (s : State) : State := { State.resetOf s.cfg with inputs := s.inputs, draw := s.draw }

/-- With nothing presented BFCORE is idle with all state held (R380); the last response is no longer presented, since
`rsp_valid` is 1 for one cycle only (R90). -/
def idle (s : State) : State := { s with rsp := none }

/-- A command is accepted: its operand word is sampled and the host's next input comes up (R90, R91). -/
def accept (s : State) (rest : List HostEvent) (opa : Word) : State := { s with inputs := rest, opa := opa }

/-- The host's next input is taken away. -/
def consume (s : State) (rest : List HostEvent) : State := { s with inputs := rest }

/-- A command word with its low `nbits` bits those of `w` and every bit above 0, with `OPA = 0`, as a host input. -/
def tableWordEvent (nbits w : Nat) : HostEvent := .command (BitVec.ofNat 32 (w % 2 ^ nbits)) 0

end Sys2Proof.Machine
end

