-- ==== Sys2Proof/Machine/Agents.lean ====
section
/-! DEFINITION. The agent composition multiplexer (45_agents.md R290 to R312). -/

namespace Sys2Proof.Machine

/-- `(y, σ1) <- Eval(...)` followed by the rest: the first fault ends the enclosing evaluation (§3, R306). -/
def andThen (r : EvalResult) (k : Val → Thread → EvalResult) : EvalResult :=
  match r with
  | .ok y t => k y t
  | .fault d => .fault d
  | .illFormed => .illFormed

/-- A `CELL c` primitive on input `x` (R293): the input names the update function, the cell takes the new value, and
the new value is the output; an input that names no function is the fault `AGENT_INPUT`. -/
def evalCell (c : Config) (ci : Nat) (x : Val) (t : Thread) : EvalResult :=
  match x with
  | none => .fault t.draw
  | some v =>
    if c.nuf ≤ v.toNat then .fault t.draw
    else
      let new := applyUpdate c v.toNat (readCell t.cells ci)
      .ok (some new) { t with cells := t.cells.set ci new }

/-- The stages of `SHIFT` in list order, each on the output of the one before (R301). -/
def runStages (sub : Nat → Val → Thread → EvalResult) : List Nat → Val → Thread → EvalResult
  | [], y, t => .ok y t
  | j :: js, y, t => andThen (sub j y t) (runStages sub js)

/-- An agent applied `n` times to its own output (R302). -/
def iterateAgent (f : Val → Thread → EvalResult) : Nat → Val → Thread → EvalResult
  | 0, y, t => .ok y t
  | n + 1, y, t => andThen (f y t) (iterateAgent f n)

/-- The thread after one draw has been taken (R305). -/
def afterDraw (t : Thread) : Thread := { t with draw := t.draw + 1 }

/-- One descriptor on input `x` (R293 to R303); `sub` evaluates the entries it names and `order` gives the draws. -/
def evalDesc (c : Config) (order : Nat → ParOrder) (sub : Nat → Val → Thread → EvalResult) (d : AgentDesc)
    (x : Val) (t : Thread) : EvalResult :=
  match d with
  | .ident => .ok x t
  | .pureFn k => .ok (applyMap c k x) t
  | .cell ci => evalCell c ci x t
  | .transform a k => andThen (sub a x t) fun y t1 => .ok (applyMap c k y) t1
  | .filter a p => andThen (sub a x t) fun y t1 => .ok (if applyPred c p y then y else none) t1
  | .pipe a b => andThen (sub a x t) fun y t1 => sub b y t1
  | .par a b k =>
    match order t.draw with
    | .ab => andThen (sub a x (afterDraw t)) fun ya t1 =>
        andThen (sub b x t1) fun yb t2 => .ok (applyCombine c k ya yb) t2
    | .ba => andThen (sub b x (afterDraw t)) fun yb t1 =>
        andThen (sub a x t1) fun ya t2 => .ok (applyCombine c k ya yb) t2
  | .shift a ss => andThen (sub a x t) (runStages sub ss)
  | .feedback a n => iterateAgent (sub a) n x t

/-- `Eval(AG[e], x, σ)` with at most `fuel` levels of table entries. An entry names only smaller entries (R296 (a)),
so `e + 1` levels are enough (R297). An entry that is not well formed (R296) has no evaluation. -/
def evalFuel (c : Config) (order : Nat → ParOrder) : Nat → Nat → Val → Thread → EvalResult
  | 0, _, _, _ => .illFormed
  | fuel + 1, e, x, t =>
    match c.ag[e]? with
    | none => .illFormed
    | some d => if descOk c e d then evalDesc c order (evalFuel c order fuel) d x t else .illFormed

/-- `Eval(AG[e], x, σ)` (§3) under the draws `order`. -/
def evalAgent (c : Config) (order : Nat → ParOrder) (e : Nat) (x : Val) (t : Thread) : EvalResult :=
  evalFuel c order (e + 1) e x t

/-- The cells and the draws an `ARUN` starts from. -/
def threadOf (s : State) : Thread := ⟨s.cell, s.draw⟩

/-- The end of an `ARUN` (R309, R310): on an output the cells are kept and the output responded; on a fault the cells
are those before the command. The draws taken are gone in both cases (log entry 8). -/
def finishAgent (s : State) (r : EvalResult) : Result :=
  match r with
  | .ok y t => .next (respondVal { s with cell := t.cells, draw := t.draw } y)
  | .fault d => .next (raiseFault { s with draw := d } .agentInput)
  | .illFormed => .refused .illFormedConfig

/-- `ARUN a, #v` or `ARUN a, -` (R309). -/
def execArun (iv : BitVec 1) (a : BitVec 10) (s : State) : Result :=
  if s.cfg.nagents ≤ a.toNat then .next (raiseFault s .indexRange)
  else finishAgent s (evalAgent s.cfg Config.parOrder a.toNat (agentInput s iv) (threadOf s))

end Sys2Proof.Machine
end

