-- ==== Sys2Proof/Machine/Cells.lean ====
section
/-! DEFINITION. The memory-cell commands (41_cells.md R200 to R204). -/

namespace Sys2Proof.Machine

/-- The cell-index check of the register-file multiplexer (R200). -/
def cellChecked (s : State) (c : Nat) (body : State) : State :=
  if s.cfg.ncells ≤ c then raiseFault s .indexRange else body

/-- `CGET c` (R201). -/
def execCget (c : BitVec 10) (s : State) : Result :=
  .next (cellChecked s c.toNat (respondWord s (readCell s.cell c.toNat).toNat))

/-- `CSET c, #v` (R202). -/
def execCset (c : BitVec 10) (s : State) : Result :=
  .next (cellChecked s c.toNat (respondNone (writeCell s c.toNat (opaData s))))

/-- `CUPD c, k` (R203): the cell bound is checked first, then the function bound. -/
def execCupd (c : BitVec 10) (k : BitVec 8) (s : State) : Result :=
  let new := applyUpdate s.cfg k.toNat (readCell s.cell c.toNat)
  .next (cellChecked s c.toNat
    (if s.cfg.nuf ≤ k.toNat then raiseFault s .indexRange
      else respondWord (writeCell s c.toNat new) new.toNat))

end Sys2Proof.Machine
end

