-- ==== Sys2Proof/Machine/Clock.lean ====
section
/-! DEFINITION. The tick counter and pulse generator (42_clock.md R220 to R222). -/

namespace Sys2Proof.Machine

/-- `TICK` (R220). -/
def execTick (s : State) : Result :=
  .next (respondPulse { s with tick := BitVec.ofNat 32 (tickAfter s) } (tickAfter s == 0))

/-- `TCUR` (R221). -/
def execTcur (s : State) : Result := .next (respondWord s s.tick.toNat)

/-- `TRST` (R222). -/
def execTrst (s : State) : Result := .next (respondNone { s with tick := 0 })

end Sys2Proof.Machine
end

