-- ==== Sys2Proof/Machine/Codec.lean ====
section
/-! DEFINITION. The bit-field codec commands and the staging-file commands (40_codec.md R130 to R153). -/

namespace Sys2Proof.Machine

/-! ## Shared bodies -/

/-- The checks of the uniform commands (R135, R137, R139, R141) before a body: the width must be in `1..wmax`, then
`n * w` must fit the capacity, over unbounded numbers (R142). -/
def uniformChecked (s : State) (widthOk : Bool) (cap n w : Nat) (body : State) : State :=
  if widthOk = false then raiseFault s .invalidBitWidth
  else if n * w > cap then raiseFault s .capacityExceeded
  else body

/-- The widths `[w, ..., w]` of a uniform command (R130). -/
def uniformWidths (n w : Nat) : List Nat := List.replicate n w

/-- The response of a uniform pack (R130, R135, R139). -/
def packUniform (s : State) (n w : Nat) : State := respondWord s (packCore (fvList s n) (uniformWidths n w))

/-- The effect of a uniform unpack of the word `p` (R130, R137, R141). -/
def unpackUniform (s : State) (p n w : Nat) : State := respondNone (unpackToFv s p (uniformWidths n w))

/-- A width list holds a zero width (R143 and decision D17). -/
def hasZeroWidth (ws : List Nat) : Bool := ws.any (fun w => w == 0)

/-- The fail-fast checks of `PACKF` and `UNPACKF` (R143, R144): a zero width first, then the sum. -/
def fieldsChecked (s : State) (ws : List Nat) (body : State) : State :=
  if hasZeroWidth ws then raiseFault s .invalidBitWidth
  else if ws.sum > 64 then raiseFault s .capacityExceeded
  else body

/-- The result-typed checks of `PACKI` and `UNPACKI` (R147, R148): the sum fails first, then a zero width faults. -/
def resultChecked (s : State) (ws : List Nat) (body : State) : State :=
  if ws.sum > 64 then failWith s .exceeds64Limit
  else if hasZeroWidth ws then raiseFault s .invalidBitWidth
  else body

/-- The response of a variable-width pack of `n` fields (R143, R147). -/
def packFields (s : State) (n : Nat) : State := respondWord s (packCore (fvList s n) (fwList s n))

/-- The effect of a variable-width unpack of `OPA` into `n` fields (R144, R148). -/
def unpackFields (s : State) (n : Nat) : State := respondNone (unpackToFv s s.opa.toNat (fwList s n))

/-- The 32-bit commands take widths 1 to 8 (R135, R137). -/
def byteWidthOk (w : Nat) : Bool := decide (1 ≤ w) && decide (w ≤ 8)

/-- The 64-bit uniform commands take any width from 1 (R139, R141). -/
def wordWidthOk (w : Nat) : Bool := decide (1 ≤ w)

/-- The index check of the staging-file commands (R150 to R153). -/
def stagingChecked (s : State) (idx : Nat) (body : State) : State :=
  if 64 ≤ idx then raiseFault s .indexRange else body

/-! ## The commands -/

/-- `PACK32 n, w` (R135). -/
def execPack32 (n : BitVec 7) (w : BitVec 8) (s : State) : Result :=
  .next (limitChecked (.pack32 n w) s
    (uniformChecked s (byteWidthOk w.toNat) 32 n.toNat w.toNat (packUniform s n.toNat w.toNat)))

/-- `UNPACK32 n, w, #p` (R137), with `p = OPA[31:0]`. -/
def execUnpack32 (n : BitVec 7) (w : BitVec 8) (s : State) : Result :=
  .next (limitChecked (.unpack32 n w) s
    (uniformChecked s (byteWidthOk w.toNat) 32 n.toNat w.toNat (unpackUniform s (opaLow32 s) n.toNat w.toNat)))

/-- `PACK64 n, w` (R139). -/
def execPack64 (n : BitVec 7) (w : BitVec 8) (s : State) : Result :=
  .next (limitChecked (.pack64 n w) s
    (uniformChecked s (wordWidthOk w.toNat) 64 n.toNat w.toNat (packUniform s n.toNat w.toNat)))

/-- `UNPACK64 n, w, #p` (R141), with `p = OPA`. -/
def execUnpack64 (n : BitVec 7) (w : BitVec 8) (s : State) : Result :=
  .next (limitChecked (.unpack64 n w) s
    (uniformChecked s (wordWidthOk w.toNat) 64 n.toNat w.toNat (unpackUniform s s.opa.toNat n.toNat w.toNat)))

/-- `PACKF n` (R143). -/
def execPackf (n : BitVec 7) (s : State) : Result :=
  .next (limitChecked (.packf n) s (fieldsChecked s (fwList s n.toNat) (packFields s n.toNat)))

/-- `UNPACKF n, #p` (R144). -/
def execUnpackf (n : BitVec 7) (s : State) : Result :=
  .next (limitChecked (.unpackf n) s (fieldsChecked s (fwList s n.toNat) (unpackFields s n.toNat)))

/-- `EXTRACT off, w, #p` (R145). -/
def execExtract (off : BitVec 7) (w : BitVec 8) (s : State) : Result :=
  .next (if w.toNat = 0 then raiseFault s .invalidBitWidth
    else if off.toNat + w.toNat > 64 then raiseFault s .fieldRange
    else respondWord s ((s.opa.toNat >>> off.toNat) &&& mask w.toNat))

/-- `PACKI nv, nw` (R147). -/
def execPacki (nv : BitVec 7) (nw : BitVec 8) (s : State) : Result :=
  .next (limitChecked (.packi nv nw) s
    (if nv.toNat ≠ nw.toNat then failWith s .lenMismatch
      else resultChecked s (fwList s nw.toNat) (packFields s nw.toNat)))

/-- `UNPACKI nw, #p` (R148). -/
def execUnpacki (nw : BitVec 8) (s : State) : Result :=
  .next (limitChecked (.unpacki nw) s (resultChecked s (fwList s nw.toNat) (unpackFields s nw.toNat)))

/-- `FVWR idx, #v` (R150). -/
def execFvwr (idx : BitVec 10) (s : State) : Result :=
  .next (stagingChecked s idx.toNat (respondNone (writeFv s idx.toNat s.opa)))

/-- `FVRD idx` (R151). -/
def execFvrd (idx : BitVec 10) (s : State) : Result :=
  .next (stagingChecked s idx.toNat (respondWord s (readFv s idx.toNat).toNat))

/-- `FWWR idx, #w` (R152). -/
def execFwwr (idx : BitVec 10) (s : State) : Result :=
  .next (stagingChecked s idx.toNat (respondNone (writeFw s idx.toNat (opaLow8 s))))

/-- `FWRD idx` (R153). -/
def execFwrd (idx : BitVec 10) (s : State) : Result :=
  .next (stagingChecked s idx.toNat (respondWord s (readFw s idx.toNat).toNat))

end Sys2Proof.Machine
end

