-- ==== Sys2Proof/Machine/Ring.lean ====
section
/-! DEFINITION. The ring-buffer commands (44_ring_buffer.md R260 to R265). -/

namespace Sys2Proof.Machine

/-- The state after a write of `v` (R260): the slot at the write index is stored, the write index advances, and
either the occupancy grows or, when the buffer was full before, the read index advances past the oldest entry. -/
def ringWrite (s : State) (v : Word) : State :=
  { s with
    rb := s.rb.set s.widx.toNat (some v)
    widx := ringNext s s.widx
    size := if ringFull s then s.size else s.size + 1
    ridx := if ringFull s then ringNext s s.ridx else s.ridx }

/-- The state after a read of a buffer that is not empty (R262): the slot at the read index is cleared, the read
index advances, the occupancy falls. -/
def ringRead (s : State) : State :=
  { s with
    rb := s.rb.set s.ridx.toNat none
    ridx := ringNext s s.ridx
    size := s.size - 1 }

/-- `RWR #v` (R260). -/
def execRwr (s : State) : Result := .next (respondNone (ringWrite s (opaData s)))

/-- `RRD` (R262). -/
def execRrd (s : State) : Result :=
  .next (if ringEmpty s then respondNone s
    else respondWord (ringRead s) (data (readSlot s s.ridx.toNat)).toNat)

/-- `RFULL` (R263). -/
def execRfull (s : State) : Result := .next (respondWord s (bitOf (ringFull s)))

/-- `REMPTY` (R264). -/
def execRempty (s : State) : Result := .next (respondWord s (bitOf (ringEmpty s)))

/-- `RSIZE` (R265). -/
def execRsize (s : State) : Result := .next (respondWord s s.size.toNat)

end Sys2Proof.Machine
end

