-- ==== Sys2Proof/Machine/Shift.lean ====
section
/-! DEFINITION. The shift-register commands (43_shift_register.md R240 to R243). -/

namespace Sys2Proof.Machine

/-- The slots after a push: the value in slot 0, every slot one place toward the tail, the tail gone (R240). -/
def pushedSlots (s : State) (v : Word) : List Val := (some v :: s.sr).take s.cfg.srStages

/-- `SPUSH #v` (R240): the response is what the tail held before. -/
def execSpush (s : State) : Result :=
  .next (respondVal { s with sr := pushedSlots s (opaData s) } (readStage s (s.cfg.srStages - 1)))

/-- `SGET s` (R241). -/
def execSget (stage : BitVec 10) (s : State) : Result := .next (respondVal s (readStage s stage.toNat))

/-- `SGETALL` (R242): slot data to `FV[0..SR_STAGES-1]`, presence bits to `RES`. -/
def execSgetall (s : State) : Result := .next (respondWord (writeFvList s (s.sr.map data)) (presenceMask 0 s.sr))

/-- `SCLR` (R243). -/
def execSclr (s : State) : Result := .next (respondNone { s with sr := List.replicate s.cfg.srStages none })

end Sys2Proof.Machine
end

