-- ==== Sys2Proof/Machine/System.lean ====
section
/-! DEFINITION. The system commands (46_system.md R340 to R343). -/

namespace Sys2Proof.Machine

/-- The identification value (R342, R343). -/
def identification : Nat := 0x42464331

/-- The configuration register with selector `sel` (R342; 10_state.md R49). A selector above 8 faults at decode
(30_encoding.md R102) and reaches no value here. -/
def cfgValue (c : Config) (sel : Nat) : Nat :=
  match sel with
  | 0 => identification
  | 1 => c.dataW
  | 2 => c.ncells
  | 3 => c.clkInterval
  | 4 => c.srStages
  | 5 => c.rbCap
  | 6 => c.nuf
  | 7 => c.nagents
  | 8 => 64
  | _ => 0

/-- `NOP` (R340). -/
def execNop (s : State) : Result := .next (respondNone s)

/-- `STAT` (R341). -/
def execStat (s : State) : Result := .next (respondWord s (statusWord s).toNat)

/-- `CFGRD sel` (R342). -/
def execCfgrd (sel : BitVec 10) (s : State) : Result :=
  .next (limitChecked (.cfgrd sel) s (respondWord s (cfgValue s.cfg sel.toNat)))

end Sys2Proof.Machine
end

