-- ==== Sys2Proof/Machine/Dispatch.lean ====
section
/-! DEFINITION. The dispatch of a decoded command to its meaning, one arm per row of the opcode map
(30_encoding.md R99). -/

namespace Sys2Proof.Machine

def exec (i : Instr) (s : State) : Host.Outcome State Fault Refusal :=
  match i with
  | .nop => Sys2Proof.Machine.execNop s
  | .pack32 n w => Sys2Proof.Machine.execPack32 n w s
  | .unpack32 n w => Sys2Proof.Machine.execUnpack32 n w s
  | .pack64 n w => Sys2Proof.Machine.execPack64 n w s
  | .unpack64 n w => Sys2Proof.Machine.execUnpack64 n w s
  | .packf n => Sys2Proof.Machine.execPackf n s
  | .unpackf n => Sys2Proof.Machine.execUnpackf n s
  | .extract off w => Sys2Proof.Machine.execExtract off w s
  | .packi nv nw => Sys2Proof.Machine.execPacki nv nw s
  | .unpacki nw => Sys2Proof.Machine.execUnpacki nw s
  | .fvwr idx => Sys2Proof.Machine.execFvwr idx s
  | .fvrd idx => Sys2Proof.Machine.execFvrd idx s
  | .fwwr idx => Sys2Proof.Machine.execFwwr idx s
  | .fwrd idx => Sys2Proof.Machine.execFwrd idx s
  | .cget c => Sys2Proof.Machine.execCget c s
  | .cset c => Sys2Proof.Machine.execCset c s
  | .cupd c k => Sys2Proof.Machine.execCupd c k s
  | .tick => Sys2Proof.Machine.execTick s
  | .tcur => Sys2Proof.Machine.execTcur s
  | .trst => Sys2Proof.Machine.execTrst s
  | .spush => Sys2Proof.Machine.execSpush s
  | .sget stage => Sys2Proof.Machine.execSget stage s
  | .sgetall => Sys2Proof.Machine.execSgetall s
  | .sclr => Sys2Proof.Machine.execSclr s
  | .rwr => Sys2Proof.Machine.execRwr s
  | .rrd => Sys2Proof.Machine.execRrd s
  | .rfull => Sys2Proof.Machine.execRfull s
  | .rempty => Sys2Proof.Machine.execRempty s
  | .rsize => Sys2Proof.Machine.execRsize s
  | .arun iv a => Sys2Proof.Machine.execArun iv a s
  | .stat => Sys2Proof.Machine.execStat s
  | .cfgrd sel => Sys2Proof.Machine.execCfgrd sel s

end Sys2Proof.Machine
end

