-- ==== Sys2Proof/Machine/Step.lean ====
section
/-! DEFINITION. One step: BFCORE takes what the host presents next. A step is one command as one atomic transaction
(20_memory.md R78; 70_reset_and_hazards.md R410), one assertion of `rst`, or an idle moment. -/

namespace Sys2Proof.Machine

/-- One step. An ill-formed configuration is refused, not run (00_scope.md R10). With nothing presented the machine is
idle (60_exceptions.md R380). A command word that decodes runs its instruction on the state with its operand sampled;
one that does not raises `ILLEGAL_COMMAND` (30_encoding.md R104). `rst` gives the reset state, and a command in
flight is discarded without a response (70_reset_and_hazards.md R400). -/
def step (s : State) : Host.Outcome State Fault Refusal :=
  if configOk s.cfg then
    match s.inputs with
    | [] => .next (idle s)
    | .command cmd opa :: rest =>
      match decode cmd with
      | .ok i => exec i (accept s rest opa)
      | .error _ => .next (raiseFault (accept s rest opa) .illegalCommand)
    | .rst _ :: rest => .next (blockReset (consume s rest))
  else .refused .illFormedConfig

/-- The state with a command word placed where `step` takes its next command: at the head of what the host presents,
with `OPA = 0` (log entry 5). -/
def State.withFetchWord (s : State) (nbits w : Nat) : State :=
  { s with inputs := tableWordEvent nbits w :: s.inputs }

end Sys2Proof.Machine
end

