-- ==== Sys2Proof/Machine/Assembler.lean ====
section
/-! DEFINITION. The assembler syntax (30_encoding.md R106), the pseudo-instructions with their fixed expansions
(R107), and the commands a line of text stands for. -/

namespace Sys2Proof.Machine

/-- The command the host presents for an instruction and its operand word. -/
def commandOf (i : Instr) (opa : Word) : HostEvent := .command (encode i) opa

/-- An operand of a line (R106): a number, `#v` for `OPA`, or the `-` of an absent agent input. -/
inductive AsmOperand where
  | num (n : Nat)
  | opa (v : Word)
  | dash
  deriving DecidableEq, Repr

/-- The field operands of a line and the operand word it gives, if any (R106). -/
def splitOperands : List AsmOperand → Option (List Nat × Option Word)
  | [] => some ([], none)
  | [.opa v] => some ([], some v)
  | .num n :: rest => (splitOperands rest).map fun (ns, v) => (n :: ns, v)
  | _ => none

/-- A field operand as a bit field, if it fits. -/
def fieldArg (w n : Nat) : Option (BitVec w) := if n < 2 ^ w then some (BitVec.ofNat w n) else none

/-- The commands without field operands, by mnemonic (R106). -/
def plainCommand (m : String) : Option Instr :=
  match m with
  | "NOP" => some .nop
  | "TICK" => some .tick
  | "TCUR" => some .tcur
  | "TRST" => some .trst
  | "SPUSH" => some .spush
  | "SGETALL" => some .sgetall
  | "SCLR" => some .sclr
  | "RWR" => some .rwr
  | "RRD" => some .rrd
  | "RFULL" => some .rfull
  | "REMPTY" => some .rempty
  | "RSIZE" => some .rsize
  | "STAT" => some .stat
  | _ => none

/-- The commands with one field operand, by mnemonic (R106). -/
def unaryCommand (m : String) (x : Nat) : Option Instr :=
  match m with
  | "PACKF" => (fieldArg 7 x).map .packf
  | "UNPACKF" => (fieldArg 7 x).map .unpackf
  | "UNPACKI" => (fieldArg 8 x).map .unpacki
  | "FVWR" => (fieldArg 10 x).map .fvwr
  | "FVRD" => (fieldArg 10 x).map .fvrd
  | "FWWR" => (fieldArg 10 x).map .fwwr
  | "FWRD" => (fieldArg 10 x).map .fwrd
  | "CGET" => (fieldArg 10 x).map .cget
  | "CSET" => (fieldArg 10 x).map .cset
  | "SGET" => (fieldArg 10 x).map .sget
  | "CFGRD" => (fieldArg 10 x).map .cfgrd
  | _ => none

/-- The commands with two field operands, by mnemonic and in the order of R106. -/
def binaryCommand (m : String) (x y : Nat) : Option Instr :=
  match m, fieldArg 7 x, fieldArg 8 y with
  | "PACK32", some n, some w => some (.pack32 n w)
  | "UNPACK32", some n, some w => some (.unpack32 n w)
  | "PACK64", some n, some w => some (.pack64 n w)
  | "UNPACK64", some n, some w => some (.unpack64 n w)
  | "EXTRACT", some off, some w => some (.extract off w)
  | "PACKI", some nv, some nw => some (.packi nv nw)
  | "CUPD", _, some k => (fieldArg 10 x).map fun c => .cupd c k
  | _, _, _ => none

/-- The commands that take `#v` (R106). -/
def takesOpa : Instr → Bool
  | .unpack32 _ _ | .unpack64 _ _ | .unpackf _ | .extract _ _ | .unpacki _ | .fvwr _ | .fwwr _ | .cset _ | .spush
  | .rwr => true
  | .arun iv _ => iv == 1
  | .nop | .pack32 _ _ | .pack64 _ _ | .packf _ | .packi _ _ | .fvrd _ | .fwrd _ | .cget _ | .cupd _ _ | .tick
  | .tcur | .trst | .sget _ | .sgetall | .sclr | .rrd | .rfull | .rempty | .rsize | .stat | .cfgrd _ => false

/-- A line with its mnemonic and field operands (R106), `ARUN` apart. -/
def namedCommand (m : String) : List Nat → Option Instr
  | [] => plainCommand m
  | [x] => unaryCommand m x
  | [x, y] => binaryCommand m x y
  | _ => none

/-- A line assembled to a command and its operand word (R106). `ARUN a, #v` has a present input, `ARUN a, -` an
absent one; `#v` stands only where the command takes it, and is 0 when omitted. -/
def assemble (m : String) (ops : List AsmOperand) : Option (Instr × Word) :=
  match m, ops with
  | "ARUN", [.num a, .dash] => (fieldArg 10 a).map fun a => (.arun 0 a, 0)
  | "ARUN", [.num a, .opa v] => (fieldArg 10 a).map fun a => (.arun 1 a, v)
  | _, _ =>
    match splitOperands ops with
    | some (ns, v) =>
      (namedCommand m ns).bind fun i => if takesOpa i || v.isNone then some (i, v.getD 0) else none
    | none => none

/-- The pseudo-instructions of R107. -/
inductive Pseudo where
  | ldvals (vs : List Word)
  | ldwids (ws : List Word)
  | ldfields (fs : List (Word × Word))
  | rdvals (k : Nat)
  | tickn (k : Nat)
  deriving DecidableEq, Repr

/-- The list lengths R107 admits: at most 64. -/
def pseudoOk : Pseudo → Bool
  | .ldvals vs => decide (vs.length ≤ 64)
  | .ldwids ws => decide (ws.length ≤ 64)
  | .ldfields fs => decide (fs.length ≤ 64)
  | .rdvals k => decide (k ≤ 64)
  | .tickn _ => true

/-- `FVWR i, #v0 ; FVWR i+1, #v1 ; ...` (R107). -/
def loadValues : Nat → List Word → List HostEvent
  | _, [] => []
  | i, v :: vs => commandOf (.fvwr (BitVec.ofNat 10 i)) v :: loadValues (i + 1) vs

/-- `FWWR i, #w0 ; FWWR i+1, #w1 ; ...` (R107). -/
def loadWidths : Nat → List Word → List HostEvent
  | _, [] => []
  | i, w :: ws => commandOf (.fwwr (BitVec.ofNat 10 i)) w :: loadWidths (i + 1) ws

/-- `FVWR i, #v0 ; FWWR i, #w0 ; ...` (R107). -/
def loadFields : Nat → List (Word × Word) → List HostEvent
  | _, [] => []
  | i, (v, w) :: fs =>
    commandOf (.fvwr (BitVec.ofNat 10 i)) v :: commandOf (.fwwr (BitVec.ofNat 10 i)) w :: loadFields (i + 1) fs

/-- The expansion of a pseudo-instruction (R107): its effect is the effect of these commands, one by one. -/
def expand : Pseudo → List HostEvent
  | .ldvals vs => loadValues 0 vs
  | .ldwids ws => loadWidths 0 ws
  | .ldfields fs => loadFields 0 fs
  | .rdvals k => (List.range k).map fun i => commandOf (.fvrd (BitVec.ofNat 10 i)) 0
  | .tickn k => List.replicate k (commandOf .tick 0)

/-! ## Lines of text -/

/-- The line without its comment: `;` starts a comment (R106). -/
def withoutComment (line : List Char) : List Char := line.takeWhile (· != ';')

/-- Blanks around a token carry nothing. -/
def trimBlanks (cs : List Char) : List Char :=
  ((cs.dropWhile Char.isWhitespace).reverse.dropWhile Char.isWhitespace).reverse

/-- A digit of base 10 or 16. -/
def digitOf (c : Char) : Option Nat :=
  if '0' ≤ c ∧ c ≤ '9' then some (c.toNat - '0'.toNat)
  else if 'a' ≤ c ∧ c ≤ 'f' then some (c.toNat - 'a'.toNat + 10)
  else if 'A' ≤ c ∧ c ≤ 'F' then some (c.toNat - 'A'.toNat + 10)
  else none

/-- The digits of a number in a base, most significant first, after those read so far. -/
def readDigits (base : Nat) : Nat → List Char → Option Nat
  | acc, [] => some acc
  | acc, c :: cs => (digitOf c).bind fun d => if d < base then readDigits base (acc * base + d) cs else none

/-- A number, decimal or `0x` hexadecimal (R106). -/
def readNumber (cs : List Char) : Option Nat :=
  match trimBlanks cs with
  | [] => none
  | '0' :: 'x' :: d :: ds => readDigits 16 0 (d :: ds)
  | ds => readDigits 10 0 ds

/-- A number that fits the 64-bit `OPA`. -/
def readWord (cs : List Char) : Option Word := (readNumber cs).bind (fieldArg 64)

/-- One operand of a line (R106). -/
def readOperand (cs : List Char) : Option AsmOperand :=
  match trimBlanks cs with
  | ['-'] => some .dash
  | '#' :: ds => (readWord ds).map .opa
  | ds => (readNumber ds).map .num

/-- The pieces of a list between its commas. -/
def splitCommas : List Char → List (List Char)
  | [] => [[]]
  | c :: cs =>
    match splitCommas cs with
    | [] => [[c]]
    | p :: ps => if c == ',' then [] :: p :: ps else (c :: p) :: ps

/-- The operand pieces of a line; a line with nothing after its mnemonic has none. -/
def operandPieces (cs : List Char) : List (List Char) := if cs.isEmpty then [] else splitCommas cs

/-- The pieces `(v0`, `w0)`, `(v1`, `w1)`, ... of an `LDFIELDS` line as pairs (R107). -/
def readPairs : List (List Char) → Option (List (Word × Word))
  | [] => some []
  | p :: q :: ps =>
    match trimBlanks p, (trimBlanks q).reverse with
    | '(' :: v, ')' :: w =>
      (readWord v).bind fun v => (readWord w.reverse).bind fun w => (readPairs ps).map ((v, w) :: ·)
    | _, _ => none
  | [_] => none

/-- A `#v` operand's word. -/
def opaWord : AsmOperand → Option Word
  | .opa v => some v
  | .num _ | .dash => none

/-- A pseudo-instruction's line (R107): `some none` when the mnemonic is none of the five, `none` when its operands
are not as R107 writes them. -/
def readPseudo (m : String) (ps : List (List Char)) : Option (Option Pseudo) :=
  match m with
  | "LDVALS" => (ps.mapM fun p => (readOperand p).bind opaWord).map fun vs => some (.ldvals vs)
  | "LDWIDS" => (ps.mapM readWord).map fun ws => some (.ldwids ws)
  | "LDFIELDS" => (readPairs ps).map fun fs => some (.ldfields fs)
  | "RDVALS" => match ps with | [p] => (readNumber p).map fun k => some (.rdvals k) | _ => none
  | "TICKN" => match ps with | [p] => (readNumber p).map fun k => some (.tickn k) | _ => none
  | _ => some none

/-- The commands a line stands for, in order (R106, R107); `none` when it is no line of the language. A line that is
empty but for a comment stands for no command. -/
def assembleLine (line : List Char) : Option (List HostEvent) :=
  let body := trimBlanks (withoutComment line)
  let m := body.takeWhile fun c => !c.isWhitespace
  let ps := operandPieces (trimBlanks (body.drop m.length))
  if body.isEmpty then some []
  else
    (readPseudo (String.ofList m) ps).bind fun
      | some p => if pseudoOk p then some (expand p) else none
      | none => (ps.mapM readOperand).bind fun ops =>
        (assemble (String.ofList m) ops).map fun (i, v) => [commandOf i v]

end Sys2Proof.Machine
end

