-- ==== Sys2Proof/Safety.lean ====
section
/-! DEFINITION. The terms claims about BFCORE are stated in: what a response and a fault leave, the sums of the packing
core, the invariant of reachable states, a run and its observation, the evaluation relation of agents. -/

namespace Sys2Proof.Safety

open Sys2Proof.Machine

/-! ## Responses and faults -/

/-- The response `(ST, RV, RES)` with `pulse` 0. -/
def plainResponse (st : Status) (rv : Bool) (res : Word) : Response := ⟨st, rv, res, false⟩

/-- `s` with the response `(OK, rv, res)` presented and nothing else changed (30_encoding.md R97). -/
def answered (s : State) (rv : Bool) (res : Word) : State := { s with rsp := some (plainResponse .ok rv res) }

/-- `s` after a fault with cause `c` (60_exceptions.md R361, R362). -/
def faulted (s : State) (c : Status) : State :=
  { s with flt := true, cause := if s.flt then s.cause else statusCode c, rsp := some (plainResponse c false 0) }

/-- `s` after a result failure with code `c` (60_exceptions.md R366). -/
def failed (s : State) (c : Status) : State := { s with rsp := some (plainResponse c false 0) }

/-- The statuses that are faults (60_exceptions.md R360). -/
def isFault : Status → Bool
  | .ok | .lenMismatch | .exceeds64Limit => false
  | .invalidBitWidth | .capacityExceeded | .illegalCommand | .indexRange | .fieldRange | .agentInput => true

/-- The statuses a command may respond with (60_exceptions.md R360, the column "raised by"). -/
def allowedStatus : Instr → List Status
  | .pack32 _ _ | .unpack32 _ _ | .pack64 _ _ | .unpack64 _ _ | .packf _ | .unpackf _ =>
    [.ok, .invalidBitWidth, .capacityExceeded, .illegalCommand]
  | .extract _ _ => [.ok, .invalidBitWidth, .fieldRange]
  | .packi _ _ => [.ok, .lenMismatch, .exceeds64Limit, .invalidBitWidth, .illegalCommand]
  | .unpacki _ => [.ok, .exceeds64Limit, .invalidBitWidth, .illegalCommand]
  | .fvwr _ | .fvrd _ | .fwwr _ | .fwrd _ | .cget _ | .cset _ | .cupd _ _ => [.ok, .indexRange]
  | .arun _ _ => [.ok, .indexRange, .agentInput]
  | .cfgrd _ => [.ok, .illegalCommand]
  | .nop | .tick | .tcur | .trst | .spush | .sget _ | .sgetall | .sclr | .rwr | .rrd | .rfull | .rempty | .rsize
  | .stat => [.ok]

/-- The commands that change no state (20_memory.md R79), `ARUN` apart. -/
def isPureCommand : Instr → Bool
  | .nop | .fvrd _ | .fwrd _ | .cget _ | .tcur | .sget _ | .rfull | .rempty | .rsize | .stat | .cfgrd _
  | .pack32 _ _ | .pack64 _ _ | .packf _ | .packi _ _ | .extract _ _ => true
  | .unpack32 _ _ | .unpack64 _ _ | .unpackf _ | .unpacki _ | .fvwr _ | .fwwr _ | .cset _ | .cupd _ _ | .tick | .trst
  | .spush | .sgetall | .sclr | .rwr | .rrd | .arun _ _ => false

/-- The commands that have no operand word and ignore `OPA` (20_memory.md R77, 30_encoding.md R92). -/
def ignoresOpa : Instr → Bool
  | .nop | .pack32 _ _ | .pack64 _ _ | .packf _ | .packi _ _ | .fvrd _ | .fwrd _ | .cget _ | .cupd _ _ | .tick | .tcur
  | .trst | .sget _ | .sgetall | .sclr | .rrd | .rfull | .rempty | .rsize | .stat | .cfgrd _ => true
  | .arun iv _ => iv == 0
  | .unpack32 _ _ | .unpack64 _ _ | .unpackf _ | .extract _ _ | .unpacki _ | .fvwr _ | .fwwr _ | .cset _ | .spush
  | .rwr => false

/-- `OPA[DATA_W-1:0]`, zero-extended (20_memory.md R75). -/
def storedOpa (s : State) : Word := BitVec.ofNat 64 (s.opa.toNat % 2 ^ s.cfg.dataW)

/-- The response to an optional value: `(OK, o.valid, o.data)`, data 0 when absent (30_encoding.md R97). -/
def optionalResponse (o : Val) : Response := plainResponse .ok o.isSome (o.getD 0)

/-! ## Encodings -/

/-- Which of `IV`, `A`, `B` and `C` the command with opcode `op` uses (30_encoding.md R95, R99); none for a reserved
opcode (R100). -/
def fieldsUsed (op : Nat) : Option (Bool × Bool × Bool × Bool) :=
  if op ∈ [0x00, 0x18, 0x19, 0x1A, 0x20, 0x22, 0x23, 0x28, 0x29, 0x2A, 0x2B, 0x2C, 0x3C] then
    some (false, false, false, false)
  else if op ∈ [0x01, 0x02, 0x03, 0x04, 0x07, 0x08] then some (false, true, true, false)
  else if op ∈ [0x05, 0x06] then some (false, true, false, false)
  else if op = 0x09 then some (false, false, true, false)
  else if op ∈ [0x0A, 0x0B, 0x0C, 0x0D, 0x10, 0x11, 0x21, 0x3D] then some (false, false, false, true)
  else if op = 0x12 then some (false, false, true, true)
  else if op = 0x30 then some (true, false, false, true)
  else none

/-- A field the command does not use is nonzero (30_encoding.md R101). -/
def UnusedNonzero (f : Fields) : Prop :=
  ∃ iv a b c, fieldsUsed f.op.toNat = some (iv, a, b, c) ∧
    (iv = false ∧ f.iv ≠ 0 ∨ a = false ∧ f.a ≠ 0 ∨ b = false ∧ f.b ≠ 0 ∨ c = false ∧ f.c ≠ 0)

/-- A count above 64 or a `CFGRD` selector above 8 (30_encoding.md R102). -/
def BeyondLimit (f : Fields) : Prop :=
  (f.op.toNat ∈ [0x01, 0x02, 0x03, 0x04, 0x05, 0x06, 0x08] ∧ 64 < f.a.toNat) ∨
  (f.op.toNat ∈ [0x08, 0x09] ∧ 64 < f.b.toNat) ∨ (f.op = 0x3D ∧ 8 < f.c.toNat)

/-- Every word with opcode `op` decodes to the instruction `i` of its fields when `legal` holds of them; when it does
not, a step that takes the word raises `ILLEGAL_COMMAND` and does nothing else (30_encoding.md R101, R102). -/
def DecodesExactly (op : BitVec 6) (legal : Fields → Prop) (i : Fields → Instr) : Prop :=
  ∀ f : Fields, f.op = op → (legal f → decode (wordOf f) = .ok (i f)) ∧
    (¬ legal f → ∀ (s : State) (v : Word) (rest : List HostEvent), configOk s.cfg = true →
      s.inputs = .command (wordOf f) v :: rest →
      step s = .next (faulted { s with inputs := rest, opa := v } .illegalCommand))

/-! ## The packing core as sums -/

/-- `off(i)`, the sum of the widths below `i` (20_memory.md R72). -/
def off (w : Nat → Nat) (i : Nat) : Nat := ∑ j ∈ Finset.range i, w j

/-- `PackCore` of `n` values as the sum of 40_codec.md R130. -/
def packSum (v w : Nat → Nat) (n : Nat) : Nat := ∑ i ∈ Finset.range n, (v i &&& (2 ^ w i - 1)) <<< off w i

/-- Field `i` of `UnpackCore` (40_codec.md R130). -/
def fieldAt (p : Nat) (w : Nat → Nat) (i : Nat) : Nat := (p >>> off w i) &&& (2 ^ w i - 1)

/-- `FV[i]` as a number. -/
def fvAt (s : State) (i : Nat) : Nat := (s.fv.getD i 0).toNat

/-- `FW[i]` as a number. -/
def fwAt (s : State) (i : Nat) : Nat := (s.fw.getD i 0).toNat

/-- `t` has `FV[0..n-1]` equal to `r`, the entries from `n` on as in `s`, and everything else as in `u`. -/
def FvIs (s u t : State) (n : Nat) (r : Nat → Nat) : Prop :=
  t = { u with fv := t.fv } ∧ (∀ i, i < n → i < 64 → fvAt t i = r i) ∧ ∀ i, n ≤ i → fvAt t i = fvAt s i

/-! ## The invariant -/

/-- A word that holds a `DATA_W`-bit value (00_scope.md R8). -/
def Fits (c : Config) (v : Word) : Prop := v.toNat < 2 ^ c.dataW

/-- A value that is `absent` or holds `DATA_W` bits (45_agents.md R290). -/
def FitsVal (c : Config) (x : Val) : Prop := ∀ v, x = some v → Fits c v

/-- The cell file has `NCELLS` entries of `DATA_W` bits (10_state.md R35). -/
def CellsOk (s : State) : Prop := s.cell.length = s.cfg.ncells ∧ ∀ v ∈ s.cell, Fits s.cfg v

/-- The counter is below the interval (10_state.md R37). -/
def ClockOk (s : State) : Prop := s.tick.toNat < s.cfg.clkInterval

/-- The shift register has `SR_STAGES` slots of `DATA_W` bits (10_state.md R40). -/
def ShiftOk (s : State) : Prop := s.sr.length = s.cfg.srStages ∧ ∀ x ∈ s.sr, FitsVal s.cfg x

/-- Slot `j` is one of the `SIZE` slots from the read index on (10_state.md R45 (b)). -/
def Occupied (s : State) (j : Nat) : Prop := ∃ k, k < s.size.toNat ∧ j = (s.ridx.toNat + k) % s.cfg.rbCap

/-- The ring buffer's invariants (10_state.md R42 to R45): `RB_CAP` slots of `DATA_W` bits, indices and occupancy in
range, and R45 (a), (b) and (c). -/
structure RingOk (s : State) : Prop where
  slots : s.rb.length = s.cfg.rbCap
  fits : ∀ x ∈ s.rb, FitsVal s.cfg x
  ridx_lt : s.ridx.toNat < s.cfg.rbCap
  widx_lt : s.widx.toNat < s.cfg.rbCap
  size_le : s.size.toNat ≤ s.cfg.rbCap
  widx_eq : s.widx.toNat = (s.ridx.toNat + s.size.toNat) % s.cfg.rbCap
  present : ∀ j, j < s.cfg.rbCap → ((s.rb.getD j none).isSome ↔ Occupied s j)
  full : s.size.toNat = s.cfg.rbCap → s.widx = s.ridx

/-- The fault record: no cause before a fault, a fault's code after one (60_exceptions.md R362). -/
def RecordOk (s : State) : Prop :=
  (s.flt = false → s.cause = 0) ∧ (s.flt = true → ∃ c, isFault c = true ∧ s.cause = statusCode c)

/-- The invariant of the states a well-formed BFCORE can reach. -/
structure StateOk (s : State) : Prop where
  config : configOk s.cfg = true
  cells : CellsOk s
  clock : ClockOk s
  shift : ShiftOk s
  ring : RingOk s
  record : RecordOk s

/-- The ring buffer's contents, oldest first: the `SIZE` values from the read index on (44_ring_buffer.md R266). -/
def ringContents (s : State) : List Val :=
  (List.range s.size.toNat).map fun k => s.rb.getD ((s.ridx.toNat + k) % s.cfg.rbCap) none

/-! ## Runs -/

/-- What one input of the host gives: the responses presented and the state after it. -/
def issue (s : State) (e : HostEvent) : Option (List Response × State) :=
  match step { s with inputs := [e] } with
  | .next t => some (t.rsp.toList, t)
  | .fault _ => none
  | .refused _ => none

/-- The observation of a run (70_reset_and_hazards.md R412): the responses in order and the final state. -/
def runEvents : List HostEvent → State → Option (List Response × State)
  | [], s => some ([], s)
  | e :: es, s =>
    match issue s e with
    | some (rs, t) => (runEvents es t).map fun (qs, u) => (rs ++ qs, u)
    | none => none

/-- A program: commands with their operand words, in issue order (70_reset_and_hazards.md R412). -/
def program (cs : List (CmdWord × Word)) : List HostEvent := cs.map fun (c, v) => .command c v

/-- `k` times the same command. -/
def repeated (k : Nat) (i : Instr) : List HostEvent := List.replicate k (commandOf i 0)

/-- One command for each value, which is its operand word. -/
def forEachValue (i : Instr) (vs : List Word) : List HostEvent := vs.map (commandOf i)

/-- The last `n` elements of a list. -/
def lastN {α : Type} (n : Nat) (xs : List α) : List α := xs.drop (xs.length - n)

/-! ## Agents -/

/-- The entries a descriptor names (45_agents.md R292). -/
def namedBy : AgentDesc → List Nat
  | .ident | .pureFn _ | .cell _ => []
  | .transform a _ | .filter a _ | .feedback a _ => [a]
  | .pipe a b | .par a b _ => [a, b]
  | .shift a ss => a :: ss

/-- Entry `e` of the table reaches cell `ci` through a `CELL` primitive (45_agents.md R304). -/
inductive ReachesCell (c : Config) : Nat → Nat → Prop where
  | here {e ci : Nat} : c.ag[e]? = some (.cell ci) → ReachesCell c e ci
  | through {e a ci : Nat} {d : AgentDesc} :
    c.ag[e]? = some d → a ∈ namedBy d → ReachesCell c a ci → ReachesCell c e ci

/-- Entry `p` is the left-nested chain of `PIPE` entries of `a` and the stages `ss` (45_agents.md R308). -/
def IsPipeChain (c : Config) : Nat → List Nat → Nat → Prop
  | a, [], p => p = a
  | a, j :: js, p => ∃ q, c.ag[q]? = some (.pipe a j) ∧ IsPipeChain c q js p

/-- The two sub-agents of every `PAR` reach disjoint cells (45_agents.md R305). -/
def ParsDisjoint (c : Config) : Prop :=
  ∀ e a b k : Nat, c.ag[e]? = some (.par a b k) → ∀ ci, ReachesCell c a ci → ¬ ReachesCell c b ci

/-- What an evaluation gives, the draws left aside: an output and a cell file, or the fault `AGENT_INPUT`. -/
inductive AgentOutcome where
  | ok (y : Val) (cells : List Word)
  | fault
  deriving DecidableEq, Repr

/-- The draws left aside; an evaluation that gives nothing has no outcome. -/
def outcomeOf : EvalResult → Option AgentOutcome
  | .ok y t => some (.ok y t.cells)
  | .fault _ => some .fault
  | .illFormed => none

mutual
/-- `Eval(AG[e], x, σ) ⇒ r`, the evaluation relation of 45_agents.md §3: the rules R293 to R303, both orders of a
`PAR` admitted (R305), the first fault ending the evaluation (R306). -/
inductive Eval (c : Config) : Nat → Val → List Word → AgentOutcome → Prop where
  | ident {e x σ} : c.ag[e]? = some .ident → Eval c e x σ (.ok x σ)
  | pureFn {e k x σ} : c.ag[e]? = some (.pureFn k) → Eval c e x σ (.ok (applyMap c k x) σ)
  | cellAbsent {e ci σ} : c.ag[e]? = some (.cell ci) → Eval c e none σ .fault
  | cellUnnamed {e ci v σ} : c.ag[e]? = some (.cell ci) → c.nuf ≤ v.toNat → Eval c e (some v) σ .fault
  | cell {e ci v σ} : c.ag[e]? = some (.cell ci) → v.toNat < c.nuf →
    Eval c e (some v) σ (.ok (some (applyUpdate c v.toNat (σ.getD ci 0)))
      (σ.set ci (applyUpdate c v.toNat (σ.getD ci 0))))
  | transform {e a k x σ y σ1} : c.ag[e]? = some (.transform a k) → Eval c a x σ (.ok y σ1) →
    Eval c e x σ (.ok (applyMap c k y) σ1)
  | filter {e a p x σ y σ1} : c.ag[e]? = some (.filter a p) → Eval c a x σ (.ok y σ1) →
    Eval c e x σ (.ok (if applyPred c p y then y else none) σ1)
  | pipe {e a b x σ y σ1 r} : c.ag[e]? = some (.pipe a b) → Eval c a x σ (.ok y σ1) → Eval c b y σ1 r → Eval c e x σ r
  | parAB {e a b k x σ ya yb σ1 σ2} : c.ag[e]? = some (.par a b k) → Eval c a x σ (.ok ya σ1) →
    Eval c b x σ1 (.ok yb σ2) → Eval c e x σ (.ok (applyCombine c k ya yb) σ2)
  | parBA {e a b k x σ ya yb σ1 σ2} : c.ag[e]? = some (.par a b k) → Eval c b x σ (.ok yb σ1) →
    Eval c a x σ1 (.ok ya σ2) → Eval c e x σ (.ok (applyCombine c k ya yb) σ2)
  | parABFault {e a b k x σ ya σ1} : c.ag[e]? = some (.par a b k) → Eval c a x σ (.ok ya σ1) → Eval c b x σ1 .fault →
    Eval c e x σ .fault
  | parBAFault {e a b k x σ yb σ1} : c.ag[e]? = some (.par a b k) → Eval c b x σ (.ok yb σ1) → Eval c a x σ1 .fault →
    Eval c e x σ .fault
  | parSecondFault {e a b k x σ} : c.ag[e]? = some (.par a b k) → Eval c b x σ .fault → Eval c e x σ .fault
  | shift {e a ss x σ y σ1 r} : c.ag[e]? = some (.shift a ss) → Eval c a x σ (.ok y σ1) → EvalStages c ss y σ1 r →
    Eval c e x σ r
  | feedback {e a n x σ r} : c.ag[e]? = some (.feedback a n) → EvalStages c (List.replicate n a) x σ r → Eval c e x σ r
  /-- The first sub-agent of any combinator but `FEEDBACK` (there it is a stage) runs on the input, and its fault ends
  the evaluation; under `PAR` this is the order AB. -/
  | firstFault {e a d x σ} : c.ag[e]? = some d → (namedBy d).head? = some a → (∀ b n, d ≠ .feedback b n) →
    Eval c a x σ .fault → Eval c e x σ .fault
/-- The stages of a `SHIFT`, or the rounds of a `FEEDBACK`, one after the other (R301, R302). -/
inductive EvalStages (c : Config) : List Nat → Val → List Word → AgentOutcome → Prop where
  | done {y σ} : EvalStages c [] y σ (.ok y σ)
  | stage {j js y σ y1 σ1 r} : Eval c j y σ (.ok y1 σ1) → EvalStages c js y1 σ1 r → EvalStages c (j :: js) y σ r
  | stageFault {j js y σ} : Eval c j y σ .fault → EvalStages c (j :: js) y σ .fault
end

end Sys2Proof.Safety
end

