-- ==== Sys2Proof/Certificates/Slice0/Obligations.lean ====
section
/-! DEFINITION. The statements about BFCORE, one `Prop` each; OBLIGATIONS.json lists them with the rules they
formalise. -/

open Sys2Proof Sys2Proof.Machine Sys2Proof.Safety

/-! ## Reset, the port, the configuration -/

/-- R400, R401: `rst` gives every state element its reset value, discards a command in flight without a response, and
leaves the configuration (R402) and what the host presents later. -/
def Obligations.BlockResetGivesResetValues : Prop :=
  ∀ (s : State) (p : Option (CmdWord × Word)) (rest : List HostEvent), configOk s.cfg = true →
    s.inputs = .rst p :: rest →
    ∃ t, step s = .next t ∧ t.cfg = s.cfg ∧ t.inputs = rest ∧ t.rsp = none ∧
      (∀ i, i < 64 → fvAt t i = 0 ∧ fwAt t i = 0) ∧ t.cell = s.cfg.cellInit ∧ t.tick = 0 ∧
      t.sr.length = s.cfg.srStages ∧ (∀ x ∈ t.sr, x = none) ∧ t.rb.length = s.cfg.rbCap ∧ (∀ x ∈ t.rb, x = none) ∧
      t.ridx = 0 ∧ t.widx = 0 ∧ t.size = 0 ∧ t.flt = false ∧ t.cause = 0

/-- The reset state of every well-formed configuration, and the model's own `State.reset` (configuration RC by log
entry 2), meet the invariant. -/
def Obligations.ResetStateMeetsInvariant : Prop :=
  (∀ c, configOk c = true → StateOk (State.resetOf c)) ∧ StateOk State.reset

/-- R45 with the invariants of R37, R35, R40, R362: every step keeps them, from every state that meets them. -/
def Obligations.StepKeepsInvariant : Prop :=
  ∀ s t, StateOk s → step s = .next t → StateOk t

/-- R402, R9: no command, reset or idle moment changes the configuration, whatever the state. -/
def Obligations.ConfigurationNeverChanges : Prop :=
  (∀ s t, step s = .next t → t.cfg = s.cfg) ∧ ∀ i s t, exec i s = .next t → t.cfg = s.cfg

/-- R10, R296, R8: which configurations are well formed; a state with another one is refused, not run, and a state with
a well-formed one is never refused. -/
def Obligations.IllFormedConfigurationRefused : Prop :=
  (∀ c, configOk c = true ↔ (1 ≤ c.dataW ∧ c.dataW ≤ 64) ∧ (1 ≤ c.ncells ∧ c.ncells ≤ 1024) ∧
    (∀ v ∈ c.cellInit, Fits c v) ∧ (1 ≤ c.clkInterval ∧ c.clkInterval ≤ 2 ^ 32 - 1) ∧
    (1 ≤ c.srStages ∧ c.srStages ≤ 64) ∧ (1 ≤ c.rbCap ∧ c.rbCap ≤ 65535) ∧ c.nuf ≤ 256 ∧ c.nagents ≤ 1024 ∧
    c.maxShift ≤ 64 ∧ ∀ (e : Nat) (d : AgentDesc), c.ag[e]? = some d →
      (∀ j ∈ namedBy d, j < e) ∧ (∀ k, d = .pureFn k ∨ (∃ a, d = .transform a k) → k < c.af.length) ∧
      (∀ a p, d = .filter a p → p < c.ap.length) ∧ (∀ a b k, d = .par a b k → k < c.ac.length) ∧
      (∀ ci, d = .cell ci → ci < c.ncells) ∧ (∀ a ss, d = .shift a ss → ss.length ≤ c.maxShift) ∧
      ∀ a n, d = .feedback a n → n ≤ 65535) ∧
  ∀ s, (configOk s.cfg = false ↔ step s = .refused .illFormedConfig) ∧
    (configOk s.cfg = true → ∃ t, step s = .next t)

/-- R380, R84: with nothing presented the machine is idle with all state held. That the last response is then no longer
presented is the model's choice (log entry 6), on the ground of R90. -/
def Obligations.IdleHoldsState : Prop :=
  ∀ s, configOk s.cfg = true → s.inputs = [] → step s = .next { s with rsp := none }

/-! ## Decoding -/

/-- Decoding the encoding of any well-formed instruction gives it back, every operand at every admitted value. -/
def Obligations.DecodeOfEncode : Prop :=
  ∀ i, WellFormed i = true → decode (encode i) = .ok i

/-- R100: a reserved opcode raises `ILLEGAL_COMMAND` and has no other effect. -/
def Obligations.ReservedOpcodesFault : Prop :=
  ∀ (s : State) (w : CmdWord) (v : Word) (rest : List HostEvent), configOk s.cfg = true →
    s.inputs = .command w v :: rest →
    (w >>> 26).toNat ∈ [0x0E, 0x0F, 0x13, 0x14, 0x15, 0x16, 0x17, 0x1B, 0x1C, 0x1D, 0x1E, 0x1F, 0x24, 0x25, 0x26, 0x27,
      0x2D, 0x2E, 0x2F, 0x31, 0x32, 0x33, 0x34, 0x35, 0x36, 0x37, 0x38, 0x39, 0x3A, 0x3B, 0x3E, 0x3F] →
    step s = .next (faulted { s with inputs := rest, opa := v } .illegalCommand)

/-- R104: every word, with any operand, either decodes to exactly one well-formed instruction, whose encoding it is,
and runs it, or raises `ILLEGAL_COMMAND`. -/
def Obligations.DecodeIsTotal : Prop :=
  ∀ (s : State) (w : CmdWord) (v : Word) (rest : List HostEvent), configOk s.cfg = true →
    s.inputs = .command w v :: rest →
    (∃! i, WellFormed i = true ∧ encode i = w ∧ step s = exec i { s with inputs := rest, opa := v }) ∨
    ((¬ ∃ i, WellFormed i = true ∧ encode i = w) ∧
      step s = .next (faulted { s with inputs := rest, opa := v } .illegalCommand))

/-- R101: a word with a nonzero field that its command's format does not use, `IV = 1` outside `ARUN` among them,
raises `ILLEGAL_COMMAND` and has no other effect. -/
def Obligations.UnusedFieldsFault : Prop :=
  ∀ (s : State) (f : Fields) (v : Word) (rest : List HostEvent), configOk s.cfg = true →
    s.inputs = .command (wordOf f) v :: rest →
    (UnusedNonzero f → step s = .next (faulted { s with inputs := rest, opa := v } .illegalCommand)) ∧
    (f.iv = 1 → f.op ≠ 0x30 → step s = .next (faulted { s with inputs := rest, opa := v } .illegalCommand))

/-- R102: a count above 64 or a `CFGRD` selector above 8 raises `ILLEGAL_COMMAND`, and no other field value is illegal
at decode. -/
def Obligations.FieldLimitsFault : Prop :=
  ∀ (s : State) (f : Fields) (v : Word) (rest : List HostEvent), configOk s.cfg = true →
    s.inputs = .command (wordOf f) v :: rest →
    (BeyondLimit f → step s = .next (faulted { s with inputs := rest, opa := v } .illegalCommand)) ∧
    ((fieldsUsed f.op.toNat).isSome = true → ¬ UnusedNonzero f → ¬ BeyondLimit f →
      ∃ i, decode (wordOf f) = .ok i ∧ step s = exec i { s with inputs := rest, opa := v })

/-- A step whose next input is the word of a well-formed instruction runs that instruction on the state with the input
taken and the operand word sampled. -/
def Obligations.StepRunsDecodedInstruction : Prop :=
  ∀ (s : State) (w : CmdWord) (v : Word) (rest : List HostEvent) (i : Instr), configOk s.cfg = true →
    s.inputs = .command w v :: rest → decode w = .ok i →
    step s = exec i { s with inputs := rest, opa := v }

/-- One word of each family, as 95_test_vectors.md writes it, decodes to its instruction. -/
def Obligations.SampleWordsDecode : Prop :=
  decode 0x04102000 = .ok (.pack32 4 8) ∧ decode 0x21010400 = .error .illegalValue ∧
  decode 0x1DFFFC00 = .ok (.extract 127 255) ∧ decode 0x340003FF = .ok (.fwrd 1023) ∧
  decode 0x48000801 = .ok (.cupd 1 2) ∧ decode 0x68000000 = .ok .trst ∧ decode 0x840003FF = .ok (.sget 1023) ∧
  decode 0xA4000000 = .ok .rrd ∧ decode 0xC2000009 = .ok (.arun 1 9) ∧ decode 0xF4000008 = .ok (.cfgrd 8) ∧
  decode 0x42000000 = .error .reservedField ∧ decode 0x38000000 = .error .reservedOpcode

/-! ## Faults and responses -/

/-- R361, R366: a command that responds with a fault changes nothing but the fault record, and one that responds with a
result failure changes nothing; the model's draw counter apart. -/
def Obligations.FailingCommandsChangeNothing : Prop :=
  ∀ i s t r, exec i s = .next t → t.rsp = some r →
    (isFault r.st = true → t = { faulted s r.st with draw := t.draw }) ∧
    (r.st = .lenMismatch ∨ r.st = .exceeds64Limit → t = failed s r.st ∧
      ((∃ nv nw, i = .packi nv nw) ∨ ∃ nw, i = .unpacki nw))

/-- R362: a step, other than a reset, whose response is a fault with cause `c` sets `FLT`, and `CAUSE` to `c` if `FLT`
was 0; any other changes neither. So after any run of commands from a state with no fault recorded, `FLT = 1` exactly
when some command faulted, and `CAUSE` names the first such fault. -/
def Obligations.RunRecordsFirstFault : Prop :=
  (∀ s t, step s = .next t → (∀ p rest, s.inputs ≠ .rst p :: rest) →
    (∀ r, t.rsp = some r → isFault r.st = true →
      t.flt = true ∧ t.cause = if s.flt then s.cause else statusCode r.st) ∧
    ((∀ r, t.rsp = some r → isFault r.st = false) → t.flt = s.flt ∧ t.cause = s.cause)) ∧
  ∀ (cs : List (CmdWord × Word)) (s : State), configOk s.cfg = true → s.flt = false → s.cause = 0 →
    ∃ rs t, runEvents (program cs) s = some (rs, t) ∧ rs.length = cs.length ∧
      (t.flt = true ↔ ∃ r ∈ rs, isFault r.st = true) ∧
      t.cause = ((rs.find? fun r => isFault r.st).elim 0 fun r => statusCode r.st)

/-- R360, R97: every command responds, with no status that the table does not list for it; a faulting or failing
command responds `RV = 0`, and `RES = 0` whenever `RV = 0`. -/
def Obligations.OnlyListedResponses : Prop :=
  ∀ i s t, exec i s = .next t → ∃ r, t.rsp = some r ∧ r.st ∈ allowedStatus i ∧
    (r.st ≠ .ok → r.rv = false) ∧ (r.rv = false → r.res = 0)

/-- R98: the pulse line is 1 with the response of a `TICK` that wrapped the counter to 0, and 0 with every other. -/
def Obligations.PulseExactlyOnWrap : Prop :=
  ∀ s t, step s = .next t → (pulseOut t = true ↔
    t.tick = 0 ∧ ∃ w v rest, s.inputs = .command w v :: rest ∧ decode w = .ok .tick)

/-- R411, R297: under a well-formed configuration every instruction completes with a response, from every state. -/
def Obligations.EveryCommandCompletes : Prop :=
  ∀ i s, configOk s.cfg = true → ∃ t r, exec i s = .next t ∧ t.rsp = some r

/-- R79: the commands of the read-only class change no state: each one completes with an `OK` response or a result
failure and nothing else, or else faults; and repeating it gives the same response. -/
def Obligations.ReadOnlyCommandsChangeNothing : Prop :=
  ∀ i s, isPureCommand i = true → ∃ t r, exec i s = .next t ∧ t.rsp = some r ∧
    (isFault r.st = false → t = { s with rsp := some r } ∧ exec i t = .next t)

/-- R92: a command that has no operand ignores `OPA`; its value never affects the command. -/
def Obligations.UnusedOperandIgnored : Prop :=
  ∀ i s t v, ignoresOpa i = true → exec i s = .next t → exec i { s with opa := v } = .next { t with opa := v }

/-! ## The codec -/

/-- R135 (`PACK32`): its encoding, its two faults in their order, and the packed word of R130 in the low 32 bits. -/
def Obligations.Pack32Result : Prop :=
  DecodesExactly 0x01 (fun f => f.iv = 0 ∧ f.c = 0 ∧ f.a.toNat ≤ 64) (fun f => .pack32 f.a f.b) ∧
  ∀ (n : BitVec 7) (w : BitVec 8) (s : State), n.toNat ≤ 64 →
    (w.toNat < 1 ∨ 8 < w.toNat → exec (.pack32 n w) s = .next (faulted s .invalidBitWidth)) ∧
    (1 ≤ w.toNat → w.toNat ≤ 8 → 32 < n.toNat * w.toNat →
      exec (.pack32 n w) s = .next (faulted s .capacityExceeded)) ∧
    (1 ≤ w.toNat → w.toNat ≤ 8 → n.toNat * w.toNat ≤ 32 →
      packSum (fvAt s) (fun _ => w.toNat) n.toNat < 2 ^ 32 ∧
      exec (.pack32 n w) s = .next (answered s true (BitVec.ofNat 64 (packSum (fvAt s) (fun _ => w.toNat) n.toNat))))

/-- R137 (`UNPACK32`): as `PACK32`, and on success field `i` of `OPA[31:0]` goes to `FV[i]` for `i < n`, the other
entries and all other state unchanged. -/
def Obligations.Unpack32Result : Prop :=
  DecodesExactly 0x02 (fun f => f.iv = 0 ∧ f.c = 0 ∧ f.a.toNat ≤ 64) (fun f => .unpack32 f.a f.b) ∧
  ∀ (n : BitVec 7) (w : BitVec 8) (s : State), n.toNat ≤ 64 →
    (w.toNat < 1 ∨ 8 < w.toNat → exec (.unpack32 n w) s = .next (faulted s .invalidBitWidth)) ∧
    (1 ≤ w.toNat → w.toNat ≤ 8 → 32 < n.toNat * w.toNat →
      exec (.unpack32 n w) s = .next (faulted s .capacityExceeded)) ∧
    (1 ≤ w.toNat → w.toNat ≤ 8 → n.toNat * w.toNat ≤ 32 → ∃ t, exec (.unpack32 n w) s = .next t ∧
      FvIs s (answered s false 0) t n.toNat (fieldAt (s.opa.toNat % 2 ^ 32) fun _ => w.toNat))

/-- R139 (`PACK64`): its encoding, its two faults in their order, and the packed word of R130. -/
def Obligations.Pack64Result : Prop :=
  DecodesExactly 0x03 (fun f => f.iv = 0 ∧ f.c = 0 ∧ f.a.toNat ≤ 64) (fun f => .pack64 f.a f.b) ∧
  ∀ (n : BitVec 7) (w : BitVec 8) (s : State), n.toNat ≤ 64 →
    (w.toNat < 1 → exec (.pack64 n w) s = .next (faulted s .invalidBitWidth)) ∧
    (1 ≤ w.toNat → 64 < n.toNat * w.toNat → exec (.pack64 n w) s = .next (faulted s .capacityExceeded)) ∧
    (1 ≤ w.toNat → n.toNat * w.toNat ≤ 64 →
      packSum (fvAt s) (fun _ => w.toNat) n.toNat < 2 ^ 64 ∧
      exec (.pack64 n w) s = .next (answered s true (BitVec.ofNat 64 (packSum (fvAt s) (fun _ => w.toNat) n.toNat))))

/-- R141 (`UNPACK64`): as `PACK64`, and on success field `i` of `OPA` goes to `FV[i]` for `i < n`, the other entries
and all other state unchanged. -/
def Obligations.Unpack64Result : Prop :=
  DecodesExactly 0x04 (fun f => f.iv = 0 ∧ f.c = 0 ∧ f.a.toNat ≤ 64) (fun f => .unpack64 f.a f.b) ∧
  ∀ (n : BitVec 7) (w : BitVec 8) (s : State), n.toNat ≤ 64 →
    (w.toNat < 1 → exec (.unpack64 n w) s = .next (faulted s .invalidBitWidth)) ∧
    (1 ≤ w.toNat → 64 < n.toNat * w.toNat → exec (.unpack64 n w) s = .next (faulted s .capacityExceeded)) ∧
    (1 ≤ w.toNat → n.toNat * w.toNat ≤ 64 → ∃ t, exec (.unpack64 n w) s = .next t ∧
      FvIs s (answered s false 0) t n.toNat (fieldAt s.opa.toNat fun _ => w.toNat))

/-- R143 (`PACKF`): a zero width faults first, then a width sum above 64; else the packed word of R130. -/
def Obligations.PackfResult : Prop :=
  DecodesExactly 0x05 (fun f => f.iv = 0 ∧ f.b = 0 ∧ f.c = 0 ∧ f.a.toNat ≤ 64) (fun f => .packf f.a) ∧
  ∀ (n : BitVec 7) (s : State), n.toNat ≤ 64 →
    ((∃ i, i < n.toNat ∧ fwAt s i = 0) → exec (.packf n) s = .next (faulted s .invalidBitWidth)) ∧
    ((∀ i, i < n.toNat → fwAt s i ≠ 0) → 64 < off (fwAt s) n.toNat →
      exec (.packf n) s = .next (faulted s .capacityExceeded)) ∧
    ((∀ i, i < n.toNat → fwAt s i ≠ 0) → off (fwAt s) n.toNat ≤ 64 →
      packSum (fvAt s) (fwAt s) n.toNat < 2 ^ 64 ∧
      exec (.packf n) s = .next (answered s true (BitVec.ofNat 64 (packSum (fvAt s) (fwAt s) n.toNat))))

/-- R144 (`UNPACKF`): as `PACKF`, and on success field `i` of `OPA` goes to `FV[i]` for `i < n`. -/
def Obligations.UnpackfResult : Prop :=
  DecodesExactly 0x06 (fun f => f.iv = 0 ∧ f.b = 0 ∧ f.c = 0 ∧ f.a.toNat ≤ 64) (fun f => .unpackf f.a) ∧
  ∀ (n : BitVec 7) (s : State), n.toNat ≤ 64 →
    ((∃ i, i < n.toNat ∧ fwAt s i = 0) → exec (.unpackf n) s = .next (faulted s .invalidBitWidth)) ∧
    ((∀ i, i < n.toNat → fwAt s i ≠ 0) → 64 < off (fwAt s) n.toNat →
      exec (.unpackf n) s = .next (faulted s .capacityExceeded)) ∧
    ((∀ i, i < n.toNat → fwAt s i ≠ 0) → off (fwAt s) n.toNat ≤ 64 → ∃ t, exec (.unpackf n) s = .next t ∧
      FvIs s (answered s false 0) t n.toNat (fieldAt s.opa.toNat (fwAt s)))

/-- R145 (`EXTRACT`): its two faults in their order, and the unsigned value of the `w` bits from bit `off` on. -/
def Obligations.ExtractResult : Prop :=
  DecodesExactly 0x07 (fun f => f.iv = 0 ∧ f.c = 0) (fun f => .extract f.a f.b) ∧
  ∀ (o : BitVec 7) (w : BitVec 8) (s : State),
    (w.toNat = 0 → exec (.extract o w) s = .next (faulted s .invalidBitWidth)) ∧
    (w.toNat ≠ 0 → 64 < o.toNat + w.toNat → exec (.extract o w) s = .next (faulted s .fieldRange)) ∧
    (w.toNat ≠ 0 → o.toNat + w.toNat ≤ 64 →
      exec (.extract o w) s = .next (answered s true ((s.opa.extractLsb' o.toNat w.toNat).setWidth 64)))

/-- R147 (`PACKI`): length mismatch fails first, then a width sum above 64, then a zero width faults; else the packed
word of R130. -/
def Obligations.PackiResult : Prop :=
  DecodesExactly 0x08 (fun f => f.iv = 0 ∧ f.c = 0 ∧ f.a.toNat ≤ 64 ∧ f.b.toNat ≤ 64) (fun f => .packi f.a f.b) ∧
  ∀ (nv : BitVec 7) (nw : BitVec 8) (s : State), nv.toNat ≤ 64 → nw.toNat ≤ 64 →
    (nv.toNat ≠ nw.toNat → exec (.packi nv nw) s = .next (failed s .lenMismatch)) ∧
    (nv.toNat = nw.toNat → 64 < off (fwAt s) nw.toNat → exec (.packi nv nw) s = .next (failed s .exceeds64Limit)) ∧
    (nv.toNat = nw.toNat → off (fwAt s) nw.toNat ≤ 64 → (∃ i, i < nw.toNat ∧ fwAt s i = 0) →
      exec (.packi nv nw) s = .next (faulted s .invalidBitWidth)) ∧
    (nv.toNat = nw.toNat → off (fwAt s) nw.toNat ≤ 64 → (∀ i, i < nw.toNat → fwAt s i ≠ 0) →
      exec (.packi nv nw) s = .next (answered s true (BitVec.ofNat 64 (packSum (fvAt s) (fwAt s) nw.toNat))))

/-- R148 (`UNPACKI`): a width sum above 64 fails first, then a zero width faults; else field `i` of `OPA` goes to
`FV[i]` for `i < nw`. -/
def Obligations.UnpackiResult : Prop :=
  DecodesExactly 0x09 (fun f => f.iv = 0 ∧ f.a = 0 ∧ f.c = 0 ∧ f.b.toNat ≤ 64) (fun f => .unpacki f.b) ∧
  ∀ (nw : BitVec 8) (s : State), nw.toNat ≤ 64 →
    (64 < off (fwAt s) nw.toNat → exec (.unpacki nw) s = .next (failed s .exceeds64Limit)) ∧
    (off (fwAt s) nw.toNat ≤ 64 → (∃ i, i < nw.toNat ∧ fwAt s i = 0) →
      exec (.unpacki nw) s = .next (faulted s .invalidBitWidth)) ∧
    (off (fwAt s) nw.toNat ≤ 64 → (∀ i, i < nw.toNat → fwAt s i ≠ 0) → ∃ t, exec (.unpacki nw) s = .next t ∧
      FvIs s (answered s false 0) t nw.toNat (fieldAt s.opa.toNat (fwAt s)))

/-- R150, R152 (`FVWR`, `FWWR`): an index of 64 or more faults; else exactly the named entry takes `OPA`, or its low 8
bits, and every other entry of both files and all other state is unchanged. -/
def Obligations.StagingWriteResult : Prop :=
  DecodesExactly 0x0A (fun f => f.iv = 0 ∧ f.a = 0 ∧ f.b = 0) (fun f => .fvwr f.c) ∧
  DecodesExactly 0x0C (fun f => f.iv = 0 ∧ f.a = 0 ∧ f.b = 0) (fun f => .fwwr f.c) ∧
  ∀ (idx : BitVec 10) (s : State),
    (64 ≤ idx.toNat → exec (.fvwr idx) s = .next (faulted s .indexRange) ∧
      exec (.fwwr idx) s = .next (faulted s .indexRange)) ∧
    (idx.toNat < 64 →
      (∃ t, exec (.fvwr idx) s = .next t ∧ t = { answered s false 0 with fv := t.fv } ∧
        ∀ i, fvAt t i = if i = idx.toNat then s.opa.toNat else fvAt s i) ∧
      (∃ t, exec (.fwwr idx) s = .next t ∧ t = { answered s false 0 with fw := t.fw } ∧
        ∀ i, fwAt t i = if i = idx.toNat then s.opa.toNat % 256 else fwAt s i))

/-- R151, R153 (`FVRD`, `FWRD`): an index of 64 or more faults; else the entry is returned zero-extended and nothing
changes. -/
def Obligations.StagingReadResult : Prop :=
  DecodesExactly 0x0B (fun f => f.iv = 0 ∧ f.a = 0 ∧ f.b = 0) (fun f => .fvrd f.c) ∧
  DecodesExactly 0x0D (fun f => f.iv = 0 ∧ f.a = 0 ∧ f.b = 0) (fun f => .fwrd f.c) ∧
  ∀ (idx : BitVec 10) (s : State),
    (64 ≤ idx.toNat → exec (.fvrd idx) s = .next (faulted s .indexRange) ∧
      exec (.fwrd idx) s = .next (faulted s .indexRange)) ∧
    (idx.toNat < 64 → exec (.fvrd idx) s = .next (answered s true (BitVec.ofNat 64 (fvAt s idx.toNat))) ∧
      exec (.fwrd idx) s = .next (answered s true (BitVec.ofNat 64 (fwAt s idx.toNat))))

/-- R146: when `UNPACKF n, #p` succeeds, `EXTRACT off(i), FW[i], #p` succeeds and returns what it writes to `FV[i]`. -/
def Obligations.ExtractAgreesWithUnpackf : Prop :=
  ∀ (n : BitVec 7) (s t : State), n.toNat ≤ 64 → exec (.unpackf n) s = .next t →
    t.rsp = some (plainResponse .ok false 0) → ∀ (i : Nat) (o : BitVec 7) (w : BitVec 8), i < n.toNat →
      o.toNat = off (fwAt s) i → w.toNat = fwAt s i →
      exec (.extract o w) s = .next (answered s true (BitVec.ofNat 64 (fvAt t i)))

/-- R154: one layout for both policies, packing and unpacking. -/
def Obligations.OneLayoutForBothPolicies : Prop :=
  ∀ (nv : BitVec 7) (nw : BitVec 8) (s : State), nv.toNat = nw.toNat → nv.toNat ≤ 64 →
    (∀ x, exec (.packf nv) s = .next (answered s true x) ↔ exec (.packi nv nw) s = .next (answered s true x)) ∧
    (exec (.packf nv) s = .next (faulted s .capacityExceeded) →
      exec (.packi nv nw) s = .next (failed s .exceeds64Limit)) ∧
    (∀ t, t.rsp = some (plainResponse .ok false 0) →
      (exec (.unpackf nv) s = .next t ↔ exec (.unpacki nw) s = .next t)) ∧
    (exec (.unpackf nv) s = .next (faulted s .capacityExceeded) →
      exec (.unpacki nw) s = .next (failed s .exceeds64Limit))

/-- R157: a successful pack followed by the matching unpack of its result, which responds `(OK, 0, 0)`, leaves in
`FV[i]` the old value cut to its width, for the 32-bit, the 64-bit and the two variable-width pairs; R155 and R156 are
the case of values that fit. -/
def Obligations.PackThenUnpackKeepsLowBits : Prop :=
  ∀ (n : BitVec 7) (w : BitVec 8) (s t : State) (p : Word), n.toNat ≤ 64 → t = answered s true p →
    (exec (.pack32 n w) s = .next t → ∃ u, exec (.unpack32 n w) { t with opa := p } = .next u ∧
      u.rsp = some (plainResponse .ok false 0) ∧
      ∀ i, i < n.toNat → fvAt u i = fvAt s i % 2 ^ w.toNat ∧ (fvAt s i < 2 ^ w.toNat → fvAt u i = fvAt s i)) ∧
    (exec (.pack64 n w) s = .next t → ∃ u, exec (.unpack64 n w) { t with opa := p } = .next u ∧
      u.rsp = some (plainResponse .ok false 0) ∧
      ∀ i, i < n.toNat → fvAt u i = fvAt s i % 2 ^ w.toNat ∧ (fvAt s i < 2 ^ w.toNat → fvAt u i = fvAt s i)) ∧
    (exec (.packf n) s = .next t → ∃ u, exec (.unpackf n) { t with opa := p } = .next u ∧
      u.rsp = some (plainResponse .ok false 0) ∧
      ∀ i, i < n.toNat → fvAt u i = fvAt s i % 2 ^ fwAt s i ∧ (fvAt s i < 2 ^ fwAt s i → fvAt u i = fvAt s i)) ∧
    (w.toNat = n.toNat → exec (.packi n w) s = .next t → ∃ u, exec (.unpacki w) { t with opa := p } = .next u ∧
      u.rsp = some (plainResponse .ok false 0) ∧
      ∀ i, i < n.toNat → fvAt u i = fvAt s i % 2 ^ fwAt s i ∧ (fvAt s i < 2 ^ fwAt s i → fvAt u i = fvAt s i))

/-- R72: in a successful variable-width or uniform pack, bit `j` of field `i` stands at bit `off(i) + j` of the word. -/
def Obligations.FieldsAreLeastSignificantFirst : Prop :=
  ∀ (n : BitVec 7) (w : BitVec 8) (s : State) (x : Word), n.toNat ≤ 64 →
    (exec (.packf n) s = .next (answered s true x) → ∀ i j, i < n.toNat → j < fwAt s i →
      x.getLsbD (off (fwAt s) i + j) = (s.fv.getD i 0).getLsbD j) ∧
    (exec (.pack32 n w) s = .next (answered s true x) ∨ exec (.pack64 n w) s = .next (answered s true x) →
      ∀ i j, i < n.toNat → j < w.toNat → x.getLsbD (i * w.toNat + j) = (s.fv.getD i 0).getLsbD j)

/-! ## Memory cells -/

/-- R201, R202 (`CGET`, `CSET`): an index of `NCELLS` or more faults; else exactly the named cell is read or written. -/
def Obligations.CellReadWriteResult : Prop :=
  DecodesExactly 0x10 (fun f => f.iv = 0 ∧ f.a = 0 ∧ f.b = 0) (fun f => .cget f.c) ∧
  DecodesExactly 0x11 (fun f => f.iv = 0 ∧ f.a = 0 ∧ f.b = 0) (fun f => .cset f.c) ∧
  ∀ (c : BitVec 10) (s : State), CellsOk s →
    (s.cfg.ncells ≤ c.toNat → exec (.cget c) s = .next (faulted s .indexRange) ∧
      exec (.cset c) s = .next (faulted s .indexRange)) ∧
    (c.toNat < s.cfg.ncells → exec (.cget c) s = .next (answered s true (s.cell.getD c.toNat 0)) ∧
      ∃ t, exec (.cset c) s = .next t ∧ t = { answered s false 0 with cell := t.cell } ∧
        ∀ j, t.cell[j]? = if j = c.toNat then some (storedOpa s) else s.cell[j]?)

/-- R203 (`CUPD`): the cell bound faults first, then the function bound; else the cell takes `UF[k]` of its value, a
`DATA_W`-bit value, and the new value is returned. `applyUpdate` is the model's `UF[k]` (log entries 3, 10). -/
def Obligations.CellUpdateResult : Prop :=
  DecodesExactly 0x12 (fun f => f.iv = 0 ∧ f.a = 0) (fun f => .cupd f.c f.b) ∧
  ∀ (c : BitVec 10) (k : BitVec 8) (s : State), CellsOk s →
    (s.cfg.ncells ≤ c.toNat ∨ s.cfg.nuf ≤ k.toNat → exec (.cupd c k) s = .next (faulted s .indexRange)) ∧
    (c.toNat < s.cfg.ncells → k.toNat < s.cfg.nuf → ∃ t new,
      new = applyUpdate s.cfg k.toNat (s.cell.getD c.toNat 0) ∧ Fits s.cfg new ∧
      exec (.cupd c k) s = .next t ∧ t = { answered s true new with cell := t.cell } ∧
      ∀ j, t.cell[j]? = if j = c.toNat then some new else s.cell[j]?)

/-- R206: what is set is what is got; `CUPD` is `CSET` of the function of what `CGET` gives; and no command that names
cell `c` changes another cell. -/
def Obligations.CellLaws : Prop :=
  ∀ (c : BitVec 10) (k : BitVec 8) (s : State), CellsOk s → c.toNat < s.cfg.ncells → k.toNat < s.cfg.nuf →
    (∃ t u, exec (.cset c) s = .next t ∧ exec (.cget c) t = .next u ∧
      u.rsp = some (plainResponse .ok true (storedOpa s))) ∧
    (∃ t g u x, exec (.cget c) s = .next g ∧ g.rsp = some (plainResponse .ok true x) ∧
      exec (.cset c) { g with opa := applyUpdate s.cfg k.toNat x } = .next u ∧
      exec (.cupd c k) s = .next t ∧ t.cell = u.cell) ∧
    ∀ i t, i = .cget c ∨ i = .cset c ∨ i = .cupd c k → exec i s = .next t → ∀ j, j ≠ c.toNat → t.cell[j]? = s.cell[j]?

/-! ## The clock -/

/-- R220 (`TICK`): the counter goes up by one modulo `CLK_INTERVAL`, and the response and the pulse line say whether it
wrapped; nothing else changes. -/
def Obligations.TickResult : Prop :=
  DecodesExactly 0x18 (fun f => f.iv = 0 ∧ f.a = 0 ∧ f.b = 0 ∧ f.c = 0) (fun _ => .tick) ∧
  ∀ s, configOk s.cfg = true → ∃ t p, exec .tick s = .next t ∧
    t.tick.toNat = (s.tick.toNat + 1) % s.cfg.clkInterval ∧ (p = true ↔ t.tick = 0) ∧
    t = { s with tick := t.tick, rsp := some ⟨.ok, true, if p then 1 else 0, p⟩ }

/-- R221, R222 (`TCUR`, `TRST`): the counter is returned and nothing changes; the counter is cleared, with no pulse and
no other change. -/
def Obligations.ClockReadAndClear : Prop :=
  DecodesExactly 0x19 (fun f => f.iv = 0 ∧ f.a = 0 ∧ f.b = 0 ∧ f.c = 0) (fun _ => .tcur) ∧
  DecodesExactly 0x1A (fun f => f.iv = 0 ∧ f.a = 0 ∧ f.b = 0 ∧ f.c = 0) (fun _ => .trst) ∧
  ∀ s, exec .tcur s = .next (answered s true (s.tick.setWidth 64)) ∧
    exec .trst s = .next { answered s false 0 with tick := 0 }

/-- R223, R224: from a cleared counter, `k` `TICK` commands pulse on exactly the multiples of `CLK_INTERVAL`, and
`TCUR` then returns `k mod CLK_INTERVAL`. -/
def Obligations.PulsePeriod : Prop :=
  ∀ (k : Nat) (s : State), configOk s.cfg = true → s.tick = 0 →
    ∃ rs t, runEvents (repeated k .tick) s = some (rs, t) ∧ rs.length = k ∧
      exec .tcur t = .next (answered t true (BitVec.ofNat 64 (k % s.cfg.clkInterval))) ∧
      ∀ m r, rs[m]? = some r → (r.pulse = true ↔ s.cfg.clkInterval ∣ m + 1) ∧
        r = ⟨.ok, true, if r.pulse then 1 else 0, r.pulse⟩

/-- R225: only `TICK`, `TRST` and block reset change the counter. -/
def Obligations.ClockIsIndependent : Prop :=
  ∀ s t, step s = .next t → t.tick ≠ s.tick →
    (∃ p rest, s.inputs = .rst p :: rest) ∨
    ∃ w v rest, s.inputs = .command w v :: rest ∧ (decode w = .ok .tick ∨ decode w = .ok .trst)

/-! ## The shift register -/

/-- R240, R241, R243 (`SPUSH`, `SGET`, `SCLR`): a push shifts every slot and returns the old tail; a get returns a slot
or `absent`; a clear empties every slot. -/
def Obligations.ShiftRegisterResult : Prop :=
  DecodesExactly 0x20 (fun f => f.iv = 0 ∧ f.a = 0 ∧ f.b = 0 ∧ f.c = 0) (fun _ => .spush) ∧
  DecodesExactly 0x21 (fun f => f.iv = 0 ∧ f.a = 0 ∧ f.b = 0) (fun f => .sget f.c) ∧
  DecodesExactly 0x23 (fun f => f.iv = 0 ∧ f.a = 0 ∧ f.b = 0 ∧ f.c = 0) (fun _ => .sclr) ∧
  ∀ s, configOk s.cfg = true → ShiftOk s →
    (∃ t, exec .spush s = .next t ∧ t.sr.length = s.cfg.srStages ∧
      t = { s with sr := t.sr, rsp := some (optionalResponse (s.sr.getD (s.cfg.srStages - 1) none)) } ∧
      t.sr[0]? = some (some (storedOpa s)) ∧
      ∀ j, 0 < j → j < s.cfg.srStages → t.sr[j]? = s.sr[j - 1]?) ∧
    (∀ st : BitVec 10, exec (.sget st) s = .next { s with rsp := some (optionalResponse
      (if st.toNat < s.cfg.srStages then s.sr.getD st.toNat none else none)) }) ∧
    (∃ t, exec .sclr s = .next t ∧ t = { answered s false 0 with sr := t.sr } ∧
      t.sr.length = s.cfg.srStages ∧ ∀ x ∈ t.sr, x = none)

/-- R242 (`SGETALL`): slot `j`'s data, 0 when absent, goes to `FV[j]`, its presence to bit `j` of `RES`; the other `FV`
entries and all other state are unchanged. -/
def Obligations.ShiftGetAllResult : Prop :=
  DecodesExactly 0x22 (fun f => f.iv = 0 ∧ f.a = 0 ∧ f.b = 0 ∧ f.c = 0) (fun _ => .sgetall) ∧
  ∀ s, configOk s.cfg = true → ShiftOk s → ∃ t m, exec .sgetall s = .next t ∧
    FvIs s (answered s true m) t s.cfg.srStages (fun j => ((s.sr.getD j none).getD 0).toNat) ∧
    ∀ j, m.getLsbD j = (s.sr.getD j none).isSome

/-- R244, R245: from an empty register, `k` pushes leave the most recent values first, and push number
`SR_STAGES + j` returns the `j`-th value pushed, the earlier ones `absent`. -/
def Obligations.MostRecentFirst : Prop :=
  ∀ (vs : List Word) (s : State), configOk s.cfg = true → ShiftOk s → (∀ x ∈ s.sr, x = none) →
    ∃ rs t, runEvents (forEachValue .spush vs) s = some (rs, t) ∧
      (∀ j, j < s.cfg.srStages →
        t.sr.getD j none = if j < vs.length then (vs[vs.length - 1 - j]?).map (truncData s.cfg) else none) ∧
      rs.length = vs.length ∧
      ∀ m, m < vs.length → rs[m]? = some (optionalResponse
        (if m < s.cfg.srStages then none else (vs[m - s.cfg.srStages]?).map (truncData s.cfg)))

/-! ## The ring buffer -/

/-- R260 (`RWR`): the value goes to the slot at the write index, the write index advances modulo `RB_CAP`, and either
the occupancy grows or, when the buffer was full, the read index advances; nothing else changes. -/
def Obligations.RingWriteResult : Prop :=
  DecodesExactly 0x28 (fun f => f.iv = 0 ∧ f.a = 0 ∧ f.b = 0 ∧ f.c = 0) (fun _ => .rwr) ∧
  ∀ s, configOk s.cfg = true → RingOk s → ∃ t, exec .rwr s = .next t ∧
    t = { answered s false 0 with rb := t.rb, widx := t.widx, ridx := t.ridx, size := t.size } ∧
    (∀ j, t.rb[j]? = if j = s.widx.toNat then some (some (storedOpa s)) else s.rb[j]?) ∧
    t.widx.toNat = (s.widx.toNat + 1) % s.cfg.rbCap ∧
    (s.size.toNat ≠ s.cfg.rbCap → t.size.toNat = s.size.toNat + 1 ∧ t.ridx = s.ridx) ∧
    (s.size.toNat = s.cfg.rbCap → t.size = s.size ∧ t.ridx.toNat = (s.ridx.toNat + 1) % s.cfg.rbCap)

/-- R262 (`RRD`): an empty buffer gives `absent` and changes nothing; else the slot at the read index, which is
present, is returned and cleared, the read index advances and the occupancy falls; nothing else changes. -/
def Obligations.RingReadResult : Prop :=
  DecodesExactly 0x29 (fun f => f.iv = 0 ∧ f.a = 0 ∧ f.b = 0 ∧ f.c = 0) (fun _ => .rrd) ∧
  ∀ s, configOk s.cfg = true → RingOk s →
    (s.size = 0 → exec .rrd s = .next (answered s false 0)) ∧
    (s.size ≠ 0 → ∃ t v, exec .rrd s = .next t ∧ s.rb[s.ridx.toNat]? = some (some v) ∧
      t = { answered s true v with rb := t.rb, ridx := t.ridx, size := t.size } ∧
      (∀ j, t.rb[j]? = if j = s.ridx.toNat then some none else s.rb[j]?) ∧
      t.ridx.toNat = (s.ridx.toNat + 1) % s.cfg.rbCap ∧ t.size.toNat = s.size.toNat - 1)

/-- R263, R264, R265 (`RFULL`, `REMPTY`, `RSIZE`): pure accessors over the occupancy. -/
def Obligations.RingAccessorsResult : Prop :=
  DecodesExactly 0x2A (fun f => f.iv = 0 ∧ f.a = 0 ∧ f.b = 0 ∧ f.c = 0) (fun _ => .rfull) ∧
  DecodesExactly 0x2B (fun f => f.iv = 0 ∧ f.a = 0 ∧ f.b = 0 ∧ f.c = 0) (fun _ => .rempty) ∧
  DecodesExactly 0x2C (fun f => f.iv = 0 ∧ f.a = 0 ∧ f.b = 0 ∧ f.c = 0) (fun _ => .rsize) ∧
  ∀ s, exec .rfull s = .next (answered s true (if s.size.toNat = s.cfg.rbCap then 1 else 0)) ∧
    exec .rempty s = .next (answered s true (if s.size = 0 then 1 else 0)) ∧
    exec .rsize s = .next (answered s true (s.size.setWidth 64))

/-- R266: from an empty buffer, after writes of `vs`, reads return the last `min(k, RB_CAP)` values oldest first, and
then the buffer is empty. -/
def Obligations.FifoWithOverwrite : Prop :=
  ∀ (vs : List Word) (s : State), configOk s.cfg = true → RingOk s → s.size = 0 →
    ∃ ws rs t u, runEvents (forEachValue .rwr vs) s = some (ws, t) ∧
      ringContents t = (lastN s.cfg.rbCap vs).map (fun v => some (truncData s.cfg v)) ∧
      runEvents (repeated (min vs.length s.cfg.rbCap) .rrd) t = some (rs, u) ∧
      rs = (lastN s.cfg.rbCap vs).map (fun v => plainResponse .ok true (truncData s.cfg v)) ∧ u.size = 0

/-! ## Agents -/

/-- R309, R310 (`ARUN`): an agent index of `NAGENTS` or more faults; else the command ends with a result the
evaluation relation admits: on an output the cells are those after the evaluation and the output is the response; on
a fault the cells are those before. Nothing else changes but the model's draw counter. -/
def Obligations.ArunResult : Prop :=
  DecodesExactly 0x30 (fun f => f.a = 0 ∧ f.b = 0) (fun f => .arun f.iv f.c) ∧
  ∀ (iv : BitVec 1) (a : BitVec 10) (s : State), configOk s.cfg = true →
    (s.cfg.nagents ≤ a.toNat → exec (.arun iv a) s = .next (faulted s .indexRange)) ∧
    (a.toNat < s.cfg.nagents → ∃ r t,
      Eval s.cfg a.toNat (if iv = 1 then some (storedOpa s) else none) s.cell r ∧ exec (.arun iv a) s = .next t ∧
      match r with
      | .ok y σ => t = { s with cell := σ, rsp := some (optionalResponse y), draw := t.draw }
      | .fault => t = { faulted s .agentInput with draw := t.draw })

/-- R303, R305: every result the relation admits is the result under some sequence of draws. Draws as a sequence read
by a counter are the model's choice (log entry 8). -/
def Obligations.EveryAdmittedResultHasDraws : Prop :=
  ∀ (c : Config) (e : Nat) (x : Val) (σ : List Word) (r : AgentOutcome), configOk c = true → Eval c e x σ r →
    ∀ d, ∃ order, outcomeOf (evalAgent c order e x ⟨σ, d⟩) = some r

/-- R293, R205, R206 (c): `ARUN` of a `CELL c` entry with an input that names a function leaves and returns what
`CUPD` does; an absent input or one that names no function faults with `AGENT_INPUT`. -/
def Obligations.ArunOfCellAgent : Prop :=
  ∀ (iv : BitVec 1) (a : BitVec 10) (ci : Nat) (s : State), configOk s.cfg = true → CellsOk s →
    s.cfg.ag[a.toNat]? = some (.cell ci) →
    (iv = 0 ∨ s.cfg.nuf ≤ (storedOpa s).toNat → exec (.arun iv a) s = .next (faulted s .agentInput)) ∧
    (iv = 1 → (storedOpa s).toNat < s.cfg.nuf → ∃ t new,
      new = applyUpdate s.cfg (storedOpa s).toNat (s.cell.getD ci 0) ∧ exec (.arun iv a) s = .next t ∧
      t = { answered s true new with cell := t.cell } ∧
      ∀ j, t.cell[j]? = if j = ci then some new else s.cell[j]?)

/-- R304: an agent whose entry reaches no `CELL` primitive always gives an output and leaves the cells unchanged. -/
def Obligations.ArunWithoutCells : Prop :=
  ∀ (iv : BitVec 1) (a : BitVec 10) (s : State), configOk s.cfg = true → a.toNat < s.cfg.nagents →
    (∀ ci, ¬ ReachesCell s.cfg a.toNat ci) →
    ∃ t y, exec (.arun iv a) s = .next t ∧ t = { s with rsp := some (optionalResponse y), draw := t.draw }

/-- R304, R206: an evaluation changes only cells its entry reaches, and keeps the size of the cell file. -/
def Obligations.AgentChangesOnlyReachedCells : Prop :=
  ∀ (c : Config) (order : Nat → ParOrder) (e : Nat) (x y : Val) (t t' : Thread),
    evalAgent c order e x t = .ok y t' →
    t'.cells.length = t.cells.length ∧ ∀ j, ¬ ReachesCell c e j → t'.cells[j]? = t.cells[j]?

/-- R305: when the two sub-agents of every `PAR` reach disjoint cells, the draws do not matter. -/
def Obligations.DisjointParOrderIsImmaterial : Prop :=
  ∀ (c : Config) (o1 o2 : Nat → ParOrder) (e : Nat) (x : Val) (σ : List Word) (d1 d2 : Nat), configOk c = true →
    ParsDisjoint c → outcomeOf (evalAgent c o1 e x ⟨σ, d1⟩) = outcomeOf (evalAgent c o2 e x ⟨σ, d2⟩)

/-- R293 to R295 and R298 to R303 under given draws: each descriptor's evaluation from those of the entries it names;
`SHIFT` is a left fold over its stages, `FEEDBACK` an iteration. The draw `order t.draw` of a `PAR`, its count by
`afterDraw` and the draw a fault carries are the model's choice (log entry 8). -/
def Obligations.CombinatorEquations : Prop :=
  ∀ (c : Config) (order : Nat → ParOrder) (e a b k p n ci : Nat) (ss : List Nat) (x : Val) (t : Thread),
    configOk c = true →
    (c.ag[e]? = some (.cell ci) → evalAgent c order e x t = match x with
      | none => .fault t.draw
      | some v => if v.toNat < c.nuf then
          .ok (some (applyUpdate c v.toNat (t.cells.getD ci 0)))
            { t with cells := t.cells.set ci (applyUpdate c v.toNat (t.cells.getD ci 0)) }
        else .fault t.draw) ∧
    (c.ag[e]? = some .ident → evalAgent c order e x t = .ok x t) ∧
    (c.ag[e]? = some (.pureFn k) → evalAgent c order e x t = .ok (applyMap c k x) t) ∧
    (c.ag[e]? = some (.transform a k) → evalAgent c order e x t =
      andThen (evalAgent c order a x t) fun y u => .ok (applyMap c k y) u) ∧
    (c.ag[e]? = some (.filter a p) → evalAgent c order e x t =
      andThen (evalAgent c order a x t) fun y u => if applyPred c p y then .ok y u else .ok none u) ∧
    (c.ag[e]? = some (.pipe a b) → evalAgent c order e x t =
      andThen (evalAgent c order a x t) (evalAgent c order b)) ∧
    (c.ag[e]? = some (.shift a ss) → evalAgent c order e x t =
      ss.foldl (fun r j => andThen r (evalAgent c order j)) (evalAgent c order a x t)) ∧
    (c.ag[e]? = some (.feedback a n) → evalAgent c order e x t =
      (fun r => andThen r (evalAgent c order a))^[n] (.ok x t)) ∧
    (c.ag[e]? = some (.par a b k) → order t.draw = .ab → evalAgent c order e x t =
      andThen (evalAgent c order a x (afterDraw t)) fun ya u =>
        andThen (evalAgent c order b x u) fun yb w => .ok (applyCombine c k ya yb) w) ∧
    (c.ag[e]? = some (.par a b k) → order t.draw = .ba → evalAgent c order e x t =
      andThen (evalAgent c order b x (afterDraw t)) fun yb u =>
        andThen (evalAgent c order a x u) fun ya w => .ok (applyCombine c k ya yb) w)

/-- R308: `PIPE` is associative and `ID` is its identity, in the results admitted; and `SHIFT` admits what the
left-nested `PIPE` chain of its agents admits. -/
def Obligations.PipelineAlgebra : Prop :=
  ∀ (c : Config) (a b d p q r s i l m h : Nat) (ss : List Nat) (x : Val) (σ : List Word) (o : AgentOutcome),
    (c.ag[p]? = some (.pipe a b) → c.ag[q]? = some (.pipe p d) → c.ag[r]? = some (.pipe b d) →
      c.ag[s]? = some (.pipe a r) → (Eval c q x σ o ↔ Eval c s x σ o)) ∧
    (c.ag[i]? = some .ident → c.ag[l]? = some (.pipe i a) → (Eval c l x σ o ↔ Eval c a x σ o)) ∧
    (c.ag[i]? = some .ident → c.ag[m]? = some (.pipe a i) → (Eval c m x σ o ↔ Eval c a x σ o)) ∧
    (c.ag[h]? = some (.shift a ss) → IsPipeChain c a ss p → (Eval c h x σ o ↔ Eval c p x σ o))

/-! ## System commands -/

/-- R340, R341, R342 (`NOP`, `STAT`, `CFGRD`): nothing; the STATUS register, `FLT` at bit 0, `CAUSE` at bits 7:4, 0
elsewhere; each configuration value by its selector. No side effect. -/
def Obligations.SystemCommandsResult : Prop :=
  DecodesExactly 0x00 (fun f => f.iv = 0 ∧ f.a = 0 ∧ f.b = 0 ∧ f.c = 0) (fun _ => .nop) ∧
  DecodesExactly 0x3C (fun f => f.iv = 0 ∧ f.a = 0 ∧ f.b = 0 ∧ f.c = 0) (fun _ => .stat) ∧
  DecodesExactly 0x3D (fun f => f.iv = 0 ∧ f.a = 0 ∧ f.b = 0 ∧ f.c.toNat ≤ 8) (fun f => .cfgrd f.c) ∧
  ∀ s, exec .nop s = .next (answered s false 0) ∧
    (∃ v, exec .stat s = .next (answered s true v) ∧ v.getLsbD 0 = s.flt ∧
      ∀ j, 0 < j → v.getLsbD j = (decide (4 ≤ j ∧ j < 8) && s.cause.getLsbD (j - 4))) ∧
    ∀ sel : BitVec 10, sel.toNat ≤ 8 → exec (.cfgrd sel) s = .next (answered s true (BitVec.ofNat 64
      ([0x42464331, s.cfg.dataW, s.cfg.cellInit.length, s.cfg.clkInterval, s.cfg.srStages, s.cfg.rbCap,
        s.cfg.uf.length, s.cfg.ag.length, 64].getD sel.toNat 0)))

/-! ## Pseudo-instructions and staging -/

/-- R107 with R150 and R152: running the expansion of `LDFIELDS` responds `(OK, 0, 0)` to each command and leaves the
pairs in `FV` and `FW` from entry 0 on, the other entries and the rest of the state as they were; the model's port
fields apart. -/
def Obligations.LoadFieldsExpansion : Prop :=
  ∀ (fs : List (Word × Word)) (s : State), configOk s.cfg = true → fs.length ≤ 64 →
    ∃ rs t, runEvents (expand (.ldfields fs)) s = some (rs, t) ∧ rs.length = 2 * fs.length ∧
      (∀ r ∈ rs, r = plainResponse .ok false 0) ∧
      t = { s with fv := t.fv, fw := t.fw, inputs := t.inputs, opa := t.opa, rsp := t.rsp } ∧
      ∀ i, fvAt t i = ((fs[i]?).elim (fvAt s i) fun f => f.1.toNat) ∧
        fwAt t i = ((fs[i]?).elim (fwAt s i) fun f => f.2.toNat % 256)

/-- R405: with `FW` as reset leaves it, a variable-width command with a count of 1 or more raises
`INVALID_BIT_WIDTH`. -/
def Obligations.UnloadedWidthsFault : Prop :=
  ∀ (n : BitVec 7) (nw : BitVec 8) (s : State), s.fw = State.reset.fw → 1 ≤ n.toNat → n.toNat ≤ 64 →
    nw.toNat = n.toNat →
    exec (.packf n) s = .next (faulted s .invalidBitWidth) ∧ exec (.unpackf n) s = .next (faulted s .invalidBitWidth) ∧
    exec (.packi n nw) s = .next (faulted s .invalidBitWidth) ∧
    exec (.unpacki nw) s = .next (faulted s .invalidBitWidth)
end

