-- ==== Sys2Proof/Laws/Tables.lean ====
section
/-! SUPPORT. The configuration in the form proofs use it: the ranges of 00_scope.md R8 one by one, well-formed table
entries (45_agents.md R296), and values cut to `DATA_W` bits (20_memory.md R75). -/

namespace Sys2Proof.Machine

/-- The ranges of R8. -/
structure Ranges (c : Config) : Prop where
  dataW_pos : 1 ≤ c.dataW
  dataW_le : c.dataW ≤ 64
  ncells_pos : 1 ≤ c.ncells
  ncells_le : c.ncells ≤ 1024
  init_fits : ∀ v ∈ c.cellInit, v.toNat < 2 ^ c.dataW
  interval_pos : 1 ≤ c.clkInterval
  interval_lt : c.clkInterval < 2 ^ 32
  stages_pos : 1 ≤ c.srStages
  stages_le : c.srStages ≤ 64
  cap_pos : 1 ≤ c.rbCap
  cap_lt : c.rbCap < 2 ^ 16
  nuf_le : c.nuf ≤ 256
  nagents_le : c.nagents ≤ 1024
  maxShift_le : c.maxShift ≤ 64

theorem ranges_of_configOk {c : Config} (h : configOk c = true) : Ranges c := by
  simp only [configOk, paramsOk, paramChecks, Bool.and_eq_true] at h
  simp at h
  obtain ⟨⟨a1, a2, a3, a4, a5, a6, a7, a8, a9, a10, a11, a12, a13, a14⟩, -⟩ := h
  exact ⟨a1, a2, a3, a4, a5, a6, a7, a8, a9, a10, a11, a12, a13, a14⟩

theorem descOk_of_tableOkFrom (c : Config) (ds : List AgentDesc) : ∀ b, tableOkFrom c b ds = true →
    ∀ k d, ds[k]? = some d → descOk c (b + k) d = true := by
  induction ds with
  | nil => intro b _ k d h; simp at h
  | cons d0 ds ih =>
    intro b h k d hk
    simp only [tableOkFrom, Bool.and_eq_true] at h
    cases k with
    | zero => simp at hk; subst hk; exact h.1
    | succ k => rw [show b + (k + 1) = b + 1 + k by omega]; exact ih _ h.2 _ _ (by simpa using hk)

/-- Every entry of the table of a well-formed configuration is well formed (R296). -/
theorem descOk_of_configOk {c : Config} (h : configOk c = true) {e : Nat} {d : AgentDesc}
    (he : c.ag[e]? = some d) : descOk c e d = true := by
  simp only [configOk, Bool.and_eq_true] at h
  simpa using descOk_of_tableOkFrom c c.ag 0 h.2 e d he

@[simp] theorem truncData_toNat (c : Config) (v : Word) : (truncData c v).toNat = v.toNat % 2 ^ c.dataW := by
  rw [truncData, BitVec.toNat_ofNat, Nat.mod_eq_of_lt]
  exact (Nat.mod_le _ _).trans_lt v.isLt

@[simp] theorem truncData_truncData (c : Config) (v : Word) : truncData c (truncData c v) = truncData c v := by
  apply BitVec.eq_of_toNat_eq; simp

theorem truncData_fits (c : Config) (v : Word) : Safety.Fits c (truncData c v) := by
  rw [Safety.Fits, truncData_toNat]; exact Nat.mod_lt _ (Nat.two_pow_pos _)

theorem truncVal_fits (c : Config) (x : Val) : Safety.FitsVal c (truncVal c x) := by
  intro v h; cases x <;> simp [truncVal] at h; subst h; exact truncData_fits c _

/-- `UF[k]` gives a `DATA_W`-bit value when it is in the table (41_cells.md R204). -/
theorem applyUpdate_fits (c : Config) (k : Nat) (v : Word) (h : k < c.nuf) : Safety.Fits c (applyUpdate c k v) := by
  rw [applyUpdate, List.getElem?_eq_getElem h]; exact truncData_fits c _

/-- The machine's operand and the spec's `OPA[DATA_W-1:0]` are one (20_memory.md R75). -/
theorem opaData_eq (s : State) : opaData s = Safety.storedOpa s := rfl

theorem getElem?_set_of_lt {α : Type} (l : List α) (i j : Nat) (x : α) (h : i < l.length) :
    (l.set i x)[j]? = if j = i then some x else l[j]? := by
  by_cases hj : j = i
  · subst hj; simp [h]
  · rw [List.getElem?_set_ne (Ne.symm hj), if_neg hj]

end Sys2Proof.Machine
end

