-- ==== Sys2Proof/Laws/Agents.lean ====
section
/-! SUPPORT. Evaluating an agent: one equation per entry (45_agents.md R298 to R303), which later proofs cite in place
of the fuel, and one induction over every evaluation. -/

namespace Sys2Proof.Machine

open Sys2Proof.Safety

@[simp] theorem andThen_ok (y : Val) (t : Thread) (k : Val → Thread → EvalResult) : andThen (.ok y t) k = k y t := rfl
@[simp] theorem andThen_fault (d : Nat) (k : Val → Thread → EvalResult) : andThen (.fault d) k = .fault d := rfl
@[simp] theorem andThen_illFormed (k : Val → Thread → EvalResult) : andThen .illFormed k = .illFormed := rfl

theorem andThen_congr {r : EvalResult} {k k' : Val → Thread → EvalResult} (h : ∀ y t, k y t = k' y t) :
    andThen r k = andThen r k' := by
  cases r <;> simp [h]

/-- An `andThen` ends well exactly when both parts do. -/
theorem andThen_eq_ok {r : EvalResult} {k : Val → Thread → EvalResult} {y : Val} {t : Thread} :
    andThen r k = .ok y t ↔ ∃ y1 t1, r = .ok y1 t1 ∧ k y1 t1 = .ok y t := by
  cases r <;> simp

theorem runStages_congr {f g : Nat → Val → Thread → EvalResult} (js : List Nat) (h : ∀ j ∈ js, f j = g j)
    (y : Val) (t : Thread) : runStages f js y t = runStages g js y t := by
  induction js generalizing y t with
  | nil => rfl
  | cons j js ih =>
    simp only [runStages, h j (by simp)]
    exact andThen_congr fun y t => ih (fun i hi => h i (by simp [hi])) y t

/-- A descriptor reads only the evaluations of the entries it names. -/
theorem evalDesc_congr (c : Config) (order : Nat → ParOrder) {f g : Nat → Val → Thread → EvalResult} (d : AgentDesc)
    (h : ∀ j ∈ namedBy d, f j = g j) (x : Val) (t : Thread) : evalDesc c order f d x t = evalDesc c order g d x t := by
  cases d with
  | ident => rfl
  | pureFn k => rfl
  | cell ci => rfl
  | transform a k => simp only [evalDesc, h a (by simp [namedBy])]
  | filter a p => simp only [evalDesc, h a (by simp [namedBy])]
  | pipe a b => simp only [evalDesc, h a (by simp [namedBy]), h b (by simp [namedBy])]
  | par a b k => simp only [evalDesc, h a (by simp [namedBy]), h b (by simp [namedBy])]
  | shift a ss =>
    simp only [evalDesc, h a (by simp [namedBy])]
    exact andThen_congr fun y t => runStages_congr ss (fun j hj => h j (by simp [namedBy, hj])) y t
  | feedback a n => simp only [evalDesc, h a (by simp [namedBy])]

/-- A well-formed entry names only smaller entries (R296 (a)). -/
theorem lt_of_namedBy {c : Config} {e : Nat} {d : AgentDesc} (h : descOk c e d = true) :
    ∀ j ∈ namedBy d, j < e := by
  intro j hj
  cases d <;> simp [namedBy, descOk] at hj h
  all_goals
    first
    | omega
    | (rcases hj with rfl | hj
       · omega
       · exact h.1.2 j hj)

/-- Enough levels are as good as any other number that is enough (R297). -/
theorem evalFuel_eq (c : Config) (order : Nat → ParOrder) (e : Nat) : ∀ f g, e < f → e < g →
    evalFuel c order f e = evalFuel c order g e := by
  induction e using Nat.strong_induction_on with
  | _ e ih =>
    intro f g hf hg
    obtain ⟨f, rfl⟩ : ∃ k, f = k + 1 := ⟨f - 1, by omega⟩
    obtain ⟨g, rfl⟩ : ∃ k, g = k + 1 := ⟨g - 1, by omega⟩
    funext x t
    simp only [evalFuel]
    cases c.ag[e]? with
    | none => rfl
    | some d =>
      simp only
      by_cases hd : descOk c e d = true
      · rw [if_pos hd, if_pos hd]
        exact evalDesc_congr c order d (fun j hj => by
          have := lt_of_namedBy hd j hj
          exact ih j this f g (by omega) (by omega)) x t
      · rw [if_neg hd, if_neg hd]

/-- The evaluation of an entry is that of its descriptor over the evaluations of the entries it names. -/
theorem evalAgent_eq {c : Config} (h : configOk c = true) (order : Nat → ParOrder) {e : Nat} {d : AgentDesc}
    (he : c.ag[e]? = some d) (x : Val) (t : Thread) :
    evalAgent c order e x t = evalDesc c order (evalAgent c order) d x t := by
  have hd := descOk_of_configOk h he
  rw [evalAgent, evalFuel, he]
  simp only [hd, if_true]
  exact evalDesc_congr c order d (fun j hj => by
    have := lt_of_namedBy hd j hj
    exact evalFuel_eq c order j e (j + 1) this (by omega)) x t

/-- An entry outside the table has no evaluation. -/
theorem evalAgent_none {c : Config} (order : Nat → ParOrder) {e : Nat} (he : c.ag[e]? = none) (x : Val) (t : Thread) :
    evalAgent c order e x t = .illFormed := by
  rw [evalAgent, evalFuel, he]

/-- An entry whose evaluation ends well stands in the table and is well formed. -/
theorem evalAgent_ok_entry {c : Config} {order : Nat → ParOrder} {e : Nat} {x y : Val} {t t' : Thread}
    (h : evalAgent c order e x t = .ok y t') :
    ∃ d, c.ag[e]? = some d ∧ descOk c e d = true ∧ evalDesc c order (evalAgent c order) d x t = .ok y t' := by
  cases he : c.ag[e]? with
  | none => rw [evalAgent_none order he] at h; cases h
  | some d =>
    rw [evalAgent, evalFuel, he] at h
    simp only at h
    split at h
    · rename_i hd
      refine ⟨d, rfl, hd, ?_⟩
      rw [← h]
      exact evalDesc_congr c order d (fun j hj => by
        have := lt_of_namedBy hd j hj
        exact evalFuel_eq c order j (j + 1) e (by omega) this) x t
    · cases h

/-- The induction over evaluations that end well: a property of threads that draws and the cell writes of the entries
reached keep is kept by the whole evaluation. -/
theorem evalAgent_keeps (c : Config) (order : Nat → ParOrder) (P : Thread → Prop)
    (hdraw : ∀ t, P t → P (afterDraw t)) :
    ∀ e x t y t', (∀ ci k u, ReachesCell c e ci → k < c.nuf → P u →
        P { u with cells := u.cells.set ci (applyUpdate c k (readCell u.cells ci)) }) →
      evalAgent c order e x t = .ok y t' → P t → P t' := by
  intro e
  induction e using Nat.strong_induction_on with
  | _ e ih =>
    intro x t y t' hcell h hP
    obtain ⟨d, he, hd, h⟩ := evalAgent_ok_entry h
    have sub : ∀ j ∈ namedBy d, ∀ x t y t', evalAgent c order j x t = .ok y t' → P t → P t' := fun j hj x t y t' =>
      ih j (lt_of_namedBy hd j hj) x t y t' fun ci k u hr => hcell ci k u (.through he hj hr)
    cases d with
    | ident => cases h; exact hP
    | pureFn k => cases h; exact hP
    | cell ci =>
      cases x with
      | none => cases h
      | some v =>
        simp only [evalDesc, evalCell] at h
        split at h
        · cases h
        · cases h; exact hcell ci v.toNat t (.here he) (by omega) hP
    | transform a k =>
      simp only [evalDesc, andThen_eq_ok] at h
      obtain ⟨y1, t1, h1, h2⟩ := h
      cases h2
      exact sub a (by simp [namedBy]) _ _ _ _ h1 hP
    | filter a p =>
      simp only [evalDesc, andThen_eq_ok] at h
      obtain ⟨y1, t1, h1, h2⟩ := h
      cases h2
      exact sub a (by simp [namedBy]) _ _ _ _ h1 hP
    | pipe a b =>
      simp only [evalDesc, andThen_eq_ok] at h
      obtain ⟨y1, t1, h1, h2⟩ := h
      exact sub b (by simp [namedBy]) _ _ _ _ h2 (sub a (by simp [namedBy]) _ _ _ _ h1 hP)
    | par a b k =>
      simp only [evalDesc] at h
      split at h <;>
      · simp only [andThen_eq_ok] at h
        obtain ⟨y1, t1, h1, y2, t2, h2, h3⟩ := h
        cases h3
        exact sub _ (by simp [namedBy]) _ _ _ _ h2 (sub _ (by simp [namedBy]) _ _ _ _ h1 (hdraw _ hP))
    | shift a ss =>
      simp only [evalDesc, andThen_eq_ok] at h
      obtain ⟨y1, t1, h1, h2⟩ := h
      have hP1 := sub a (by simp [namedBy]) _ _ _ _ h1 hP
      have stages : ∀ js, (∀ j ∈ js, j ∈ ss) → ∀ y t y' t', runStages (evalAgent c order) js y t = .ok y' t' →
          P t → P t' := by
        intro js
        induction js with
        | nil => intro _ y t y' t' h hP; cases h; exact hP
        | cons j js ihj =>
          intro hj y t y' t' h hP
          simp only [runStages, andThen_eq_ok] at h
          obtain ⟨y1, t1, h1, h2⟩ := h
          exact ihj (fun i hi => hj i (by simp [hi])) _ _ _ _ h2
            (sub j (by simp [namedBy, hj j (by simp)]) _ _ _ _ h1 hP)
      exact stages ss (fun j hj => hj) _ _ _ _ h2 hP1
    | feedback a n =>
      simp only [evalDesc] at h
      have iterated : ∀ n x t y t', iterateAgent (evalAgent c order a) n x t = .ok y t' → P t → P t' := by
        intro n
        induction n with
        | zero => intro x t y t' h hP; cases h; exact hP
        | succ n ihn =>
          intro x t y t' h hP
          simp only [iterateAgent, andThen_eq_ok] at h
          obtain ⟨y1, t1, h1, h2⟩ := h
          exact ihn _ _ _ _ h2 (sub a (by simp [namedBy]) _ _ _ _ h1 hP)
      exact iterated n x t y t' h hP

theorem andThen_ne_illFormed {r : EvalResult} {k : Val → Thread → EvalResult} (h : r ≠ .illFormed)
    (hk : ∀ y t, k y t ≠ .illFormed) : andThen r k ≠ .illFormed := by
  cases r
  · exact hk _ _
  · simp
  · exact absurd rfl h

/-- Every entry of a well-formed table has an evaluation (R297): it ends with an output or with the one fault. -/
theorem evalAgent_ne_illFormed {c : Config} (hc : configOk c = true) (order : Nat → ParOrder) :
    ∀ e, e < c.nagents → ∀ x t, evalAgent c order e x t ≠ .illFormed := by
  intro e
  induction e using Nat.strong_induction_on with
  | _ e ih =>
    intro he x t
    have hg : c.ag[e]? = some c.ag[e] := List.getElem?_eq_getElem he
    rw [evalAgent_eq hc order hg]
    have sub : ∀ j ∈ namedBy c.ag[e], ∀ x t, evalAgent c order j x t ≠ .illFormed := fun j hj => by
      have hlt := lt_of_namedBy (descOk_of_configOk hc hg) j hj
      exact ih j hlt (Nat.lt_trans hlt he)
    generalize c.ag[e] = d at sub
    have ok : ∀ y t, EvalResult.ok y t ≠ .illFormed := fun _ _ => by simp
    cases d with
    | ident => exact ok _ _
    | pureFn k => exact ok _ _
    | cell ci => cases x <;> simp only [evalDesc, evalCell] <;> (try split) <;> simp
    | transform a k => exact andThen_ne_illFormed (sub a (by simp [namedBy]) _ _) fun _ _ => ok _ _
    | filter a p => exact andThen_ne_illFormed (sub a (by simp [namedBy]) _ _) fun _ _ => ok _ _
    | pipe a b => exact andThen_ne_illFormed (sub a (by simp [namedBy]) _ _) fun _ _ => sub b (by simp [namedBy]) _ _
    | par a b k =>
      simp only [evalDesc]
      split <;>
        exact andThen_ne_illFormed (sub _ (by simp [namedBy]) _ _) fun _ _ =>
          andThen_ne_illFormed (sub _ (by simp [namedBy]) _ _) fun _ _ => ok _ _
    | shift a ss =>
      refine andThen_ne_illFormed (sub a (by simp [namedBy]) _ _) ?_
      have stages : ∀ js, (∀ j ∈ js, j ∈ ss) → ∀ y t, runStages (evalAgent c order) js y t ≠ .illFormed := by
        intro js
        induction js with
        | nil => intro _ y t; exact ok _ _
        | cons j js ihj =>
          intro hj y t
          exact andThen_ne_illFormed (sub j (by simp [namedBy, hj j (by simp)]) _ _)
            (ihj fun i hi => hj i (by simp [hi]))
      exact stages ss fun _ h => h
    | feedback a n =>
      simp only [evalDesc]
      have rounds : ∀ n x t, iterateAgent (evalAgent c order a) n x t ≠ .illFormed := by
        intro n
        induction n with
        | zero => exact ok
        | succ n ihn => intro x t; exact andThen_ne_illFormed (sub a (by simp [namedBy]) _ _) ihn
      exact rounds n x t

end Sys2Proof.Machine
end

