-- ==== Sys2Proof/Laws/State.lean ====
section
/-! SUPPORT. One lemma per field per shared update of the state, so that no proof unfolds a record update. -/

namespace Sys2Proof.Machine

variable (s : State)

@[simp] theorem respond_cfg (rv : Bool) (res : Word) : (respond s rv res).cfg = s.cfg := rfl
@[simp] theorem respond_fv (rv : Bool) (res : Word) : (respond s rv res).fv = s.fv := rfl
@[simp] theorem respond_fw (rv : Bool) (res : Word) : (respond s rv res).fw = s.fw := rfl
@[simp] theorem respond_cell (rv : Bool) (res : Word) : (respond s rv res).cell = s.cell := rfl
@[simp] theorem respond_tick (rv : Bool) (res : Word) : (respond s rv res).tick = s.tick := rfl
@[simp] theorem respond_sr (rv : Bool) (res : Word) : (respond s rv res).sr = s.sr := rfl
@[simp] theorem respond_rb (rv : Bool) (res : Word) : (respond s rv res).rb = s.rb := rfl
@[simp] theorem respond_ridx (rv : Bool) (res : Word) : (respond s rv res).ridx = s.ridx := rfl
@[simp] theorem respond_widx (rv : Bool) (res : Word) : (respond s rv res).widx = s.widx := rfl
@[simp] theorem respond_size (rv : Bool) (res : Word) : (respond s rv res).size = s.size := rfl
@[simp] theorem respond_flt (rv : Bool) (res : Word) : (respond s rv res).flt = s.flt := rfl
@[simp] theorem respond_cause (rv : Bool) (res : Word) : (respond s rv res).cause = s.cause := rfl
@[simp] theorem respond_inputs (rv : Bool) (res : Word) : (respond s rv res).inputs = s.inputs := rfl
@[simp] theorem respond_opa (rv : Bool) (res : Word) : (respond s rv res).opa = s.opa := rfl
@[simp] theorem respond_rsp (rv : Bool) (res : Word) : (respond s rv res).rsp = some ⟨.ok, rv, res, false⟩ := rfl
@[simp] theorem respond_draw (rv : Bool) (res : Word) : (respond s rv res).draw = s.draw := rfl

@[simp] theorem respondNone_cfg : (respondNone s).cfg = s.cfg := rfl
@[simp] theorem respondNone_fv : (respondNone s).fv = s.fv := rfl
@[simp] theorem respondNone_fw : (respondNone s).fw = s.fw := rfl
@[simp] theorem respondNone_cell : (respondNone s).cell = s.cell := rfl
@[simp] theorem respondNone_tick : (respondNone s).tick = s.tick := rfl
@[simp] theorem respondNone_sr : (respondNone s).sr = s.sr := rfl
@[simp] theorem respondNone_rb : (respondNone s).rb = s.rb := rfl
@[simp] theorem respondNone_ridx : (respondNone s).ridx = s.ridx := rfl
@[simp] theorem respondNone_widx : (respondNone s).widx = s.widx := rfl
@[simp] theorem respondNone_size : (respondNone s).size = s.size := rfl
@[simp] theorem respondNone_flt : (respondNone s).flt = s.flt := rfl
@[simp] theorem respondNone_cause : (respondNone s).cause = s.cause := rfl
@[simp] theorem respondNone_inputs : (respondNone s).inputs = s.inputs := rfl
@[simp] theorem respondNone_opa : (respondNone s).opa = s.opa := rfl
@[simp] theorem respondNone_rsp : (respondNone s).rsp = some ⟨.ok, false, 0, false⟩ := rfl
@[simp] theorem respondNone_draw : (respondNone s).draw = s.draw := rfl

@[simp] theorem respondWord_cfg (v : Nat) : (respondWord s v).cfg = s.cfg := rfl
@[simp] theorem respondWord_fv (v : Nat) : (respondWord s v).fv = s.fv := rfl
@[simp] theorem respondWord_fw (v : Nat) : (respondWord s v).fw = s.fw := rfl
@[simp] theorem respondWord_cell (v : Nat) : (respondWord s v).cell = s.cell := rfl
@[simp] theorem respondWord_tick (v : Nat) : (respondWord s v).tick = s.tick := rfl
@[simp] theorem respondWord_sr (v : Nat) : (respondWord s v).sr = s.sr := rfl
@[simp] theorem respondWord_rb (v : Nat) : (respondWord s v).rb = s.rb := rfl
@[simp] theorem respondWord_ridx (v : Nat) : (respondWord s v).ridx = s.ridx := rfl
@[simp] theorem respondWord_widx (v : Nat) : (respondWord s v).widx = s.widx := rfl
@[simp] theorem respondWord_size (v : Nat) : (respondWord s v).size = s.size := rfl
@[simp] theorem respondWord_flt (v : Nat) : (respondWord s v).flt = s.flt := rfl
@[simp] theorem respondWord_cause (v : Nat) : (respondWord s v).cause = s.cause := rfl
@[simp] theorem respondWord_inputs (v : Nat) : (respondWord s v).inputs = s.inputs := rfl
@[simp] theorem respondWord_opa (v : Nat) : (respondWord s v).opa = s.opa := rfl
@[simp] theorem respondWord_rsp (v : Nat) : (respondWord s v).rsp = some ⟨.ok, true, BitVec.ofNat 64 v, false⟩ := rfl
@[simp] theorem respondWord_draw (v : Nat) : (respondWord s v).draw = s.draw := rfl

@[simp] theorem respondVal_cfg (o : Val) : (respondVal s o).cfg = s.cfg := rfl
@[simp] theorem respondVal_fv (o : Val) : (respondVal s o).fv = s.fv := rfl
@[simp] theorem respondVal_fw (o : Val) : (respondVal s o).fw = s.fw := rfl
@[simp] theorem respondVal_cell (o : Val) : (respondVal s o).cell = s.cell := rfl
@[simp] theorem respondVal_tick (o : Val) : (respondVal s o).tick = s.tick := rfl
@[simp] theorem respondVal_sr (o : Val) : (respondVal s o).sr = s.sr := rfl
@[simp] theorem respondVal_rb (o : Val) : (respondVal s o).rb = s.rb := rfl
@[simp] theorem respondVal_ridx (o : Val) : (respondVal s o).ridx = s.ridx := rfl
@[simp] theorem respondVal_widx (o : Val) : (respondVal s o).widx = s.widx := rfl
@[simp] theorem respondVal_size (o : Val) : (respondVal s o).size = s.size := rfl
@[simp] theorem respondVal_flt (o : Val) : (respondVal s o).flt = s.flt := rfl
@[simp] theorem respondVal_cause (o : Val) : (respondVal s o).cause = s.cause := rfl
@[simp] theorem respondVal_inputs (o : Val) : (respondVal s o).inputs = s.inputs := rfl
@[simp] theorem respondVal_opa (o : Val) : (respondVal s o).opa = s.opa := rfl
@[simp] theorem respondVal_rsp (o : Val) : (respondVal s o).rsp = some ⟨.ok, valid o, data o, false⟩ := rfl
@[simp] theorem respondVal_draw (o : Val) : (respondVal s o).draw = s.draw := rfl

@[simp] theorem respondPulse_cfg (p : Bool) : (respondPulse s p).cfg = s.cfg := rfl
@[simp] theorem respondPulse_fv (p : Bool) : (respondPulse s p).fv = s.fv := rfl
@[simp] theorem respondPulse_fw (p : Bool) : (respondPulse s p).fw = s.fw := rfl
@[simp] theorem respondPulse_cell (p : Bool) : (respondPulse s p).cell = s.cell := rfl
@[simp] theorem respondPulse_tick (p : Bool) : (respondPulse s p).tick = s.tick := rfl
@[simp] theorem respondPulse_sr (p : Bool) : (respondPulse s p).sr = s.sr := rfl
@[simp] theorem respondPulse_rb (p : Bool) : (respondPulse s p).rb = s.rb := rfl
@[simp] theorem respondPulse_ridx (p : Bool) : (respondPulse s p).ridx = s.ridx := rfl
@[simp] theorem respondPulse_widx (p : Bool) : (respondPulse s p).widx = s.widx := rfl
@[simp] theorem respondPulse_size (p : Bool) : (respondPulse s p).size = s.size := rfl
@[simp] theorem respondPulse_flt (p : Bool) : (respondPulse s p).flt = s.flt := rfl
@[simp] theorem respondPulse_cause (p : Bool) : (respondPulse s p).cause = s.cause := rfl
@[simp] theorem respondPulse_inputs (p : Bool) : (respondPulse s p).inputs = s.inputs := rfl
@[simp] theorem respondPulse_opa (p : Bool) : (respondPulse s p).opa = s.opa := rfl
@[simp] theorem respondPulse_rsp (p : Bool) : (respondPulse s p).rsp = some ⟨.ok, true, BitVec.ofNat 64 (bitOf p), p⟩ := rfl
@[simp] theorem respondPulse_draw (p : Bool) : (respondPulse s p).draw = s.draw := rfl

@[simp] theorem raiseFault_cfg (c : Status) : (raiseFault s c).cfg = s.cfg := rfl
@[simp] theorem raiseFault_fv (c : Status) : (raiseFault s c).fv = s.fv := rfl
@[simp] theorem raiseFault_fw (c : Status) : (raiseFault s c).fw = s.fw := rfl
@[simp] theorem raiseFault_cell (c : Status) : (raiseFault s c).cell = s.cell := rfl
@[simp] theorem raiseFault_tick (c : Status) : (raiseFault s c).tick = s.tick := rfl
@[simp] theorem raiseFault_sr (c : Status) : (raiseFault s c).sr = s.sr := rfl
@[simp] theorem raiseFault_rb (c : Status) : (raiseFault s c).rb = s.rb := rfl
@[simp] theorem raiseFault_ridx (c : Status) : (raiseFault s c).ridx = s.ridx := rfl
@[simp] theorem raiseFault_widx (c : Status) : (raiseFault s c).widx = s.widx := rfl
@[simp] theorem raiseFault_size (c : Status) : (raiseFault s c).size = s.size := rfl
@[simp] theorem raiseFault_flt (c : Status) : (raiseFault s c).flt = true := rfl
@[simp] theorem raiseFault_cause (c : Status) : (raiseFault s c).cause = causeAfter s.flt s.cause c := rfl
@[simp] theorem raiseFault_inputs (c : Status) : (raiseFault s c).inputs = s.inputs := rfl
@[simp] theorem raiseFault_opa (c : Status) : (raiseFault s c).opa = s.opa := rfl
@[simp] theorem raiseFault_rsp (c : Status) : (raiseFault s c).rsp = some ⟨c, false, 0, false⟩ := rfl
@[simp] theorem raiseFault_draw (c : Status) : (raiseFault s c).draw = s.draw := rfl

@[simp] theorem failWith_cfg (c : Status) : (failWith s c).cfg = s.cfg := rfl
@[simp] theorem failWith_fv (c : Status) : (failWith s c).fv = s.fv := rfl
@[simp] theorem failWith_fw (c : Status) : (failWith s c).fw = s.fw := rfl
@[simp] theorem failWith_cell (c : Status) : (failWith s c).cell = s.cell := rfl
@[simp] theorem failWith_tick (c : Status) : (failWith s c).tick = s.tick := rfl
@[simp] theorem failWith_sr (c : Status) : (failWith s c).sr = s.sr := rfl
@[simp] theorem failWith_rb (c : Status) : (failWith s c).rb = s.rb := rfl
@[simp] theorem failWith_ridx (c : Status) : (failWith s c).ridx = s.ridx := rfl
@[simp] theorem failWith_widx (c : Status) : (failWith s c).widx = s.widx := rfl
@[simp] theorem failWith_size (c : Status) : (failWith s c).size = s.size := rfl
@[simp] theorem failWith_flt (c : Status) : (failWith s c).flt = s.flt := rfl
@[simp] theorem failWith_cause (c : Status) : (failWith s c).cause = s.cause := rfl
@[simp] theorem failWith_inputs (c : Status) : (failWith s c).inputs = s.inputs := rfl
@[simp] theorem failWith_opa (c : Status) : (failWith s c).opa = s.opa := rfl
@[simp] theorem failWith_rsp (c : Status) : (failWith s c).rsp = some ⟨c, false, 0, false⟩ := rfl
@[simp] theorem failWith_draw (c : Status) : (failWith s c).draw = s.draw := rfl

@[simp] theorem writeFv_cfg (i : Nat) (v : Word) : (writeFv s i v).cfg = s.cfg := rfl
@[simp] theorem writeFv_fv (i : Nat) (v : Word) : (writeFv s i v).fv = s.fv.setIfInBounds i v := rfl
@[simp] theorem writeFv_fw (i : Nat) (v : Word) : (writeFv s i v).fw = s.fw := rfl
@[simp] theorem writeFv_cell (i : Nat) (v : Word) : (writeFv s i v).cell = s.cell := rfl
@[simp] theorem writeFv_tick (i : Nat) (v : Word) : (writeFv s i v).tick = s.tick := rfl
@[simp] theorem writeFv_sr (i : Nat) (v : Word) : (writeFv s i v).sr = s.sr := rfl
@[simp] theorem writeFv_rb (i : Nat) (v : Word) : (writeFv s i v).rb = s.rb := rfl
@[simp] theorem writeFv_ridx (i : Nat) (v : Word) : (writeFv s i v).ridx = s.ridx := rfl
@[simp] theorem writeFv_widx (i : Nat) (v : Word) : (writeFv s i v).widx = s.widx := rfl
@[simp] theorem writeFv_size (i : Nat) (v : Word) : (writeFv s i v).size = s.size := rfl
@[simp] theorem writeFv_flt (i : Nat) (v : Word) : (writeFv s i v).flt = s.flt := rfl
@[simp] theorem writeFv_cause (i : Nat) (v : Word) : (writeFv s i v).cause = s.cause := rfl
@[simp] theorem writeFv_inputs (i : Nat) (v : Word) : (writeFv s i v).inputs = s.inputs := rfl
@[simp] theorem writeFv_opa (i : Nat) (v : Word) : (writeFv s i v).opa = s.opa := rfl
@[simp] theorem writeFv_rsp (i : Nat) (v : Word) : (writeFv s i v).rsp = s.rsp := rfl
@[simp] theorem writeFv_draw (i : Nat) (v : Word) : (writeFv s i v).draw = s.draw := rfl

@[simp] theorem writeFw_cfg (i : Nat) (w : Width) : (writeFw s i w).cfg = s.cfg := rfl
@[simp] theorem writeFw_fv (i : Nat) (w : Width) : (writeFw s i w).fv = s.fv := rfl
@[simp] theorem writeFw_fw (i : Nat) (w : Width) : (writeFw s i w).fw = s.fw.setIfInBounds i w := rfl
@[simp] theorem writeFw_cell (i : Nat) (w : Width) : (writeFw s i w).cell = s.cell := rfl
@[simp] theorem writeFw_tick (i : Nat) (w : Width) : (writeFw s i w).tick = s.tick := rfl
@[simp] theorem writeFw_sr (i : Nat) (w : Width) : (writeFw s i w).sr = s.sr := rfl
@[simp] theorem writeFw_rb (i : Nat) (w : Width) : (writeFw s i w).rb = s.rb := rfl
@[simp] theorem writeFw_ridx (i : Nat) (w : Width) : (writeFw s i w).ridx = s.ridx := rfl
@[simp] theorem writeFw_widx (i : Nat) (w : Width) : (writeFw s i w).widx = s.widx := rfl
@[simp] theorem writeFw_size (i : Nat) (w : Width) : (writeFw s i w).size = s.size := rfl
@[simp] theorem writeFw_flt (i : Nat) (w : Width) : (writeFw s i w).flt = s.flt := rfl
@[simp] theorem writeFw_cause (i : Nat) (w : Width) : (writeFw s i w).cause = s.cause := rfl
@[simp] theorem writeFw_inputs (i : Nat) (w : Width) : (writeFw s i w).inputs = s.inputs := rfl
@[simp] theorem writeFw_opa (i : Nat) (w : Width) : (writeFw s i w).opa = s.opa := rfl
@[simp] theorem writeFw_rsp (i : Nat) (w : Width) : (writeFw s i w).rsp = s.rsp := rfl
@[simp] theorem writeFw_draw (i : Nat) (w : Width) : (writeFw s i w).draw = s.draw := rfl

@[simp] theorem writeFvList_cfg (vs : List Word) : (writeFvList s vs).cfg = s.cfg := rfl
@[simp] theorem writeFvList_fv (vs : List Word) : (writeFvList s vs).fv = fillFrom s.fv 0 vs := rfl
@[simp] theorem writeFvList_fw (vs : List Word) : (writeFvList s vs).fw = s.fw := rfl
@[simp] theorem writeFvList_cell (vs : List Word) : (writeFvList s vs).cell = s.cell := rfl
@[simp] theorem writeFvList_tick (vs : List Word) : (writeFvList s vs).tick = s.tick := rfl
@[simp] theorem writeFvList_sr (vs : List Word) : (writeFvList s vs).sr = s.sr := rfl
@[simp] theorem writeFvList_rb (vs : List Word) : (writeFvList s vs).rb = s.rb := rfl
@[simp] theorem writeFvList_ridx (vs : List Word) : (writeFvList s vs).ridx = s.ridx := rfl
@[simp] theorem writeFvList_widx (vs : List Word) : (writeFvList s vs).widx = s.widx := rfl
@[simp] theorem writeFvList_size (vs : List Word) : (writeFvList s vs).size = s.size := rfl
@[simp] theorem writeFvList_flt (vs : List Word) : (writeFvList s vs).flt = s.flt := rfl
@[simp] theorem writeFvList_cause (vs : List Word) : (writeFvList s vs).cause = s.cause := rfl
@[simp] theorem writeFvList_inputs (vs : List Word) : (writeFvList s vs).inputs = s.inputs := rfl
@[simp] theorem writeFvList_opa (vs : List Word) : (writeFvList s vs).opa = s.opa := rfl
@[simp] theorem writeFvList_rsp (vs : List Word) : (writeFvList s vs).rsp = s.rsp := rfl
@[simp] theorem writeFvList_draw (vs : List Word) : (writeFvList s vs).draw = s.draw := rfl

@[simp] theorem writeCell_cfg (c : Nat) (v : Word) : (writeCell s c v).cfg = s.cfg := rfl
@[simp] theorem writeCell_fv (c : Nat) (v : Word) : (writeCell s c v).fv = s.fv := rfl
@[simp] theorem writeCell_fw (c : Nat) (v : Word) : (writeCell s c v).fw = s.fw := rfl
@[simp] theorem writeCell_cell (c : Nat) (v : Word) : (writeCell s c v).cell = s.cell.set c v := rfl
@[simp] theorem writeCell_tick (c : Nat) (v : Word) : (writeCell s c v).tick = s.tick := rfl
@[simp] theorem writeCell_sr (c : Nat) (v : Word) : (writeCell s c v).sr = s.sr := rfl
@[simp] theorem writeCell_rb (c : Nat) (v : Word) : (writeCell s c v).rb = s.rb := rfl
@[simp] theorem writeCell_ridx (c : Nat) (v : Word) : (writeCell s c v).ridx = s.ridx := rfl
@[simp] theorem writeCell_widx (c : Nat) (v : Word) : (writeCell s c v).widx = s.widx := rfl
@[simp] theorem writeCell_size (c : Nat) (v : Word) : (writeCell s c v).size = s.size := rfl
@[simp] theorem writeCell_flt (c : Nat) (v : Word) : (writeCell s c v).flt = s.flt := rfl
@[simp] theorem writeCell_cause (c : Nat) (v : Word) : (writeCell s c v).cause = s.cause := rfl
@[simp] theorem writeCell_inputs (c : Nat) (v : Word) : (writeCell s c v).inputs = s.inputs := rfl
@[simp] theorem writeCell_opa (c : Nat) (v : Word) : (writeCell s c v).opa = s.opa := rfl
@[simp] theorem writeCell_rsp (c : Nat) (v : Word) : (writeCell s c v).rsp = s.rsp := rfl
@[simp] theorem writeCell_draw (c : Nat) (v : Word) : (writeCell s c v).draw = s.draw := rfl

@[simp] theorem idle_cfg : (idle s).cfg = s.cfg := rfl
@[simp] theorem idle_fv : (idle s).fv = s.fv := rfl
@[simp] theorem idle_fw : (idle s).fw = s.fw := rfl
@[simp] theorem idle_cell : (idle s).cell = s.cell := rfl
@[simp] theorem idle_tick : (idle s).tick = s.tick := rfl
@[simp] theorem idle_sr : (idle s).sr = s.sr := rfl
@[simp] theorem idle_rb : (idle s).rb = s.rb := rfl
@[simp] theorem idle_ridx : (idle s).ridx = s.ridx := rfl
@[simp] theorem idle_widx : (idle s).widx = s.widx := rfl
@[simp] theorem idle_size : (idle s).size = s.size := rfl
@[simp] theorem idle_flt : (idle s).flt = s.flt := rfl
@[simp] theorem idle_cause : (idle s).cause = s.cause := rfl
@[simp] theorem idle_inputs : (idle s).inputs = s.inputs := rfl
@[simp] theorem idle_opa : (idle s).opa = s.opa := rfl
@[simp] theorem idle_rsp : (idle s).rsp = none := rfl
@[simp] theorem idle_draw : (idle s).draw = s.draw := rfl

@[simp] theorem consume_cfg (rest : List HostEvent) : (consume s rest).cfg = s.cfg := rfl
@[simp] theorem consume_fv (rest : List HostEvent) : (consume s rest).fv = s.fv := rfl
@[simp] theorem consume_fw (rest : List HostEvent) : (consume s rest).fw = s.fw := rfl
@[simp] theorem consume_cell (rest : List HostEvent) : (consume s rest).cell = s.cell := rfl
@[simp] theorem consume_tick (rest : List HostEvent) : (consume s rest).tick = s.tick := rfl
@[simp] theorem consume_sr (rest : List HostEvent) : (consume s rest).sr = s.sr := rfl
@[simp] theorem consume_rb (rest : List HostEvent) : (consume s rest).rb = s.rb := rfl
@[simp] theorem consume_ridx (rest : List HostEvent) : (consume s rest).ridx = s.ridx := rfl
@[simp] theorem consume_widx (rest : List HostEvent) : (consume s rest).widx = s.widx := rfl
@[simp] theorem consume_size (rest : List HostEvent) : (consume s rest).size = s.size := rfl
@[simp] theorem consume_flt (rest : List HostEvent) : (consume s rest).flt = s.flt := rfl
@[simp] theorem consume_cause (rest : List HostEvent) : (consume s rest).cause = s.cause := rfl
@[simp] theorem consume_inputs (rest : List HostEvent) : (consume s rest).inputs = rest := rfl
@[simp] theorem consume_opa (rest : List HostEvent) : (consume s rest).opa = s.opa := rfl
@[simp] theorem consume_rsp (rest : List HostEvent) : (consume s rest).rsp = s.rsp := rfl
@[simp] theorem consume_draw (rest : List HostEvent) : (consume s rest).draw = s.draw := rfl

@[simp] theorem accept_cfg (rest : List HostEvent) (opa : Word) : (accept s rest opa).cfg = s.cfg := rfl
@[simp] theorem accept_fv (rest : List HostEvent) (opa : Word) : (accept s rest opa).fv = s.fv := rfl
@[simp] theorem accept_fw (rest : List HostEvent) (opa : Word) : (accept s rest opa).fw = s.fw := rfl
@[simp] theorem accept_cell (rest : List HostEvent) (opa : Word) : (accept s rest opa).cell = s.cell := rfl
@[simp] theorem accept_tick (rest : List HostEvent) (opa : Word) : (accept s rest opa).tick = s.tick := rfl
@[simp] theorem accept_sr (rest : List HostEvent) (opa : Word) : (accept s rest opa).sr = s.sr := rfl
@[simp] theorem accept_rb (rest : List HostEvent) (opa : Word) : (accept s rest opa).rb = s.rb := rfl
@[simp] theorem accept_ridx (rest : List HostEvent) (opa : Word) : (accept s rest opa).ridx = s.ridx := rfl
@[simp] theorem accept_widx (rest : List HostEvent) (opa : Word) : (accept s rest opa).widx = s.widx := rfl
@[simp] theorem accept_size (rest : List HostEvent) (opa : Word) : (accept s rest opa).size = s.size := rfl
@[simp] theorem accept_flt (rest : List HostEvent) (opa : Word) : (accept s rest opa).flt = s.flt := rfl
@[simp] theorem accept_cause (rest : List HostEvent) (opa : Word) : (accept s rest opa).cause = s.cause := rfl
@[simp] theorem accept_inputs (rest : List HostEvent) (opa : Word) : (accept s rest opa).inputs = rest := rfl
@[simp] theorem accept_opa (rest : List HostEvent) (opa : Word) : (accept s rest opa).opa = opa := rfl
@[simp] theorem accept_rsp (rest : List HostEvent) (opa : Word) : (accept s rest opa).rsp = s.rsp := rfl
@[simp] theorem accept_draw (rest : List HostEvent) (opa : Word) : (accept s rest opa).draw = s.draw := rfl

@[simp] theorem blockReset_cfg : (blockReset s).cfg = s.cfg := rfl
@[simp] theorem blockReset_fv : (blockReset s).fv = Vector.replicate 64 0 := rfl
@[simp] theorem blockReset_fw : (blockReset s).fw = Vector.replicate 64 0 := rfl
@[simp] theorem blockReset_cell : (blockReset s).cell = s.cfg.cellInit := rfl
@[simp] theorem blockReset_tick : (blockReset s).tick = 0 := rfl
@[simp] theorem blockReset_sr : (blockReset s).sr = List.replicate s.cfg.srStages none := rfl
@[simp] theorem blockReset_rb : (blockReset s).rb = List.replicate s.cfg.rbCap none := rfl
@[simp] theorem blockReset_ridx : (blockReset s).ridx = 0 := rfl
@[simp] theorem blockReset_widx : (blockReset s).widx = 0 := rfl
@[simp] theorem blockReset_size : (blockReset s).size = 0 := rfl
@[simp] theorem blockReset_flt : (blockReset s).flt = false := rfl
@[simp] theorem blockReset_cause : (blockReset s).cause = 0 := rfl
@[simp] theorem blockReset_inputs : (blockReset s).inputs = s.inputs := rfl
@[simp] theorem blockReset_opa : (blockReset s).opa = 0 := rfl
@[simp] theorem blockReset_rsp : (blockReset s).rsp = none := rfl
@[simp] theorem blockReset_draw : (blockReset s).draw = s.draw := rfl

end Sys2Proof.Machine
end

