-- ==== Sys2Proof/Laws/Files.lean ====
section
/-! SUPPORT. Reads of the state files after writes: the staging files, and lists of values put at the head of `FV`. -/

namespace Sys2Proof.Machine

theorem vector_getD {α : Type} {n : Nat} (v : Vector α n) (i : Nat) (d : α) :
    v.getD i d = if h : i < n then v[i] else d := by
  obtain ⟨a, rfl⟩ := v
  simp [Vector.getD, Array.getD]

theorem vector_getD_set {α : Type} {n : Nat} (v : Vector α n) (i j : Nat) (x d : α) :
    (v.setIfInBounds i x).getD j d = if i = j ∧ i < n then x else v.getD j d := by
  rw [vector_getD, vector_getD]
  by_cases h : j < n
  · simp only [h, dif_pos, Vector.getElem_setIfInBounds]
    split_ifs <;> simp_all
  · have : ¬ (i = j ∧ i < n) := by omega
    simp [h, this]

theorem vector_getD_replicate {α : Type} {n : Nat} (i : Nat) (x d : α) :
    (Vector.replicate n x).getD i d = if i < n then x else d := by
  simp [vector_getD]

/-- A list filled in from entry `i` on is read back there, and every other entry is as before. -/
theorem fillFrom_getD (vs : List Word) : ∀ (fv : Vector Word 64) (i j : Nat), i + vs.length ≤ 64 →
    (fillFrom fv i vs).getD j 0 = if i ≤ j ∧ j < i + vs.length then vs.getD (j - i) 0 else fv.getD j 0 := by
  induction vs with
  | nil => intro fv i j _; simp [fillFrom]
  | cons v vs ih =>
    intro fv i j h
    simp only [List.length_cons] at h ⊢
    rw [fillFrom, ih _ _ _ (by omega), vector_getD_set]
    rcases Nat.lt_trichotomy j i with hj | hj | hj
    · rw [if_neg (by omega), if_neg (by omega), if_neg (by omega)]
    · subst hj
      rw [if_neg (by omega), if_pos (by omega), if_pos (by omega)]
      simp
    · obtain ⟨k, rfl⟩ : ∃ k, j = i + 1 + k := ⟨j - (i + 1), by omega⟩
      have h1 : i + 1 + k - (i + 1) = k := by omega
      have h2 : i + 1 + k - i = k + 1 := by omega
      by_cases hk : k < vs.length
      · rw [if_pos (by omega), if_pos (by omega), h1, h2]; simp
      · rw [if_neg (by omega), if_neg (by omega), if_neg (by omega)]

/-- Bit `j` of a presence mask (43_shift_register.md R242). -/
theorem presenceMask_testBit (l : List Val) : ∀ i j,
    (presenceMask i l).testBit j = (decide (i ≤ j) && (l.getD (j - i) none).isSome) := by
  induction l with
  | nil => intro i j; simp [presenceMask]
  | cons o l ih =>
    intro i j
    simp only [presenceMask, Nat.testBit_or, ih, Nat.testBit_shiftLeft]
    rcases Nat.lt_trichotomy j i with h | rfl | h
    · simp [show ¬ i ≤ j by omega, show ¬ i + 1 ≤ j by omega]
    · cases o <;> simp [valid, bitOf]
    · obtain ⟨k, rfl⟩ : ∃ k, j = i + 1 + k := ⟨j - (i + 1), by omega⟩
      have h1 : i + 1 + k - i = k + 1 := by omega
      have h2 : i + 1 + k - (i + 1) = k := by omega
      have h3 : (bitOf (valid o)).testBit (k + 1) = false := by
        cases valid o <;> simp [bitOf, Nat.testBit_succ]
      rw [h1, h2]
      simp [h3, show i ≤ i + 1 + k by omega]

end Sys2Proof.Machine

namespace Sys2Proof.Safety

open Sys2Proof.Machine

/-- The value sequence is the first `n` entries of `FV` (20_memory.md R71). -/
theorem fvList_eq_map (s : State) (n : Nat) (h : n ≤ 64) : fvList s n = (List.range n).map (fvAt s) := by
  apply List.ext_getElem
  · simp [fvList, h]
  · intro i h1 h2
    simp at h1 h2
    simp [fvList, fvAt, vector_getD, show i < 64 by omega]

/-- The width sequence is the first `n` entries of `FW` (20_memory.md R71). -/
theorem fwList_eq_map (s : State) (n : Nat) (h : n ≤ 64) : fwList s n = (List.range n).map (fwAt s) := by
  apply List.ext_getElem
  · simp [fwList, h]
  · intro i h1 h2
    simp at h1 h2
    simp [fwList, fwAt, vector_getD, show i < 64 by omega]

/-- `FV[j]` after one write (40_codec.md R150). -/
theorem fvAt_writeFv (s : State) (i j : Nat) (v : Word) (h : i < 64) :
    fvAt (writeFv s i v) j = if j = i then v.toNat else fvAt s j := by
  simp only [fvAt, writeFv_fv, vector_getD_set, h, and_true]
  by_cases hj : i = j
  · simp [hj]
  · simp [hj, Ne.symm hj]

/-- `FW[j]` after one write (40_codec.md R152). -/
theorem fwAt_writeFw (s : State) (i j : Nat) (w : Width) (h : i < 64) :
    fwAt (writeFw s i w) j = if j = i then w.toNat else fwAt s j := by
  simp only [fwAt, writeFw_fw, vector_getD_set, h, and_true]
  by_cases hj : i = j
  · simp [hj]
  · simp [hj, Ne.symm hj]

/-- `FV[j]` after a list written to its head (40_codec.md R131). -/
theorem fvAt_writeFvList (s : State) (vs : List Word) (j : Nat) (h : vs.length ≤ 64) :
    fvAt (writeFvList s vs) j = if j < vs.length then (vs.getD j 0).toNat else fvAt s j := by
  simp only [fvAt, writeFvList_fv]
  rw [fillFrom_getD _ _ _ _ (by omega)]
  simp only [Nat.zero_le, true_and, Nat.zero_add, Nat.sub_zero]
  split <;> rfl

end Sys2Proof.Safety
end

