-- ==== Sys2Proof/Laws/Codec.lean ====
section
/-! SUPPORT. The packing core as sums and bits (40_codec.md R130): the recursive functions of the machine equal the
sums of the spec, a packed word has as many bits as its widths sum to, and its fields do not overlap. -/

namespace Sys2Proof.Safety

open Sys2Proof.Machine

@[simp] theorem off_zero (w : Nat → Nat) : off w 0 = 0 := rfl

theorem off_succ (w : Nat → Nat) (n : Nat) : off w (n + 1) = off w n + w n := Finset.sum_range_succ w n

@[simp] theorem off_const (w n : Nat) : off (fun _ => w) n = n * w := by simp [off]

theorem off_mono (w : Nat → Nat) {m n : Nat} (h : m ≤ n) : off w m ≤ off w n :=
  Finset.sum_le_sum_of_subset (Finset.range_subset_range.2 h)

@[simp] theorem packSum_zero (v w : Nat → Nat) : packSum v w 0 = 0 := rfl

theorem packSum_succ (v w : Nat → Nat) (n : Nat) :
    packSum v w (n + 1) = packSum v w n + (v n &&& (2 ^ w n - 1)) <<< off w n := Finset.sum_range_succ _ n

theorem mask_eq (w : Nat) : mask w = 2 ^ w - 1 := rfl

theorem packFrom_append (fs gs : List (Nat × Nat)) (o : Nat) :
    packFrom o (fs ++ gs) = packFrom o fs + packFrom (o + (fs.map Prod.snd).sum) gs := by
  induction fs generalizing o with
  | nil => simp [packFrom]
  | cons f fs ih => obtain ⟨v, w⟩ := f; simp [packFrom, ih, Nat.add_assoc]

theorem sum_map_range (w : Nat → Nat) (n : Nat) : ((List.range n).map w).sum = off w n := by
  induction n with
  | zero => rfl
  | succ n ih => rw [List.range_succ, List.map_append, List.sum_append, ih, off_succ]; simp

/-- The machine's `packCore` is the sum of 40_codec.md R130. -/
theorem packCore_map_range (v w : Nat → Nat) (n : Nat) :
    packCore ((List.range n).map v) ((List.range n).map w) = packSum v w n := by
  rw [packCore, List.zip_map']
  induction n with
  | zero => rfl
  | succ n ih =>
    rw [List.range_succ, List.map_append, packFrom_append, ih, packSum_succ]
    simp [packFrom, Function.comp_def, sum_map_range, mask]

theorem unpackFrom_append (p : Nat) (us ws : List Nat) (o : Nat) :
    unpackFrom p o (us ++ ws) = unpackFrom p o us ++ unpackFrom p (o + us.sum) ws := by
  induction us generalizing o with
  | nil => simp [unpackFrom]
  | cons u us ih => simp [unpackFrom, ih, Nat.add_assoc]

/-- The machine's `unpackCore` gives the fields of 40_codec.md R130. -/
theorem unpackCore_map_range (p : Nat) (w : Nat → Nat) (n : Nat) :
    unpackCore p ((List.range n).map w) = (List.range n).map (fieldAt p w) := by
  rw [unpackCore]
  induction n with
  | zero => rfl
  | succ n ih =>
    rw [List.range_succ, List.map_append, unpackFrom_append, ih, List.map_append]
    simp [unpackFrom, fieldAt, sum_map_range, mask]

theorem uniformWidths_eq_map (n w : Nat) : uniformWidths n w = (List.range n).map fun _ => w := by
  simp [uniformWidths]

/-- A packed word fits the sum of its widths (40_codec.md R130). -/
theorem packSum_lt (v w : Nat → Nat) (n : Nat) : packSum v w n < 2 ^ off w n := by
  induction n with
  | zero => simp
  | succ n ih =>
    rw [packSum_succ, off_succ, Nat.and_two_pow_sub_one_eq_mod, Nat.shiftLeft_eq, Nat.pow_add]
    have h := Nat.mod_lt (v n) (Nat.two_pow_pos (w n))
    calc packSum v w n + v n % 2 ^ w n * 2 ^ off w n < 2 ^ off w n + v n % 2 ^ w n * 2 ^ off w n := by omega
      _ = (v n % 2 ^ w n + 1) * 2 ^ off w n := by ring
      _ ≤ 2 ^ w n * 2 ^ off w n := Nat.mul_le_mul_right _ h
      _ = 2 ^ off w n * 2 ^ w n := Nat.mul_comm _ _

/-- A field of any word is below its width. -/
theorem fieldAt_lt (p : Nat) (w : Nat → Nat) (i : Nat) : fieldAt p w i < 2 ^ w i := by
  rw [fieldAt, Nat.and_two_pow_sub_one_eq_mod]; exact Nat.mod_lt _ (Nat.two_pow_pos _)

/-- Field `i` of a packed word is the value cut to its width (40_codec.md R157). -/
theorem fieldAt_packSum (v w : Nat → Nat) (n i : Nat) (h : i < n) :
    fieldAt (packSum v w n) w i = v i % 2 ^ w i := by
  induction n with
  | zero => omega
  | succ n ih =>
    simp only [fieldAt, packSum_succ, Nat.and_two_pow_sub_one_eq_mod, Nat.shiftLeft_eq,
      Nat.shiftRight_eq_div_pow] at ih ⊢
    rcases Nat.lt_succ_iff_lt_or_eq.1 h with hi | rfl
    · obtain ⟨k, hk⟩ : ∃ k, off w n = off w i + w i + k :=
        ⟨off w n - off w (i + 1), by have := off_mono w (Nat.succ_le_of_lt hi); rw [off_succ] at this ⊢; omega⟩
      have h1 : v n % 2 ^ w n * 2 ^ off w n = 2 ^ off w i * (2 ^ w i * (v n % 2 ^ w n * 2 ^ k)) := by
        rw [hk, Nat.pow_add, Nat.pow_add]; ring
      rw [h1, Nat.add_mul_div_left _ _ (Nat.two_pow_pos _), Nat.add_mul_mod_self_left, ih hi]
    · rw [Nat.add_mul_div_right _ _ (Nat.two_pow_pos _), Nat.div_eq_of_lt (packSum_lt v w i), Nat.zero_add,
        Nat.mod_mod]

/-- What an unpacking command leaves in `FV` (40_codec.md R137, R141, R144, R148). -/
theorem fvAt_unpackToFv (s : State) (p n : Nat) (w : Nat → Nat) (hn : n ≤ 64)
    (hw : ∀ i, i < n → w i ≤ 64) (j : Nat) :
    fvAt (unpackToFv s p ((List.range n).map w)) j = if j < n then fieldAt p w j else fvAt s j := by
  rw [unpackToFv, fvAt_writeFvList _ _ _ (by simp [unpackCore_map_range, hn])]
  simp only [unpackCore_map_range, List.length_map, List.length_range]
  split
  · rename_i h
    have := fieldAt_lt p w j
    have h2 : (2 : Nat) ^ w j ≤ 2 ^ 64 := Nat.pow_le_pow_right (by omega) (hw j h)
    simp [List.getD_eq_getElem?_getD, h]
    omega
  · rfl

end Sys2Proof.Safety
end

