-- ==== Sys2Proof/Laws/Decode.lean ====
section
/-! SUPPORT. The fields of a word and the word of fields are inverse (30_encoding.md R94). -/

namespace Sys2Proof

theorem wordOf_toNat (f : Fields) : (wordOf f).toNat =
    ((((f.op.toNat * 2 + f.iv.toNat) * 128 + f.a.toNat) * 256 + f.b.toNat) * 1024 + f.c.toNat) := by
  have h1 := f.op.isLt; have h2 := f.iv.isLt; have h3 := f.a.isLt; have h4 := f.b.isLt; have h5 := f.c.isLt
  simp only [wordOf, BitVec.toNat_append]
  rw [← Nat.shiftLeft_add_eq_or_of_lt h5, ← Nat.shiftLeft_add_eq_or_of_lt h4, ← Nat.shiftLeft_add_eq_or_of_lt h3,
    ← Nat.shiftLeft_add_eq_or_of_lt h2]
  simp only [Nat.shiftLeft_eq]

@[simp] theorem fieldsOf_wordOf (f : Fields) : fieldsOf (wordOf f) = f := by
  have h := wordOf_toNat f
  have h1 := f.op.isLt; have h2 := f.iv.isLt; have h3 := f.a.isLt; have h4 := f.b.isLt; have h5 := f.c.isLt
  obtain ⟨op, iv, a, b, c⟩ := f
  simp only [fieldsOf, Fields.mk.injEq]
  refine ⟨?_, ?_, ?_, ?_, ?_⟩ <;>
    (apply BitVec.eq_of_toNat_eq; simp only [BitVec.extractLsb'_toNat, Nat.shiftRight_eq_div_pow, h]; simp only at *; omega)

@[simp] theorem wordOf_fieldsOf (w : CmdWord) : wordOf (fieldsOf w) = w := by
  apply BitVec.eq_of_toNat_eq
  rw [wordOf_toNat]
  have := w.isLt
  simp only [fieldsOf, BitVec.extractLsb'_toNat, Nat.shiftRight_eq_div_pow]
  omega

theorem decode_wordOf (f : Fields) : decode (wordOf f) = decodeFields f := by simp [decode]

theorem wordOf_injective {f g : Fields} (h : wordOf f = wordOf g) : f = g := by
  rw [← fieldsOf_wordOf f, h, fieldsOf_wordOf]

theorem checked_eq_ok {u : Bool} {i j : Instr} : checked u i = .ok j ↔ u = true ∧ WellFormed i = true ∧ i = j := by
  cases u <;> cases hi : WellFormed i <;> simp [checked, hi]

/-- What the decoder accepts is well formed and has exactly the fields it was read from (R95, R101, R102). -/
theorem decodeFields_eq_ok {f : Fields} {i : Instr} (h : decodeFields f = .ok i) :
    WellFormed i = true ∧ encodeFields i = f := by
  unfold decodeFields at h
  split at h
  case h_33 => cases h
  all_goals
    rename_i hop
    replace hop := congrArg (BitVec.ofNat 6) hop
    rw [BitVec.ofNat_toNat, BitVec.setWidth_eq] at hop
    simp only [formatN, formatAB, formatA, formatB, formatC, formatCB, formatG, checked_eq_ok] at h
    obtain ⟨hu, hw, rfl⟩ := h
    refine ⟨hw, ?_⟩
    simp only [Bool.and_eq_true, beq_iff_eq] at hu
    obtain ⟨op, iv, a, b, c⟩ := f
    simp_all [encodeFields]

end Sys2Proof
end

