-- ==== Sys2Proof/Laws/Exec.lean ====
section
/-! SUPPORT. What any command can do, said once (30_encoding.md R97, R98; 60_exceptions.md R361, R366): it faults, it
fails, or it completes; and what one step does with each input. -/

namespace Sys2Proof.Machine

open Sys2Proof.Safety

/-- A command that ends with `OK`: its response, and what every such command leaves alone. -/
structure OkEffect (i : Instr) (s t : State) (r : Response) : Prop where
  rsp : t.rsp = some r
  st : r.st = .ok
  res : r.rv = false → r.res = 0
  cfg : t.cfg = s.cfg
  flt : t.flt = s.flt
  cause : t.cause = s.cause
  inputs : t.inputs = s.inputs
  opa : t.opa = s.opa
  pulse : r.pulse = true → i = .tick ∧ t.tick = 0
  tick : t.tick ≠ s.tick → i = .tick ∨ i = .trst
  pure : isPureCommand i = true → t = { s with rsp := some r }

theorem data_of_not_valid (o : Val) : valid o = false → data o = 0 := by cases o <;> simp [valid, data]

/-- The three ends of a command. The draw counter moves on a fault of `ARUN` (log entry 8). -/
theorem exec_shape {i : Instr} {s t : State} (h : exec i s = .next t) :
    (∃ c d, isFault c = true ∧ c ∈ allowedStatus i ∧ t = { raiseFault s c with draw := d }) ∨
    (∃ c, (c = .lenMismatch ∨ c = .exceeds64Limit) ∧ c ∈ allowedStatus i ∧ t = failWith s c ∧
      ((∃ nv nw, i = .packi nv nw) ∨ ∃ nw, i = .unpacki nw)) ∨
    ∃ r, OkEffect i s t r := by
  cases i <;>
    simp only [exec, execNop, execPack32, execPack64, execUnpack32, execUnpack64, execPackf, execUnpackf, execExtract,
      execPacki, execUnpacki, execFvwr, execFvrd, execFwwr, execFwrd, execCget, execCset, execCupd, execTick, execTcur,
      execTrst, execSpush, execSget, execSgetall, execSclr, execRwr, execRrd, execRfull, execRempty, execRsize,
      execArun, execStat, execCfgrd, finishAgent, limitChecked, uniformChecked, fieldsChecked, resultChecked,
      stagingChecked, cellChecked] at h
  case arun iv a =>
    split at h
    · cases h; exact .inl ⟨.indexRange, s.draw, rfl, by simp [allowedStatus], rfl⟩
    · split at h
      · cases h
        exact .inr (.inr ⟨_, rfl, rfl, data_of_not_valid _, rfl, rfl, rfl, rfl, rfl, by simp, by simp,
          by simp [isPureCommand]⟩)
      · cases h; exact .inl ⟨.agentInput, _, rfl, by simp [allowedStatus], rfl⟩
      · cases h
  case tick =>
    cases h
    refine .inr (.inr ⟨_, rfl, rfl, by simp, rfl, rfl, rfl, rfl, rfl, ?_, by simp, by simp [isPureCommand]⟩)
    intro h; simp at h; simp [h]
  all_goals
    simp only [Host.Outcome.next.injEq] at h
    subst h
    try split_ifs
  all_goals
    first
    | exact .inl ⟨_, s.draw, rfl, by simp [allowedStatus], rfl⟩
    | (refine .inr (.inl ⟨_, ?_, ?_, rfl, ?_⟩) <;> simp [allowedStatus]; done)
    | exact .inr (.inr ⟨_, rfl, rfl, by first | exact data_of_not_valid _ | simp, rfl, rfl, rfl, rfl, rfl, by simp,
        by first | exact fun h => absurd rfl h | simp, by first | exact fun _ => rfl | simp [isPureCommand]⟩)

/-- A step with nothing presented (60_exceptions.md R380). -/
theorem step_idle {s : State} (hc : configOk s.cfg = true) (hi : s.inputs = []) : step s = .next (idle s) := by
  unfold step; rw [if_pos hc, hi]

/-- A step with `rst` next (70_reset_and_hazards.md R400). -/
theorem step_rst {s : State} {p : Option (CmdWord × Word)} {rest : List HostEvent} (hc : configOk s.cfg = true)
    (hi : s.inputs = .rst p :: rest) : step s = .next (blockReset (consume s rest)) := by
  unfold step; rw [if_pos hc, hi]

/-- A step with a command next: its word decodes and is run, or raises `ILLEGAL_COMMAND` (30_encoding.md R104). -/
theorem step_command {s : State} {w : CmdWord} {v : Word} {rest : List HostEvent} (hc : configOk s.cfg = true)
    (hi : s.inputs = .command w v :: rest) :
    step s = match decode w with
      | .ok i => exec i (accept s rest v)
      | .error _ => .next (raiseFault (accept s rest v) .illegalCommand) := by
  unfold step
  rw [if_pos hc]
  generalize s.inputs = l at hi
  subst hi
  rfl

/-- An encoding statement from the decoder alone. -/
theorem decodesExactly {op : BitVec 6} {legal : Fields → Prop} {i : Fields → Instr}
    (h : ∀ f : Fields, f.op = op → (legal f → decodeFields f = .ok (i f)) ∧
      (¬ legal f → ∃ e, decodeFields f = .error e)) : DecodesExactly op legal i := by
  intro f hf
  rw [decode_wordOf]
  refine ⟨(h f hf).1, fun hl s v rest hc hi => ?_⟩
  obtain ⟨e, he⟩ := (h f hf).2 hl
  rw [step_command hc hi, decode_wordOf, he]
  rfl

end Sys2Proof.Machine
end

