-- ==== Sys2Proof/Laws/PerInstr.lean ====
section
/-! SUPPORT. One lemma per instruction: the word of an instruction matches its row of opcode_table.json
(30_encoding.md R99, R104), whatever its operands. -/

namespace Sys2Proof.Laws.TableRow

/-- The mask and the match of an instruction's row of opcode_table.json. -/
def row : Instr → CmdWord × CmdWord
  | .nop => (0xFFFFFFFF, 0x00000000)
  | .pack32 _ _ => (0xFE0003FF, 0x04000000)
  | .unpack32 _ _ => (0xFE0003FF, 0x08000000)
  | .pack64 _ _ => (0xFE0003FF, 0x0C000000)
  | .unpack64 _ _ => (0xFE0003FF, 0x10000000)
  | .packf _ => (0xFE03FFFF, 0x14000000)
  | .unpackf _ => (0xFE03FFFF, 0x18000000)
  | .extract _ _ => (0xFE0003FF, 0x1C000000)
  | .packi _ _ => (0xFE0003FF, 0x20000000)
  | .unpacki _ => (0xFFFC03FF, 0x24000000)
  | .fvwr _ => (0xFFFFFC00, 0x28000000)
  | .fvrd _ => (0xFFFFFC00, 0x2C000000)
  | .fwwr _ => (0xFFFFFC00, 0x30000000)
  | .fwrd _ => (0xFFFFFC00, 0x34000000)
  | .cget _ => (0xFFFFFC00, 0x40000000)
  | .cset _ => (0xFFFFFC00, 0x44000000)
  | .cupd _ _ => (0xFFFC0000, 0x48000000)
  | .tick => (0xFFFFFFFF, 0x60000000)
  | .tcur => (0xFFFFFFFF, 0x64000000)
  | .trst => (0xFFFFFFFF, 0x68000000)
  | .spush => (0xFFFFFFFF, 0x80000000)
  | .sget _ => (0xFFFFFC00, 0x84000000)
  | .sgetall => (0xFFFFFFFF, 0x88000000)
  | .sclr => (0xFFFFFFFF, 0x8C000000)
  | .rwr => (0xFFFFFFFF, 0xA0000000)
  | .rrd => (0xFFFFFFFF, 0xA4000000)
  | .rfull => (0xFFFFFFFF, 0xA8000000)
  | .rempty => (0xFFFFFFFF, 0xAC000000)
  | .rsize => (0xFFFFFFFF, 0xB0000000)
  | .arun _ _ => (0xFDFFFC00, 0xC0000000)
  | .stat => (0xFFFFFFFF, 0xF0000000)
  | .cfgrd _ => (0xFFFFFC00, 0xF4000000)

/-- The bits of the row that are fixed stand in the word as the row says. -/
def Statement (i : Instr) : Prop := encode i &&& (row i).1 = (row i).2

/-- Masks and words meet field by field. -/
theorem wordOf_and (f g : Fields) :
    wordOf f &&& wordOf g = wordOf ⟨f.op &&& g.op, f.iv &&& g.iv, f.a &&& g.a, f.b &&& g.b, f.c &&& g.c⟩ := by
  apply BitVec.eq_of_getLsbD_eq
  intro i _
  simp only [wordOf, BitVec.getLsbD_and, BitVec.getLsbD_append]
  split_ifs <;> rfl

/-- A row holds of a word when it holds field by field. -/
theorem of_fields {i : Instr} (m : Fields) (hm : (row i).1 = wordOf m)
    (h : wordOf ⟨(encodeFields i).op &&& m.op, (encodeFields i).iv &&& m.iv, (encodeFields i).a &&& m.a,
      (encodeFields i).b &&& m.b, (encodeFields i).c &&& m.c⟩ = (row i).2) : Statement i := by
  rw [Statement, hm, encode, wordOf_and, h]

theorem nop : Statement .nop :=
  of_fields ⟨0x3f, 1, 0x7f, 0xff, 0x3ff⟩ rfl (by simp [encodeFields, row, wordOf])
theorem pack32 (n : BitVec 7) (w : BitVec 8) : Statement (.pack32 n w) :=
  of_fields ⟨0x3f, 1, 0x0, 0x0, 0x3ff⟩ rfl (by simp [encodeFields, row, wordOf])
theorem unpack32 (n : BitVec 7) (w : BitVec 8) : Statement (.unpack32 n w) :=
  of_fields ⟨0x3f, 1, 0x0, 0x0, 0x3ff⟩ rfl (by simp [encodeFields, row, wordOf])
theorem pack64 (n : BitVec 7) (w : BitVec 8) : Statement (.pack64 n w) :=
  of_fields ⟨0x3f, 1, 0x0, 0x0, 0x3ff⟩ rfl (by simp [encodeFields, row, wordOf])
theorem unpack64 (n : BitVec 7) (w : BitVec 8) : Statement (.unpack64 n w) :=
  of_fields ⟨0x3f, 1, 0x0, 0x0, 0x3ff⟩ rfl (by simp [encodeFields, row, wordOf])
theorem packf (n : BitVec 7) : Statement (.packf n) :=
  of_fields ⟨0x3f, 1, 0x0, 0xff, 0x3ff⟩ rfl (by simp [encodeFields, row, wordOf])
theorem unpackf (n : BitVec 7) : Statement (.unpackf n) :=
  of_fields ⟨0x3f, 1, 0x0, 0xff, 0x3ff⟩ rfl (by simp [encodeFields, row, wordOf])
theorem extract (off : BitVec 7) (w : BitVec 8) : Statement (.extract off w) :=
  of_fields ⟨0x3f, 1, 0x0, 0x0, 0x3ff⟩ rfl (by simp [encodeFields, row, wordOf])
theorem packi (nv : BitVec 7) (nw : BitVec 8) : Statement (.packi nv nw) :=
  of_fields ⟨0x3f, 1, 0x0, 0x0, 0x3ff⟩ rfl (by simp [encodeFields, row, wordOf])
theorem unpacki (nw : BitVec 8) : Statement (.unpacki nw) :=
  of_fields ⟨0x3f, 1, 0x7f, 0x0, 0x3ff⟩ rfl (by simp [encodeFields, row, wordOf])
theorem fvwr (idx : BitVec 10) : Statement (.fvwr idx) :=
  of_fields ⟨0x3f, 1, 0x7f, 0xff, 0x0⟩ rfl (by simp [encodeFields, row, wordOf])
theorem fvrd (idx : BitVec 10) : Statement (.fvrd idx) :=
  of_fields ⟨0x3f, 1, 0x7f, 0xff, 0x0⟩ rfl (by simp [encodeFields, row, wordOf])
theorem fwwr (idx : BitVec 10) : Statement (.fwwr idx) :=
  of_fields ⟨0x3f, 1, 0x7f, 0xff, 0x0⟩ rfl (by simp [encodeFields, row, wordOf])
theorem fwrd (idx : BitVec 10) : Statement (.fwrd idx) :=
  of_fields ⟨0x3f, 1, 0x7f, 0xff, 0x0⟩ rfl (by simp [encodeFields, row, wordOf])
theorem cget (c : BitVec 10) : Statement (.cget c) :=
  of_fields ⟨0x3f, 1, 0x7f, 0xff, 0x0⟩ rfl (by simp [encodeFields, row, wordOf])
theorem cset (c : BitVec 10) : Statement (.cset c) :=
  of_fields ⟨0x3f, 1, 0x7f, 0xff, 0x0⟩ rfl (by simp [encodeFields, row, wordOf])
theorem cupd (c : BitVec 10) (k : BitVec 8) : Statement (.cupd c k) :=
  of_fields ⟨0x3f, 1, 0x7f, 0x0, 0x0⟩ rfl (by simp [encodeFields, row, wordOf])
theorem tick : Statement .tick :=
  of_fields ⟨0x3f, 1, 0x7f, 0xff, 0x3ff⟩ rfl (by simp [encodeFields, row, wordOf])
theorem tcur : Statement .tcur :=
  of_fields ⟨0x3f, 1, 0x7f, 0xff, 0x3ff⟩ rfl (by simp [encodeFields, row, wordOf])
theorem trst : Statement .trst :=
  of_fields ⟨0x3f, 1, 0x7f, 0xff, 0x3ff⟩ rfl (by simp [encodeFields, row, wordOf])
theorem spush : Statement .spush :=
  of_fields ⟨0x3f, 1, 0x7f, 0xff, 0x3ff⟩ rfl (by simp [encodeFields, row, wordOf])
theorem sget (stage : BitVec 10) : Statement (.sget stage) :=
  of_fields ⟨0x3f, 1, 0x7f, 0xff, 0x0⟩ rfl (by simp [encodeFields, row, wordOf])
theorem sgetall : Statement .sgetall :=
  of_fields ⟨0x3f, 1, 0x7f, 0xff, 0x3ff⟩ rfl (by simp [encodeFields, row, wordOf])
theorem sclr : Statement .sclr :=
  of_fields ⟨0x3f, 1, 0x7f, 0xff, 0x3ff⟩ rfl (by simp [encodeFields, row, wordOf])
theorem rwr : Statement .rwr :=
  of_fields ⟨0x3f, 1, 0x7f, 0xff, 0x3ff⟩ rfl (by simp [encodeFields, row, wordOf])
theorem rrd : Statement .rrd :=
  of_fields ⟨0x3f, 1, 0x7f, 0xff, 0x3ff⟩ rfl (by simp [encodeFields, row, wordOf])
theorem rfull : Statement .rfull :=
  of_fields ⟨0x3f, 1, 0x7f, 0xff, 0x3ff⟩ rfl (by simp [encodeFields, row, wordOf])
theorem rempty : Statement .rempty :=
  of_fields ⟨0x3f, 1, 0x7f, 0xff, 0x3ff⟩ rfl (by simp [encodeFields, row, wordOf])
theorem rsize : Statement .rsize :=
  of_fields ⟨0x3f, 1, 0x7f, 0xff, 0x3ff⟩ rfl (by simp [encodeFields, row, wordOf])
theorem arun (iv : BitVec 1) (a : BitVec 10) : Statement (.arun iv a) :=
  of_fields ⟨0x3f, 0, 0x7f, 0xff, 0x0⟩ rfl (by simp [encodeFields, row, wordOf])
theorem stat : Statement .stat :=
  of_fields ⟨0x3f, 1, 0x7f, 0xff, 0x3ff⟩ rfl (by simp [encodeFields, row, wordOf])
theorem cfgrd (sel : BitVec 10) : Statement (.cfgrd sel) :=
  of_fields ⟨0x3f, 1, 0x7f, 0xff, 0x0⟩ rfl (by simp [encodeFields, row, wordOf])

end Sys2Proof.Laws.TableRow
end

