-- ==== Sys2Proof/Tests/Slice0.lean ====
section
/-! SUPPORT. Tests of the model on values of the spec (95_test_vectors.md, by vector), and for each obligation with
hypotheses a state and operands that meet them. -/

namespace Sys2Proof.Tests

open Sys2Proof.Machine Sys2Proof.Safety

/-! ## Helpers -/

/-- What a step from `s` with the input `e` gives. -/
def stepWith (s : State) (e : HostEvent) : Option State :=
  match step { s with inputs := [e] } with
  | .next t => some t
  | .fault _ => none
  | .refused _ => none

/-- The response to a command word and its operand. -/
def response (s : State) (w : CmdWord) (v : Word) : Option Response := (stepWith s (.command w v)).bind State.rsp

/-- Reset with `FV` and `FW` loaded from entry 0 on. -/
def staged (vs : List Word) (ws : List Width) : State :=
  { State.reset with
    fv := fillFrom (Vector.replicate 64 0) 0 vs
    fw := (ws.zipIdx).foldl (fun fw p => fw.setIfInBounds p.2 p.1) (Vector.replicate 64 0) }

/-- `(OK, 1, v)`. -/
def gives (v : Word) : Option Response := some (plainResponse .ok true v)

/-- `(OK, 0, 0)`. -/
def silent : Option Response := some (plainResponse .ok false 0)

/-- `(c, 0, 0)`. -/
def fails (c : Status) : Option Response := some (plainResponse c false 0)

/-! ## WellFormed: a term each check refuses, and the boundary it admits (30_encoding.md R102) -/

theorem test_illFormed_counts : WellFormed (.pack32 65 1) = false ∧ WellFormed (.unpack32 65 1) = false ∧
    WellFormed (.pack64 65 1) = false ∧ WellFormed (.unpack64 65 1) = false ∧ WellFormed (.packf 65) = false ∧
    WellFormed (.unpackf 127) = false ∧ WellFormed (.packi 65 0) = false ∧ WellFormed (.packi 0 65) = false ∧
    WellFormed (.unpacki 65) = false ∧ WellFormed (.cfgrd 9) = false := by decide

theorem test_wellFormed_boundary : WellFormed (.pack32 64 255) = true ∧ WellFormed (.packi 64 64) = true ∧
    WellFormed (.unpacki 64) = true ∧ WellFormed (.cfgrd 8) = true ∧ WellFormed (.extract 127 255) = true := by decide

/-! ## Decoding: words written field by field, OP IV A B C (30_encoding.md R93, R94, R99) -/

theorem test_decode_nop : decode (0b000000#6 ++ 0b0#1 ++ 0b0000000#7 ++ 0b00000000#8 ++ 0b0000000000#10) = .ok .nop := by
  decide

theorem test_decode_pack32 : decode (0b000001#6 ++ 0b0#1 ++ 0b0000100#7 ++ 0b00001000#8 ++ 0b0000000000#10) =
    .ok (.pack32 4 8) := by decide

theorem test_decode_unpack32 : decode (0b000010#6 ++ 0b0#1 ++ 0b0000101#7 ++ 0b00001000#8 ++ 0b0000000000#10) =
    .ok (.unpack32 5 8) := by decide

theorem test_decode_pack64 : decode (0b000011#6 ++ 0b0#1 ++ 0b0000010#7 ++ 0b00100000#8 ++ 0b0000000000#10) =
    .ok (.pack64 2 32) := by decide

theorem test_decode_unpack64 : decode (0b000100#6 ++ 0b0#1 ++ 0b1000000#7 ++ 0b00000001#8 ++ 0b0000000000#10) =
    .ok (.unpack64 64 1) := by decide

theorem test_decode_packf : decode (0b000101#6 ++ 0b0#1 ++ 0b0000100#7 ++ 0b00000000#8 ++ 0b0000000000#10) =
    .ok (.packf 4) := by decide

theorem test_decode_unpackf : decode (0b000110#6 ++ 0b0#1 ++ 0b0000010#7 ++ 0b00000000#8 ++ 0b0000000000#10) =
    .ok (.unpackf 2) := by decide

theorem test_decode_extract : decode (0b000111#6 ++ 0b0#1 ++ 0b0111100#7 ++ 0b00000101#8 ++ 0b0000000000#10) =
    .ok (.extract 60 5) := by decide

theorem test_decode_packi : decode (0b001000#6 ++ 0b0#1 ++ 0b0000011#7 ++ 0b00000010#8 ++ 0b0000000000#10) =
    .ok (.packi 3 2) := by decide

theorem test_decode_unpacki : decode (0b001001#6 ++ 0b0#1 ++ 0b0000000#7 ++ 0b00000100#8 ++ 0b0000000000#10) =
    .ok (.unpacki 4) := by decide

theorem test_decode_staging :
    decode (0b001010#6 ++ 0b0#1 ++ 0b0000000#7 ++ 0b00000000#8 ++ 0b0000000011#10) = .ok (.fvwr 3) ∧
    decode (0b001011#6 ++ 0b0#1 ++ 0b0000000#7 ++ 0b00000000#8 ++ 0b0000000100#10) = .ok (.fvrd 4) ∧
    decode (0b001100#6 ++ 0b0#1 ++ 0b0000000#7 ++ 0b00000000#8 ++ 0b0001000000#10) = .ok (.fwwr 64) ∧
    decode (0b001101#6 ++ 0b0#1 ++ 0b0000000#7 ++ 0b00000000#8 ++ 0b1111111111#10) = .ok (.fwrd 1023) := by decide

theorem test_decode_cells :
    decode (0b010000#6 ++ 0b0#1 ++ 0b0000000#7 ++ 0b00000000#8 ++ 0b1111111111#10) = .ok (.cget 1023) ∧
    decode (0b010001#6 ++ 0b0#1 ++ 0b0000000#7 ++ 0b00000000#8 ++ 0b0000000010#10) = .ok (.cset 2) ∧
    decode (0b010010#6 ++ 0b0#1 ++ 0b0000000#7 ++ 0b00000010#8 ++ 0b0000000001#10) = .ok (.cupd 1 2) := by decide

theorem test_decode_clock :
    decode (0b011000#6 ++ 0b0#1 ++ 0b0000000#7 ++ 0b00000000#8 ++ 0b0000000000#10) = .ok .tick ∧
    decode (0b011001#6 ++ 0b0#1 ++ 0b0000000#7 ++ 0b00000000#8 ++ 0b0000000000#10) = .ok .tcur ∧
    decode (0b011010#6 ++ 0b0#1 ++ 0b0000000#7 ++ 0b00000000#8 ++ 0b0000000000#10) = .ok .trst := by decide

theorem test_decode_shift :
    decode (0b100000#6 ++ 0b0#1 ++ 0b0000000#7 ++ 0b00000000#8 ++ 0b0000000000#10) = .ok .spush ∧
    decode (0b100001#6 ++ 0b0#1 ++ 0b0000000#7 ++ 0b00000000#8 ++ 0b0000000010#10) = .ok (.sget 2) ∧
    decode (0b100010#6 ++ 0b0#1 ++ 0b0000000#7 ++ 0b00000000#8 ++ 0b0000000000#10) = .ok .sgetall ∧
    decode (0b100011#6 ++ 0b0#1 ++ 0b0000000#7 ++ 0b00000000#8 ++ 0b0000000000#10) = .ok .sclr := by decide

theorem test_decode_ring :
    decode (0b101000#6 ++ 0b0#1 ++ 0b0000000#7 ++ 0b00000000#8 ++ 0b0000000000#10) = .ok .rwr ∧
    decode (0b101001#6 ++ 0b0#1 ++ 0b0000000#7 ++ 0b00000000#8 ++ 0b0000000000#10) = .ok .rrd ∧
    decode (0b101010#6 ++ 0b0#1 ++ 0b0000000#7 ++ 0b00000000#8 ++ 0b0000000000#10) = .ok .rfull ∧
    decode (0b101011#6 ++ 0b0#1 ++ 0b0000000#7 ++ 0b00000000#8 ++ 0b0000000000#10) = .ok .rempty ∧
    decode (0b101100#6 ++ 0b0#1 ++ 0b0000000#7 ++ 0b00000000#8 ++ 0b0000000000#10) = .ok .rsize := by decide

theorem test_decode_arun :
    decode (0b110000#6 ++ 0b1#1 ++ 0b0000000#7 ++ 0b00000000#8 ++ 0b0000001010#10) = .ok (.arun 1 10) ∧
    decode (0b110000#6 ++ 0b0#1 ++ 0b0000000#7 ++ 0b00000000#8 ++ 0b0000000111#10) = .ok (.arun 0 7) := by decide

theorem test_decode_system :
    decode (0b111100#6 ++ 0b0#1 ++ 0b0000000#7 ++ 0b00000000#8 ++ 0b0000000000#10) = .ok .stat ∧
    decode (0b111101#6 ++ 0b0#1 ++ 0b0000000#7 ++ 0b00000000#8 ++ 0b0000001000#10) = .ok (.cfgrd 8) := by decide

/-- V-D01 to V-D15: each word raises `ILLEGAL_COMMAND` for the reason given there. -/
theorem test_decode_faults : [0x38000000, 0xFC000000, 0x4C000000, 0xFFFFFFFF].map decode =
      List.replicate 4 (.error .reservedOpcode) ∧
    [0x00000001, 0x42000000, 0x04102001, 0x14100400, 0x24040800, 0xC0040000, 0x48040000].map decode =
      List.replicate 7 (.error .reservedField) ∧
    [0x05040000, 0x21010400, 0xF4000009, 0xF40003FF].map decode = List.replicate 4 (.error .illegalValue) := by decide

/-- V-D01 with 60_exceptions.md R362: the response and the record of a decode fault. -/
theorem test_decode_fault_record : (stepWith State.reset (.command 0x38000000 0)).map (fun t => (t.rsp, t.flt, t.cause)) =
    some (fails .illegalCommand, true, 5) := by decide

/-! ## The codec, V-C vectors -/

theorem test_pack32 : response (staged [1, 2, 3, 4] []) 0x04102000 0 = gives 0x4030201 ∧
    response (staged [0xFFFFFFFFFFFFFF80, 511] []) 0x04082000 0 = gives 0xFF80 := by decide

theorem test_pack32_faults : response State.reset 0x05002400 0 = fails .invalidBitWidth ∧
    response State.reset 0x04142000 0 = fails .capacityExceeded := by decide

theorem test_unpack32 : (stepWith State.reset (.command 0x08102000 0xFFFFFFFF04030201)).map (fun t => fvList t 5) =
    some [1, 2, 3, 4, 0] := by decide

theorem test_pack64 : response (staged [0xDEADBEEF, 0x12345678] []) 0x0C088000 0 = gives 0x12345678DEADBEEF ∧
    response State.reset 0x0C032000 0 = gives 0 := by decide

theorem test_pack64_faults : response State.reset 0x0C000000 0 = fails .invalidBitWidth ∧
    response State.reset 0x0C0C5800 0 = fails .capacityExceeded := by decide

theorem test_unpack64 : (stepWith State.reset (.command 0x10088000 0x12345678DEADBEEF)).map (fun t => fvList t 3) =
    some [0xDEADBEEF, 0x12345678, 0] := by decide

theorem test_packf : response (staged [3, 5, 9, 15] [2, 3, 4, 5]) 0x14100000 0 = gives 0x1F37 ∧
    response (staged [0xFFFFFFFFFFFFFFFF] [64]) 0x14040000 0 = gives 0xFFFFFFFFFFFFFFFF := by decide

theorem test_packf_faults : response (staged [] [0, 80]) 0x14080000 0 = fails .invalidBitWidth ∧
    response (staged [] [32, 33]) 0x14080000 0 = fails .capacityExceeded := by decide

theorem test_unpackf : (stepWith (staged [] [2, 3, 4, 5]) (.command 0x18100000 0x1F37)).map (fun t => fvList t 5) =
    some [3, 5, 9, 15, 0] := by decide

theorem test_extract : response State.reset 0x1C141000 0x1F37 = gives 9 ∧
    response State.reset 0x1C010000 0xFEDCBA9876543210 = gives 0xFEDCBA9876543210 := by decide

theorem test_extract_faults : response State.reset 0x1CF01400 0 = fails .fieldRange ∧
    response State.reset 0x1D900000 0 = fails .invalidBitWidth := by decide

theorem test_packi : response (staged [3, 5, 9, 15] [2, 3, 4, 5]) 0x20101000 0 = gives 0x1F37 ∧
    response (staged [] [0, 4]) 0x20080800 0 = fails .invalidBitWidth := by decide

theorem test_packi_failures : response (staged [] [40, 40]) 0x200C0800 0 = fails .lenMismatch ∧
    (stepWith (staged [] [0, 80]) (.command 0x20080800 0)).map (fun t => (t.rsp, t.flt)) =
      some (fails .exceeds64Limit, false) := by decide

theorem test_unpacki : (stepWith (staged [] [2, 3, 4, 5]) (.command 0x24001000 0x1F37)).map (fun t => fvList t 5) =
    some [3, 5, 9, 15, 0] := by decide

theorem test_unpacki_stops : (stepWith (staged [7, 7] [40, 40]) (.command 0x24000800 0xFFFF)).map
      (fun t => (t.rsp, fvList t 2)) = some (fails .exceeds64Limit, [7, 7]) ∧
    response (staged [] [8, 0]) 0x24000800 0 = fails .invalidBitWidth := by decide

/-! ## Staging files, V-S1 -/

theorem test_fvwr : (stepWith State.reset (.command 0x28000003 0xFF)).map (fun t => fvList t 5) =
    some [0, 0, 0, 255, 0] := by decide

theorem test_fvwr_range : response State.reset 0x28000040 1 = fails .indexRange := by decide

theorem test_fvrd : response (staged [0, 0, 0, 255] []) 0x2C000003 0 = gives 255 := by decide

theorem test_fwwr : (stepWith State.reset (.command 0x30000000 0x105)).map (fun t => fwList t 2) = some [5, 0] := by decide

theorem test_fwrd : response (staged [] [5]) 0x34000000 0 = gives 5 ∧
    response State.reset 0x340003FF 0 = fails .indexRange := by decide

/-! ## Cells, V-M1 -/

theorem test_cget : response { State.reset with cell := [0, 42, 0, 0] } 0x40000001 0 = gives 42 ∧
    response State.reset 0x400003FF 0 = fails .indexRange := by decide

theorem test_cset : (stepWith State.reset (.command 0x44000001 0x2A)).map State.cell = some [0, 42, 0, 0] := by decide

/-- A value is cut to `DATA_W` bits (20_memory.md R75). -/
theorem test_cset_truncates : (stepWith { State.reset with cfg := { Config.rc with dataW := 8 } }
    (.command 0x44000001 0x12A)).map State.cell = some [0, 42, 0, 0] := by decide

theorem test_cupd : (stepWith { State.reset with cell := [42, 0, 0, 0] } (.command 0x48000400 0)).map
    (fun t => (t.rsp, t.cell)) = some (gives 84, [84, 0, 0, 0]) := by decide

theorem test_cupd_range : response State.reset 0x48000C00 0 = fails .indexRange ∧
    response State.reset 0x48000004 0 = fails .indexRange := by decide

/-! ## Clock, V-K1 -/

theorem test_tick : (stepWith { State.reset with tick := 2 } (.command 0x60000000 0)).map (fun t => (t.rsp, t.tick)) =
    some (some ⟨.ok, true, 1, true⟩, 0) := by decide

theorem test_tick_no_pulse : (stepWith { State.reset with tick := 1 } (.command 0x60000000 0)).map
    (fun t => (t.rsp, t.tick)) = some (gives 0, 2) := by decide

theorem test_tcur : response { State.reset with tick := 2 } 0x64000000 0 = gives 2 := by decide

theorem test_trst : (stepWith { State.reset with tick := 2 } (.command 0x68000000 0)).map (fun t => (t.rsp, t.tick)) =
    some (silent, 0) := by decide

/-! ## Shift register, V-H1 -/

theorem test_spush : (stepWith { State.reset with sr := [some 3, some 2, some 1] } (.command 0x80000000 4)).map
    (fun t => (t.rsp, t.sr)) = some (gives 1, [some 4, some 3, some 2]) := by decide

theorem test_sget : response { State.reset with sr := [some 2, some 1, none] } 0x84000001 0 = gives 1 ∧
    response { State.reset with sr := [some 2, some 1, none] } 0x840003FF 0 = silent := by decide

theorem test_sgetall : (stepWith { State.reset with sr := [some 2, some 1, none] } (.command 0x88000000 0)).map
    (fun t => (t.rsp, fvList t 4)) = some (gives 3, [2, 1, 0, 0]) := by decide

theorem test_sclr : (stepWith { State.reset with sr := [some 2, some 1, none] } (.command 0x8C000000 0)).map
    (fun t => (t.rsp, t.sr)) = some (silent, [none, none, none]) := by decide

/-! ## Ring buffer, V-R1 -/

/-- V-R1 after step 7: four values written, the buffer full. -/
def fullRing : State :=
  { State.reset with rb := [some 1, some 2, some 3, some 4], ridx := 0, widx := 0, size := 4 }

theorem test_rwr_full : (stepWith fullRing (.command 0xA0000000 5)).map (fun t => (t.rb, t.widx, t.ridx, t.size)) =
    some ([some 5, some 2, some 3, some 4], 1, 1, 4) := by decide

theorem test_rwr : (stepWith State.reset (.command 0xA0000000 1)).map (fun t => (t.rb, t.widx, t.ridx, t.size)) =
    some ([some 1, none, none, none], 1, 0, 1) := by decide

theorem test_rrd : (stepWith fullRing (.command 0xA4000000 0)).map (fun t => (t.rsp, t.rb, t.ridx, t.size)) =
    some (gives 1, [none, some 2, some 3, some 4], 1, 3) := by decide

theorem test_rrd_empty : response State.reset 0xA4000000 0 = silent := by decide

theorem test_rfull : response fullRing 0xA8000000 0 = gives 1 ∧ response State.reset 0xA8000000 0 = gives 0 := by decide

theorem test_rempty : response State.reset 0xAC000000 0 = gives 1 ∧ response fullRing 0xAC000000 0 = gives 0 := by decide

theorem test_rsize : response fullRing 0xB0000000 0 = gives 4 := by decide

/-! ## Agents, V-A vectors -/

/-- V-A1, steps 5 and 8. -/
theorem test_arun : response State.reset 0xC2000003 5 = gives 8 ∧ response State.reset 0xC2000004 4 = silent := by decide

/-- V-A2, step 7: the fault of the second `CELL` undoes the first one's write. -/
theorem test_arun_rollback : (stepWith { State.reset with cell := [5, 0, 0, 0] } (.command 0xC200000A 0)).map
    (fun t => (t.rsp, t.cell)) = some (fails .agentInput, [5, 0, 0, 0]) := by decide

/-- V-A3: both results of a `PAR` with a shared cell, one for each draw. -/
theorem test_par_draws :
    evalAgent Config.rc (fun _ => .ab) 9 (some 0) ⟨[1, 0, 0, 0], 0⟩ = .ok (some 8) ⟨[3, 0, 0, 0], 1⟩ ∧
    evalAgent Config.rc (fun _ => .ba) 9 (some 0) ⟨[1, 0, 0, 0], 0⟩ = .ok (some 7) ⟨[3, 0, 0, 0], 1⟩ := by decide

/-- V-A1, step 11: `SHIFT 0 [1, 0]`. -/
theorem test_shift_stages : evalAgent Config.rc (fun _ => .ab) 6 (some 5) ⟨[], 0⟩ = .ok (some 13) ⟨[], 0⟩ := by decide

/-! ## System commands, V-Y1; configuration and reset -/

theorem test_nop : response State.reset 0x00000000 0 = silent := by decide

theorem test_stat : response { State.reset with flt := true, cause := 2 } 0xF0000000 0 = gives 0x21 := by decide

theorem test_cfgrd : response State.reset 0xF4000000 0 = gives 0x42464331 ∧
    response State.reset 0xF4000007 0 = gives 12 := by decide

theorem test_rc_wellFormed : configOk Config.rc = true := by decide

/-- R8, R296: one parameter out of range, and one entry that names itself. -/
theorem test_config_illFormed : configOk { Config.rc with srStages := 65 } = false ∧
    configOk { Config.rc with ag := [.pipe 0 0] } = false := by decide

theorem test_rst : (stepWith { fullRing with flt := true, cause := 6, tick := 2, cell := [1, 2, 3, 4] }
    (.rst (some (0, 0)))) = some { State.reset with inputs := [] } := by decide

/-- R107: `LDFIELDS (3,2), (5,3)` and `TICKN 2` expand to these commands; R106: `EXTRACT 5, 4, #0x1F37`. -/
theorem test_assembler : expand (.ldfields [(3, 2), (5, 3)]) =
      [.command 0x28000000 3, .command 0x30000000 2, .command 0x28000001 5, .command 0x30000001 3] ∧
    expand (.tickn 2) = [.command 0x60000000 0, .command 0x60000000 0] ∧
    assemble "EXTRACT" [.num 5, .num 4, .opa 0x1F37] = some (.extract 5 4, 0x1F37) ∧
    assemble "ARUN" [.num 3, .dash] = some (.arun 0 3, 0) ∧ assemble "PACK32" [.num 4] = none := by decide

/-- R106, R107 on text, lines of 95_test_vectors.md E1, E4: a command with a comment, a pseudo-instruction, and a
line that gives `#v` to a command that takes none. -/
theorem test_assembleLine :
    assembleLine "UNPACK32 4, 3, #0x3C5 ; E1".toList = some [.command (encode (.unpack32 4 3)) 965] ∧
    assembleLine "LDFIELDS (3,2), (5,3)".toList = some (expand (.ldfields [(3, 2), (5, 3)])) ∧
    assembleLine "LDWIDS 2, 3".toList = some (expand (.ldwids [2, 3])) ∧
    assembleLine "ARUN 3, -".toList = some [.command (encode (.arun 0 3)) 0] ∧
    assembleLine "NOP #0".toList = none := by decide

/-- The host's two entry points agree on a word of the table. -/
theorem test_fetchWord : decodeTableWord 32 0x04102000 = some (.pack32 4 8) ∧
    step (State.reset.withFetchWord 32 0x04102000) = exec (.pack32 4 8) State.reset := ⟨by decide, rfl⟩

/-! ## Witnesses: for each obligation with hypotheses, states and operands that meet them -/

/-- RC in the middle of work: the ring buffer wrapped (program P3), a fault recorded, every file in use. -/
def busy : State :=
  { staged [3, 5, 9, 15] [2, 3, 4, 5] with
    cell := [1, 2, 3, 4]
    tick := 2
    sr := [some 2, some 1, none]
    rb := [some 50, none, none, some 40]
    ridx := 3
    widx := 1
    size := 2
    flt := true
    cause := 6 }

/-- `s` with one input presented. -/
def given (s : State) (e : HostEvent) : State := { s with inputs := [e] }

/-- Where `exec` ends in a next state. -/
def execTo (i : Instr) (s : State) : Option State :=
  match exec i s with
  | .next t => some t
  | .fault _ => none
  | .refused _ => none

theorem exec_of_execTo {i : Instr} {s t : State} (h : execTo i s = some t) : exec i s = .next t := by
  unfold execTo at h
  split at h
  · cases h; assumption
  · cases h
  · cases h

theorem fits_rc (v : Word) : Fits Config.rc v := v.isLt

theorem busy_ringOk : RingOk busy where
  slots := by decide
  fits _ _ v _ := fits_rc v
  ridx_lt := by decide
  widx_lt := by decide
  size_le := by decide
  widx_eq := by decide
  present := by unfold Occupied; decide
  full := by decide

theorem fullRing_ringOk : RingOk fullRing where
  slots := by decide
  fits _ _ v _ := fits_rc v
  ridx_lt := by decide
  widx_lt := by decide
  size_le := by decide
  widx_eq := by decide
  present := by unfold Occupied; decide
  full := by decide

theorem emptyRing_ringOk : RingOk { busy with rb := [none, none, none, none], ridx := 2, widx := 2, size := 0 } where
  slots := by decide
  fits _ _ v _ := fits_rc v
  ridx_lt := by decide
  widx_lt := by decide
  size_le := by decide
  widx_eq := by decide
  present := by unfold Occupied; decide
  full := by decide

theorem busy_stateOk : StateOk busy where
  config := by decide
  cells := ⟨by decide, fun v _ => fits_rc v⟩
  clock := by unfold ClockOk; decide
  shift := ⟨by decide, fun _ _ v _ => fits_rc v⟩
  ring := busy_ringOk
  record := ⟨by decide, fun _ => ⟨.indexRange, by decide⟩⟩

theorem witness_BlockResetGivesResetValues : configOk (given busy (.rst (some (0x04102000, 7)))).cfg = true ∧
    (given busy (.rst (some (0x04102000, 7)))).inputs = [.rst (some (0x04102000, 7))] := by decide

theorem witness_ResetStateMeetsInvariant : configOk { Config.rc with dataW := 1, rbCap := 1, srStages := 64 } = true := by
  decide

theorem witness_StepKeepsInvariant : StateOk (given busy (.command 0xA0000000 5)) ∧
    ∃ t, step (given busy (.command 0xA0000000 5)) = .next t :=
  ⟨⟨busy_stateOk.config, busy_stateOk.cells, busy_stateOk.clock, busy_stateOk.shift,
    ⟨busy_ringOk.slots, busy_ringOk.fits, busy_ringOk.ridx_lt, busy_ringOk.widx_lt, busy_ringOk.size_le,
      busy_ringOk.widx_eq, busy_ringOk.present, busy_ringOk.full⟩, busy_stateOk.record⟩, _, rfl⟩

theorem witness_ConfigurationNeverChanges : (∃ t, step (given busy (.rst none)) = .next t) ∧
    ∃ t, exec (.cset 1) busy = .next t := ⟨⟨_, rfl⟩, _, rfl⟩

theorem witness_IllFormedConfigurationRefused : configOk busy.cfg = true ∧
    configOk { Config.rc with clkInterval := 0 } = false := by decide

theorem witness_IdleHoldsState : configOk busy.cfg = true ∧ busy.inputs = [] := by decide

theorem witness_DecodeOfEncode : WellFormed (.packi 64 64) = true ∧ WellFormed (.cfgrd 8) = true ∧
    WellFormed (.arun 1 1023) = true := by decide

theorem witness_ReservedOpcodesFault : (given busy (.command 0x38000000 0)).inputs = [.command 0x38000000 0] ∧
    ((0x38000000 : CmdWord) >>> 26).toNat = 0x0E ∧ ((0xFFFFFFFF : CmdWord) >>> 26).toNat = 0x3F := by decide

theorem witness_DecodeIsTotal : configOk busy.cfg = true ∧
    (given busy (.command 0x04102000 9)).inputs = [.command 0x04102000 9] ∧ decode 0x04102000 = .ok (.pack32 4 8) ∧
    decode 0x05040000 = .error .illegalValue := by decide

theorem witness_UnusedFieldsFault : UnusedNonzero ⟨0x00, 0, 0, 0, 1⟩ ∧ UnusedNonzero ⟨0x10, 1, 0, 0, 0⟩ ∧
    UnusedNonzero ⟨0x30, 0, 1, 0, 0⟩ ∧ UnusedNonzero ⟨0x09, 0, 1, 2, 0⟩ :=
  ⟨⟨_, _, _, _, rfl, by decide⟩, ⟨_, _, _, _, rfl, by decide⟩, ⟨_, _, _, _, rfl, by decide⟩, _, _, _, _, rfl,
    by decide⟩

theorem witness_FieldLimitsFault : BeyondLimit ⟨0x01, 0, 65, 0, 0⟩ ∧ BeyondLimit ⟨0x08, 0, 0, 65, 0⟩ ∧
    BeyondLimit ⟨0x3D, 0, 0, 0, 9⟩ ∧ ¬ BeyondLimit ⟨0x08, 0, 64, 64, 0⟩ ∧ ¬ BeyondLimit ⟨0x3D, 0, 0, 0, 8⟩ ∧
    (fieldsUsed 0x3D).isSome = true := by unfold BeyondLimit; decide

/-- The other premise of the last clause of FieldLimitsFault, at its boundary. -/
theorem witness_FieldLimitsFault_legal : ¬ UnusedNonzero ⟨0x08, 0, 64, 64, 0⟩ := by
  rintro ⟨iv, a, b, c, h, h'⟩
  cases h
  revert h'
  decide

theorem witness_StepRunsDecodedInstruction : configOk busy.cfg = true ∧
    (given busy (.command 0x10050000 9)).inputs = [.command 0x10050000 9] ∧
    decode 0x10050000 = .ok (.unpack64 1 64) := by decide

theorem witness_FailingCommandsChangeNothing : (∃ t, exec (.fvrd 64) busy = .next t ∧
      t.rsp = some (plainResponse .indexRange false 0) ∧ isFault .indexRange = true) ∧
    ∃ t, exec (.packi 3 2) busy = .next t ∧ t.rsp = some (plainResponse .lenMismatch false 0) :=
  ⟨⟨_, rfl, by decide, rfl⟩, _, rfl, by decide⟩

/-- A step that faults with `FLT` set, one that faults with `FLT` clear, one that does not fault; and a run's start. -/
theorem witness_RunRecordsFirstFault : (∃ t, step (given busy (.command 0x1CF01400 0)) = .next t ∧
      t.rsp = some (plainResponse .fieldRange false 0) ∧ t.cause = 6) ∧
    (∃ t, step (given fullRing (.command 0x1CF01400 0)) = .next t ∧ t.rsp = some (plainResponse .fieldRange false 0)) ∧
    (∃ t, step (given busy (.command 0x200C0800 0)) = .next t ∧ t.rsp = some (plainResponse .lenMismatch false 0)) ∧
    (∀ p rest, (given busy (.command 0x1CF01400 0)).inputs ≠ .rst p :: rest) ∧
    configOk fullRing.cfg = true ∧ fullRing.flt = false ∧ fullRing.cause = 0 :=
  ⟨⟨_, rfl, by decide, by decide⟩, ⟨_, rfl, by decide⟩, ⟨_, rfl, by decide⟩, (fun _ _ h => by cases h),
    by decide, rfl, rfl⟩

theorem witness_OnlyListedResponses : ∃ t, exec (.cupd 0 3) busy = .next t := ⟨_, rfl⟩

theorem witness_PulseExactlyOnWrap : ∃ t, step (given busy (.command 0x60000000 0)) = .next t ∧ pulseOut t = true :=
  ⟨_, rfl, by decide⟩

theorem witness_EveryCommandCompletes : configOk busy.cfg = true := by decide

theorem witness_ReadOnlyCommandsChangeNothing : isPureCommand (.cget 1) = true ∧
    ∃ t, exec (.cget 1) busy = .next t ∧ t.rsp = some (plainResponse .ok true 2) := ⟨rfl, _, rfl, by decide⟩

theorem witness_UnusedOperandIgnored : ignoresOpa (.arun 0 0) = true ∧ ∃ t, exec (.arun 0 0) busy = .next t :=
  ⟨rfl, _, rfl⟩

/-- Uniform commands: each clause at its boundary (`n = 64`; widths 0, 1, 8, 9; 33, 32, 66 and 64 bits). -/
theorem witness_uniform : (64 : BitVec 7).toNat ≤ 64 ∧ (0 : BitVec 8).toNat < 1 ∧ 8 < (9 : BitVec 8).toNat ∧
    32 < (11 : BitVec 7).toNat * (3 : BitVec 8).toNat ∧ (4 : BitVec 7).toNat * (8 : BitVec 8).toNat ≤ 32 ∧
    64 < (3 : BitVec 7).toNat * (22 : BitVec 8).toNat ∧ (64 : BitVec 7).toNat * (1 : BitVec 8).toNat ≤ 64 ∧
    (0 : BitVec 7).toNat * (255 : BitVec 8).toNat ≤ 64 := by decide

/-- `PACKF`, `UNPACKF`, `PACKI`, `UNPACKI`: a zero width; sums 65, 80 and exactly 64; each premise of each clause. -/
theorem witness_variable : (∃ i, i < 2 ∧ fwAt (staged [] [0, 80]) i = 0) ∧ 64 < off (fwAt (staged [] [0, 80])) 2 ∧
    (∀ i, i < 2 → fwAt (staged [] [32, 33]) i ≠ 0) ∧ 64 < off (fwAt (staged [] [32, 33])) 2 ∧
    (∀ i, i < 2 → fwAt (staged [] [32, 32]) i ≠ 0) ∧ off (fwAt (staged [] [32, 32])) 2 ≤ 64 ∧
    (∃ i, i < 2 ∧ fwAt (staged [] [64, 0]) i = 0) ∧ off (fwAt (staged [] [64, 0])) 2 ≤ 64 := by decide

theorem witness_PackiResult : (3 : BitVec 7).toNat ≠ (2 : BitVec 8).toNat ∧ (64 : BitVec 7).toNat = (64 : BitVec 8).toNat ∧
    (64 : BitVec 7).toNat ≤ 64 := by decide

/-- `EXTRACT` and the indices of `FVWR` and its like, at the boundary of each clause. -/
theorem witness_ranges : (0 : BitVec 8).toNat = 0 ∧ 64 < (63 : BitVec 7).toNat + (2 : BitVec 8).toNat ∧
    (63 : BitVec 7).toNat + (1 : BitVec 8).toNat ≤ 64 ∧ 64 ≤ (64 : BitVec 10).toNat ∧ (63 : BitVec 10).toNat < 64 := by
  decide

/-- Fields that are legal and fields that are not, for the encoding clauses of the result statements (R101, R102). -/
theorem witness_DecodesExactly : (decode (wordOf ⟨0x01, 0, 64, 255, 0⟩) = .ok (.pack32 64 255)) ∧
    (decode (wordOf ⟨0x01, 0, 65, 255, 0⟩) = .error .illegalValue) ∧
    (decode (wordOf ⟨0x28, 0, 0, 0, 1⟩) = .error .reservedField) := by decide

theorem witness_ExtractAgreesWithUnpackf : ∃ t, exec (.unpackf 4) { busy with opa := 0x1F37 } = .next t ∧
    t.rsp = some (plainResponse .ok false 0) ∧ (9 : BitVec 7).toNat = off (fwAt busy) 3 ∧
    (5 : BitVec 8).toNat = fwAt busy 3 := ⟨_, rfl, by decide, by decide, by decide⟩

theorem witness_OneLayoutForBothPolicies : (4 : BitVec 7).toNat = (4 : BitVec 8).toNat ∧
    exec (.packf 4) busy = .next (answered busy true 0x1F37) ∧
    exec (.packf 2) (staged [] [32, 33]) = .next (faulted (staged [] [32, 33]) .capacityExceeded) ∧
    exec (.unpackf 2) (staged [] [32, 33]) = .next (faulted (staged [] [32, 33]) .capacityExceeded) :=
  ⟨rfl, exec_of_execTo (by decide), exec_of_execTo (by decide), exec_of_execTo (by decide)⟩

theorem witness_PackThenUnpackKeepsLowBits : exec (.pack32 4 4) busy = .next (answered busy true 0xF953) ∧
    exec (.pack64 4 4) busy = .next (answered busy true 0xF953) ∧
    exec (.packf 4) busy = .next (answered busy true 0x1F37) ∧
    exec (.packi 4 4) busy = .next (answered busy true 0x1F37) :=
  ⟨exec_of_execTo (by decide), exec_of_execTo (by decide), exec_of_execTo (by decide), exec_of_execTo (by decide)⟩

theorem witness_FieldsAreLeastSignificantFirst : exec (.packf 4) busy = .next (answered busy true 0x1F37) ∧
    exec (.pack32 4 4) busy = .next (answered busy true 0xF953) ∧ 4 < fwAt busy 3 :=
  ⟨exec_of_execTo (by decide), exec_of_execTo (by decide), by decide⟩

/-- The cell statements: `CellsOk`, and indices on both sides of `NCELLS = 4` and `NUF = 3`. -/
theorem witness_cells : CellsOk busy ∧ busy.cfg.ncells ≤ (4 : BitVec 10).toNat ∧ (3 : BitVec 10).toNat < busy.cfg.ncells ∧
    busy.cfg.nuf ≤ (3 : BitVec 8).toNat ∧ (2 : BitVec 8).toNat < busy.cfg.nuf :=
  ⟨busy_stateOk.cells, by decide, by decide, by decide, by decide⟩

/-- CellLaws: each of the three commands of its last clause gives a next state. -/
theorem witness_CellLaws : (∃ t, exec (.cget 3) busy = .next t) ∧ (∃ t, exec (.cset 3) busy = .next t) ∧
    ∃ t, exec (.cupd 3 2) busy = .next t := ⟨⟨_, rfl⟩, ⟨_, rfl⟩, _, rfl⟩

theorem witness_TickResult : configOk busy.cfg = true ∧ busy.tick.toNat + 1 = busy.cfg.clkInterval := by decide

theorem witness_PulsePeriod : configOk fullRing.cfg = true ∧ fullRing.tick = 0 := by decide

theorem witness_ClockIsIndependent : ∃ t, step (given busy (.command 0x68000000 0)) = .next t ∧ t.tick ≠ busy.tick :=
  ⟨_, rfl, by decide⟩

theorem witness_ShiftRegisterResult : configOk busy.cfg = true ∧ ShiftOk busy ∧ 2 < busy.cfg.srStages :=
  ⟨by decide, busy_stateOk.shift, by decide⟩

theorem witness_MostRecentFirst : configOk fullRing.cfg = true ∧ ShiftOk fullRing ∧ ∀ x ∈ fullRing.sr, x = none :=
  ⟨by decide, ⟨by decide, fun _ _ v _ => fits_rc v⟩, fun _ h => List.eq_of_mem_replicate h⟩

/-- The ring statements: a buffer neither empty nor full, a full one. -/
theorem witness_RingWriteResult : RingOk busy ∧ busy.size.toNat ≠ busy.cfg.rbCap ∧ RingOk fullRing ∧
    fullRing.size.toNat = fullRing.cfg.rbCap := ⟨busy_ringOk, by decide, fullRing_ringOk, by decide⟩

theorem witness_RingReadResult : configOk busy.cfg = true ∧ RingOk busy ∧ busy.size ≠ 0 := ⟨by decide, busy_ringOk, by decide⟩

/-- FifoWithOverwrite and the empty clause of RingReadResult. -/
theorem witness_FifoWithOverwrite : ∃ s, configOk s.cfg = true ∧ RingOk s ∧ s.size = 0 :=
  ⟨_, by decide, emptyRing_ringOk, rfl⟩

theorem witness_ArunResult : configOk busy.cfg = true ∧ busy.cfg.nagents ≤ (12 : BitVec 10).toNat ∧
    (11 : BitVec 10).toNat < busy.cfg.nagents := by decide

/-- The result 7 of V-A3 (order BA) is admitted. -/
theorem witness_EveryAdmittedResultHasDraws : Eval Config.rc 9 (some 0) [1, 0, 0, 0] (.ok (some 7) [3, 0, 0, 0]) :=
  .parBA (a := 7) (b := 8) (k := 0) (ya := some 3) (yb := some 4) (σ1 := [2, 0, 0, 0]) rfl
    (.transform (a := 7) (k := 1) (y := some 2) rfl (.cell (ci := 0) rfl (by decide))) (.cell (ci := 0) rfl (by decide))

theorem witness_ArunOfCellAgent : busy.cfg.ag[(7 : BitVec 10).toNat]? = some (.cell 0) ∧ CellsOk busy ∧
    busy.cfg.nuf ≤ (storedOpa { busy with opa := 3 }).toNat ∧ (storedOpa { busy with opa := 2 }).toNat < busy.cfg.nuf :=
  ⟨rfl, busy_stateOk.cells, by decide, by decide⟩

theorem witness_ArunWithoutCells : configOk busy.cfg = true ∧ (5 : BitVec 10).toNat < busy.cfg.nagents ∧
    ∀ ci, ¬ ReachesCell busy.cfg (5 : BitVec 10).toNat ci := by
  refine ⟨by decide, by decide, fun ci h => ?_⟩
  have leaf : ∀ e k, Config.rc.ag[e]? = some (.pureFn k) → ¬ ReachesCell Config.rc e ci := by
    intro e k he h
    cases h with
    | here h1 => rw [he] at h1; cases h1
    | through h1 h2 _ => rw [he] at h1; cases h1; cases h2
  cases h with
  | here h1 => cases h1
  | through h1 h2 h3 =>
    cases h1
    rcases List.mem_pair.1 h2 with rfl | rfl
    · exact leaf 0 0 rfl h3
    · exact leaf 1 1 rfl h3

theorem witness_AgentChangesOnlyReachedCells :
    evalAgent Config.rc (fun _ => .ab) 7 (some 1) ⟨[5, 6, 7, 8], 0⟩ = .ok (some 10) ⟨[10, 6, 7, 8], 0⟩ ∧
    ¬ ReachesCell Config.rc 7 1 := by
  refine ⟨by decide, fun h => ?_⟩
  cases h with
  | here h1 => cases h1
  | through h1 h2 _ => cases h1; cases h2

/-- A configuration whose `PAR` entries reach disjoint cells. -/
def disjointConfig : Config := { Config.rc with ag := [.cell 0, .cell 1, .par 0 1 0] }

theorem witness_DisjointParOrderIsImmaterial : configOk disjointConfig = true ∧ ParsDisjoint disjointConfig := by
  refine ⟨by decide, fun e a b k he ci ha hb => ?_⟩
  match e, he with
  | 2, he =>
    cases he
    cases ha with
    | here h1 =>
      cases h1
      cases hb with
      | here h2 => cases h2
      | through h2 h3 _ => cases h2; cases h3
    | through h1 h2 _ => cases h1; cases h2

theorem witness_CombinatorEquations : configOk Config.rc = true ∧ Config.rc.ag[(8 : Nat)]? = some (.transform 7 1) ∧
    Config.rc.ag[(4 : Nat)]? = some (.filter 0 0) ∧ Config.rc.ag[(2 : Nat)]? = some (.pipe 0 1) ∧
    Config.rc.ag[(6 : Nat)]? = some (.shift 0 [1, 0]) ∧ Config.rc.ag[(3 : Nat)]? = some (.feedback 0 3) ∧
    Config.rc.ag[(7 : Nat)]? = some (.cell 0) ∧ Config.rc.ag[(11 : Nat)]? = some .ident ∧
    Config.rc.ag[(0 : Nat)]? = some (.pureFn 0) ∧ Config.rc.ag[(9 : Nat)]? = some (.par 7 8 0) := by decide

/-- A table in which every entry the pipeline laws name stands. -/
def pipelines : List AgentDesc :=
  [.pureFn 0, .pureFn 1, .cell 0, .pipe 0 1, .pipe 3 2, .pipe 1 2, .pipe 0 5, .ident, .pipe 7 0, .pipe 0 7, .shift 0 [1, 2]]

theorem witness_PipelineAlgebra : configOk { Config.rc with ag := pipelines } = true ∧ pipelines[(3 : Nat)]? = some (.pipe 0 1) ∧
    pipelines[(4 : Nat)]? = some (.pipe 3 2) ∧ pipelines[(5 : Nat)]? = some (.pipe 1 2) ∧ pipelines[(6 : Nat)]? = some (.pipe 0 5) ∧
    pipelines[(7 : Nat)]? = some .ident ∧ pipelines[(8 : Nat)]? = some (.pipe 7 0) ∧ pipelines[(9 : Nat)]? = some (.pipe 0 7) ∧
    pipelines[(10 : Nat)]? = some (.shift 0 [1, 2]) := by decide

theorem witness_PipelineAlgebra_chain : IsPipeChain { Config.rc with ag := pipelines } 0 [1, 2] 4 :=
  ⟨3, rfl, 4, rfl, rfl⟩

theorem witness_SystemCommandsResult : (8 : BitVec 10).toNat ≤ 8 ∧ ¬ (9 : BitVec 10).toNat ≤ 8 := by decide

theorem witness_LoadFieldsExpansion : configOk busy.cfg = true ∧ (List.replicate 64 ((7, 8) : Word × Word)).length ≤ 64 := by
  decide

theorem witness_UnloadedWidthsFault : (staged [1, 2] []).fw = State.reset.fw ∧ 1 ≤ (64 : BitVec 7).toNat ∧
    (64 : BitVec 7).toNat ≤ 64 ∧ (64 : BitVec 8).toNat = (64 : BitVec 7).toNat := ⟨rfl, by decide, by decide, by decide⟩

end Sys2Proof.Tests
end

section
/-! PROOFS of the family 00_scope.md: the configuration is fixed (R9), which configurations are well formed (R8, R10,
45_agents.md R296), and that with a well-formed one every step has a next state (70_reset_and_hazards.md R411). -/

namespace Sys2Proof.Machine

open Sys2Proof.Safety

/-! ## What one step can do -/

/-- An ill-formed configuration is refused, whatever the host presents (R10). -/
theorem step_illFormed {s : State} (hc : configOk s.cfg = false) : step s = .refused .illFormedConfig := by
  simp [step, hc]

theorem configOk_of_step_next {s t : State} (h : step s = .next t) : configOk s.cfg = true := by
  by_contra hc
  rw [step_illFormed (Bool.eq_false_of_not_eq_true hc)] at h
  cases h

/-- The ends of a step with a next state: an idle moment, a block reset, a decoded command, or a word that is no
command. -/
theorem step_cases {s t : State} (h : step s = .next t) :
    (s.inputs = [] ∧ t = idle s) ∨
    (∃ p rest, s.inputs = .rst p :: rest ∧ t = blockReset (consume s rest)) ∨
    ∃ w v rest, s.inputs = .command w v :: rest ∧
      ((∃ i, decode w = .ok i ∧ exec i (accept s rest v) = .next t) ∨
        ∃ e, decode w = .error e ∧ t = raiseFault (accept s rest v) .illegalCommand) := by
  have hc := configOk_of_step_next h
  match hi : s.inputs with
  | [] =>
    rw [step_idle hc hi] at h
    cases h
    exact .inl ⟨rfl, rfl⟩
  | .rst p :: rest =>
    rw [step_rst hc hi] at h
    cases h
    exact .inr (.inl ⟨p, rest, rfl, rfl⟩)
  | .command w v :: rest =>
    rw [step_command hc hi] at h
    refine .inr (.inr ⟨w, v, rest, rfl, ?_⟩)
    cases hd : decode w with
    | ok i =>
      rw [hd] at h
      exact .inl ⟨i, rfl, h⟩
    | error e =>
      rw [hd] at h
      cases h
      exact .inr ⟨e, rfl, rfl⟩

/-! ## The configuration is fixed (R9) -/

theorem exec_cfg {i : Instr} {s t : State} (h : exec i s = .next t) : t.cfg = s.cfg := by
  obtain ⟨c, d, -, -, rfl⟩ | ⟨c, -, -, rfl, -⟩ | ⟨r, hr⟩ := exec_shape h
  · exact raiseFault_cfg s c
  · exact failWith_cfg s c
  · exact hr.cfg

theorem step_cfg {s t : State} (h : step s = .next t) : t.cfg = s.cfg := by
  obtain ⟨-, rfl⟩ | ⟨p, rest, -, rfl⟩ | ⟨w, v, rest, -, ⟨i, -, he⟩ | ⟨e, -, rfl⟩⟩ := step_cases h
  · exact idle_cfg s
  · exact blockReset_cfg _
  · exact (exec_cfg he).trans (accept_cfg s rest v)
  · exact raiseFault_cfg _ _

/-! ## Every step has a next state (70_reset_and_hazards.md R411) -/

theorem finishAgent_next {r : EvalResult} (s : State) (h : r ≠ .illFormed) : ∃ t, finishAgent s r = .next t := by
  cases r with
  | ok y t => exact ⟨_, rfl⟩
  | fault d => exact ⟨_, rfl⟩
  | illFormed => exact absurd rfl h

/-- Only `ARUN` could be refused, and it evaluates nothing ill-formed under a well-formed configuration (R297). -/
theorem exec_next (i : Instr) {s : State} (hc : configOk s.cfg = true) : ∃ t, exec i s = .next t := by
  cases i with
  | arun iv a =>
    simp only [exec, execArun]
    split
    · exact ⟨_, rfl⟩
    · next ha => exact finishAgent_next s (evalAgent_ne_illFormed hc _ _ (Nat.lt_of_not_le ha) _ _)
  | _ => exact ⟨_, rfl⟩

theorem step_next {s : State} (hc : configOk s.cfg = true) : ∃ t, step s = .next t := by
  match hi : s.inputs with
  | [] => exact ⟨_, step_idle hc hi⟩
  | .rst p :: rest => exact ⟨_, step_rst hc hi⟩
  | .command w v :: rest =>
    rw [step_command hc hi]
    cases decode w with
    | ok i => exact exec_next i (s := accept s rest v) hc
    | error e => exact ⟨_, rfl⟩

theorem step_refused_iff {s : State} : step s = .refused .illFormedConfig ↔ configOk s.cfg = false := by
  refine ⟨fun h => Bool.eq_false_of_not_eq_true fun hc => ?_, step_illFormed⟩
  obtain ⟨t, ht⟩ := step_next hc
  rw [h] at ht
  cases ht

/-! ## Which configurations are well formed (R8, R10, 45_agents.md R296) -/

/-- 45_agents.md R296 (a) to (e) of the entry `d` at index `e`. -/
def EntryOk (c : Config) (e : Nat) (d : AgentDesc) : Prop :=
  (∀ j ∈ namedBy d, j < e) ∧ (∀ k, d = .pureFn k ∨ (∃ a, d = .transform a k) → k < c.af.length) ∧
  (∀ a p, d = .filter a p → p < c.ap.length) ∧ (∀ a b k, d = .par a b k → k < c.ac.length) ∧
  (∀ ci, d = .cell ci → ci < c.ncells) ∧ (∀ a ss, d = .shift a ss → ss.length ≤ c.maxShift) ∧
  ∀ a n, d = .feedback a n → n ≤ 65535

theorem descOk_iff_entryOk (c : Config) (e : Nat) (d : AgentDesc) : descOk c e d = true ↔ EntryOk c e d := by
  cases d <;> simp [descOk, EntryOk, namedBy, and_assoc]

/-- `descOk_of_tableOkFrom` with its converse: the table is in order exactly when each entry is. -/
theorem tableOkFrom_iff (c : Config) (ds : List AgentDesc) (b : Nat) :
    tableOkFrom c b ds = true ↔ ∀ k d, ds[k]? = some d → descOk c (b + k) d = true := by
  refine ⟨descOk_of_tableOkFrom c ds b, fun h => ?_⟩
  induction ds generalizing b with
  | nil => rfl
  | cons d ds ih =>
    rw [tableOkFrom, Bool.and_eq_true]
    refine ⟨h 0 d rfl, ih (b + 1) fun k d' hk => ?_⟩
    rw [Nat.add_right_comm]
    exact h (k + 1) d' hk

theorem paramsOk_of_ranges {c : Config} (h : Ranges c) : paramsOk c = true := by
  simp only [paramsOk, paramChecks, List.all_cons, List.all_nil, List.all_eq_true, id, Bool.and_eq_true,
    decide_eq_true_eq, and_true]
  exact ⟨h.dataW_pos, h.dataW_le, h.ncells_pos, h.ncells_le, h.init_fits, h.interval_pos, h.interval_lt, h.stages_pos,
    h.stages_le, h.cap_pos, h.cap_lt, h.nuf_le, h.nagents_le, h.maxShift_le⟩

theorem configOk_iff (c : Config) :
    configOk c = true ↔ Ranges c ∧ ∀ (e : Nat) d, c.ag[e]? = some d → EntryOk c e d := by
  refine ⟨fun h => ⟨ranges_of_configOk h, fun e d he => ?_⟩, fun ⟨hr, he⟩ => ?_⟩
  · exact (descOk_iff_entryOk c e d).1 (descOk_of_configOk h he)
  · rw [configOk, paramsOk_of_ranges hr, Bool.true_and, tableOkFrom_iff]
    intro k d hk
    rw [Nat.zero_add]
    exact (descOk_iff_entryOk c k d).2 (he k d hk)

end Sys2Proof.Machine

namespace Sys2Proof.Proofs

open Sys2Proof.Machine Sys2Proof.Safety

/-- Settles O4: every end of a command and every kind of step keeps the field. -/
theorem configurationNeverChanges : Obligations.ConfigurationNeverChanges :=
  ⟨fun _ _ => step_cfg, fun _ _ _ => exec_cfg⟩

/-- Settles O5, from the ranges of R8 with one predicate for a table entry, and progress of `step`. -/
theorem illFormedConfigurationRefused : Obligations.IllFormedConfigurationRefused := by
  refine ⟨fun c => (configOk_iff c).trans ⟨?_, ?_⟩, fun s => ⟨step_refused_iff.symm, step_next⟩⟩
  · rintro ⟨hr, he⟩
    exact ⟨⟨hr.dataW_pos, hr.dataW_le⟩, ⟨hr.ncells_pos, hr.ncells_le⟩, hr.init_fits,
      ⟨hr.interval_pos, Nat.le_sub_one_of_lt hr.interval_lt⟩, ⟨hr.stages_pos, hr.stages_le⟩,
      ⟨hr.cap_pos, Nat.le_of_lt_succ hr.cap_lt⟩, hr.nuf_le, hr.nagents_le, hr.maxShift_le, he⟩
  · rintro ⟨⟨w1, w2⟩, ⟨n1, n2⟩, hinit, ⟨i1, i2⟩, ⟨s1, s2⟩, ⟨b1, b2⟩, hu, hg, hm, he⟩
    exact ⟨⟨w1, w2, n1, n2, hinit, i1, by omega, s1, s2, b1, by omega, hu, hg, hm⟩, he⟩

end Sys2Proof.Proofs
end

section
/-! PROOFS of the family 10_state.md: the invariant of R35 to R47 and R362 holds at reset and every step keeps it. One
rule per state operation, then one line per command. -/

namespace Sys2Proof.Safety

open Sys2Proof.Machine

/-! ## The ring buffer (10_state.md R42 to R45; 44_ring_buffer.md R260, R262) -/

section RingFields

variable (s : State) (v : Word)

@[simp] theorem ringWrite_cfg : (ringWrite s v).cfg = s.cfg := rfl
@[simp] theorem ringWrite_rb : (ringWrite s v).rb = s.rb.set s.widx.toNat (some v) := rfl
@[simp] theorem ringWrite_widx : (ringWrite s v).widx = ringNext s s.widx := rfl

@[simp] theorem ringRead_cfg : (ringRead s).cfg = s.cfg := rfl
@[simp] theorem ringRead_rb : (ringRead s).rb = s.rb.set s.ridx.toNat none := rfl
@[simp] theorem ringRead_ridx : (ringRead s).ridx = ringNext s s.ridx := rfl
@[simp] theorem ringRead_widx : (ringRead s).widx = s.widx := rfl
@[simp] theorem ringRead_size : (ringRead s).size = s.size - 1 := rfl

end RingFields

theorem ringFull_iff (s : State) : ringFull s = true ↔ s.size.toNat = s.cfg.rbCap := by simp [ringFull]

theorem ringEmpty_iff (s : State) : ringEmpty s = true ↔ s.size.toNat = 0 := by simp [ringEmpty]

/-- A position at most one turn past the end of a ring of `n` slots. -/
def ringWrap (n x : Nat) : Nat := if x < n then x else x - n

/-- Slot `j` lies from the read index on, or in what wraps around of the occupied slots. -/
def InWindow (s : State) (j : Nat) : Prop :=
  (s.ridx.toNat ≤ j ∧ j < s.ridx.toNat + s.size.toNat) ∨ j + s.cfg.rbCap < s.ridx.toNat + s.size.toNat

/-- A ring offset of at most `RB_CAP` wraps at most once. -/
theorem add_mod_eq_ringWrap {r k n : Nat} (hr : r < n) (hk : k ≤ n) : (r + k) % n = ringWrap n (r + k) := by
  rw [ringWrap]
  split
  · next h => exact Nat.mod_eq_of_lt h
  · rw [Nat.mod_eq_sub_mod (by omega), Nat.mod_eq_of_lt (by omega)]

/-- An advanced index as a number: the 16 bits of R43 hold every index below `RB_CAP`. -/
theorem ringNext_toNat {s : State} (hc : s.cfg.rbCap < 2 ^ 16) {i : BitVec 16} (hi : i.toNat < s.cfg.rbCap) :
    (ringNext s i).toNat = ringWrap s.cfg.rbCap (i.toNat + 1) := by
  have hlt : (i.toNat + 1) % s.cfg.rbCap < 2 ^ 16 := (Nat.mod_lt _ (by omega)).trans hc
  rw [ringNext, BitVec.toNat_ofNat, Nat.mod_eq_of_lt hlt, add_mod_eq_ringWrap hi (by omega)]

/-- The occupied slots of R45 (b), with no remainder left in their description. -/
theorem occupied_iff {s : State} (hr : s.ridx.toNat < s.cfg.rbCap) (hs : s.size.toNat ≤ s.cfg.rbCap) {j : Nat}
    (hj : j < s.cfg.rbCap) : Occupied s j ↔ InWindow s j := by
  constructor
  · rintro ⟨k, hk, rfl⟩
    rw [InWindow, add_mod_eq_ringWrap hr (by omega), ringWrap]
    split <;> omega
  · rintro (⟨h1, h2⟩ | h)
    · exact ⟨j - s.ridx.toNat, by omega, by rw [Nat.add_sub_cancel' h1, Nat.mod_eq_of_lt hj]⟩
    · refine ⟨j + s.cfg.rbCap - s.ridx.toNat, by omega, ?_⟩
      rw [Nat.add_sub_cancel' (by omega), Nat.add_mod_right, Nat.mod_eq_of_lt hj]

theorem RingOk.widx_toNat {s : State} (h : RingOk s) :
    s.widx.toNat = ringWrap s.cfg.rbCap (s.ridx.toNat + s.size.toNat) := by
  rw [h.widx_eq, add_mod_eq_ringWrap h.ridx_lt h.size_le]

theorem RingOk.isSome_iff {s : State} (h : RingOk s) {j : Nat} (hj : j < s.cfg.rbCap) :
    (s.rb.getD j none).isSome ↔ InWindow s j :=
  (h.present j hj).trans (occupied_iff h.ridx_lt h.size_le hj)

/-- R45 (c) and the bound on `WIDX` (R43) follow from R45 (a); with the occupied slots as a window, what is left of
the ring invariant is linear arithmetic. -/
theorem RingOk.of_window {s : State} (slots : s.rb.length = s.cfg.rbCap) (fits : ∀ x ∈ s.rb, FitsVal s.cfg x)
    (ridx_lt : s.ridx.toNat < s.cfg.rbCap) (size_le : s.size.toNat ≤ s.cfg.rbCap)
    (widx : s.widx.toNat = ringWrap s.cfg.rbCap (s.ridx.toNat + s.size.toNat))
    (present : ∀ j, j < s.cfg.rbCap → ((s.rb.getD j none).isSome ↔ InWindow s j)) : RingOk s where
  slots := slots
  fits := fits
  ridx_lt := ridx_lt
  widx_lt := by grind [ringWrap]
  size_le := size_le
  widx_eq := by rw [widx, add_mod_eq_ringWrap ridx_lt size_le]
  present j hj := (present j hj).trans (occupied_iff ridx_lt size_le hj).symm
  full hfull := BitVec.eq_of_toNat_eq (by grind [ringWrap])

/-- The ring invariant reads the configuration and the ring buffer only. -/
theorem RingOk.congr {s t : State} (h : RingOk s) (hcfg : t.cfg = s.cfg) (hrb : t.rb = s.rb) (hridx : t.ridx = s.ridx)
    (hwidx : t.widx = s.widx) (hsize : t.size = s.size) : RingOk t := by
  cases s
  cases t
  subst hcfg hrb hridx hwidx hsize
  exact ⟨h.slots, h.fits, h.ridx_lt, h.widx_lt, h.size_le, h.widx_eq, h.present, h.full⟩

theorem getD_set_of_lt {α : Type} {l : List α} {i : Nat} (j : Nat) (x d : α) (h : i < l.length) :
    (l.set i x).getD j d = if j = i then x else l.getD j d := by
  rw [List.getD_eq_getElem?_getD, getElem?_set_of_lt l i j x h, List.getD_eq_getElem?_getD]
  split <;> rfl

theorem fitsVal_set {c : Config} {l : List Val} {x : Val} (hl : ∀ y ∈ l, FitsVal c y) (hx : FitsVal c x) (i : Nat) :
    ∀ y ∈ l.set i x, FitsVal c y := by
  intro y hy
  obtain hy | rfl := List.mem_or_eq_of_mem_set hy
  · exact hl y hy
  · exact hx

theorem fitsVal_none (c : Config) : FitsVal c none := fun _ h => nomatch h

theorem fitsVal_replicate_none (c : Config) (n : Nat) : ∀ x ∈ List.replicate n none, FitsVal c x := by
  intro x hx
  rw [List.eq_of_mem_replicate hx]
  exact fitsVal_none c

theorem fitsVal_some {c : Config} {v : Word} (h : Fits c v) : FitsVal c (some v) := fun _ hw => Option.some.inj hw ▸ h

theorem ringWrite_size_toNat {s : State} (hc : s.cfg.rbCap < 2 ^ 16) (hs : s.size.toNat ≤ s.cfg.rbCap) (v : Word) :
    (ringWrite s v).size.toNat = if s.size.toNat = s.cfg.rbCap then s.size.toNat else s.size.toNat + 1 := by
  rw [ringWrite]
  simp only [ringFull_iff]
  split
  · rfl
  · bv_omega

theorem ringWrite_ridx_toNat {s : State} (hc : s.cfg.rbCap < 2 ^ 16) (hr : s.ridx.toNat < s.cfg.rbCap) (v : Word) :
    (ringWrite s v).ridx.toNat =
      if s.size.toNat = s.cfg.rbCap then ringWrap s.cfg.rbCap (s.ridx.toNat + 1) else s.ridx.toNat := by
  rw [ringWrite]
  simp only [ringFull_iff]
  split
  · exact ringNext_toNat hc hr
  · rfl

theorem ringRead_size_toNat {s : State} (he : s.size.toNat ≠ 0) : (ringRead s).size.toNat = s.size.toNat - 1 := by
  rw [ringRead_size]
  bv_omega

/-- R260 keeps R45: the window grows at its end, and gives up its first slot when the buffer was full. -/
theorem RingOk.ringWrite {s : State} (h : RingOk s) (hc : s.cfg.rbCap < 2 ^ 16) {v : Word} (hv : Fits s.cfg v) :
    RingOk (ringWrite s v) := by
  have hr := h.ridx_lt
  have hw := h.widx_lt
  have hs := h.size_le
  have hwidx := h.widx_toNat
  have hsize := ringWrite_size_toNat hc hs v
  have hridx := ringWrite_ridx_toNat hc hr v
  have hnext := ringNext_toNat hc hw
  apply RingOk.of_window
  case slots => simp [h.slots]
  case fits => exact fitsVal_set h.fits (fitsVal_some hv) _
  case ridx_lt | size_le | widx => grind [ringWrap, InWindow, ringWrite_cfg, ringWrite_widx]
  case present =>
    intro j (hj : j < s.cfg.rbCap)
    have hold := h.isSome_iff hj
    rw [ringWrite_rb, getD_set_of_lt j _ _ (h.slots ▸ hw)]
    split <;> grind [ringWrap, InWindow, ringWrite_cfg, ringWrite_widx]

/-- R262 keeps R45: the window gives up its first slot. -/
theorem RingOk.ringRead {s : State} (h : RingOk s) (hc : s.cfg.rbCap < 2 ^ 16) (he : s.size.toNat ≠ 0) :
    RingOk (ringRead s) := by
  have hr := h.ridx_lt
  have hs := h.size_le
  have hwidx := h.widx_toNat
  have hsize := ringRead_size_toNat he
  have hridx := ringNext_toNat hc hr
  apply RingOk.of_window
  case slots => simp [h.slots]
  case fits => exact fitsVal_set h.fits (fitsVal_none _) _
  case ridx_lt | size_le | widx => grind [ringWrap, InWindow, ringRead_cfg, ringRead_ridx, ringRead_widx]
  case present =>
    intro j (hj : j < s.cfg.rbCap)
    have hold := h.isSome_iff hj
    rw [ringRead_rb, getD_set_of_lt j _ _ (h.slots ▸ hr)]
    split <;> grind [ringWrap, InWindow, ringRead_cfg, ringRead_ridx, ringRead_widx]

/-! ## The cell file, the clock, the shift register, the fault record -/

/-- `CellsOk` of a cell file by itself, as an evaluation threads it (45_agents.md R304). -/
def CellFileOk (c : Config) (cells : List Word) : Prop := cells.length = c.ncells ∧ ∀ v ∈ cells, Fits c v

theorem cellsOk_iff {s : State} : CellsOk s ↔ CellFileOk s.cfg s.cell := .rfl

theorem CellFileOk.set {c : Config} {cells : List Word} (h : CellFileOk c cells) (i : Nat) {v : Word} (hv : Fits c v) :
    CellFileOk c (cells.set i v) := by
  refine ⟨by rw [List.length_set, h.1], fun w hw => ?_⟩
  obtain hw | rfl := List.mem_or_eq_of_mem_set hw
  · exact h.2 w hw
  · exact hv

/-- An evaluation writes nothing but results of update functions, which fit (41_cells.md R204). -/
theorem CellFileOk.evalAgent {c : Config} {order : Nat → ParOrder} {e : Nat} {x y : Val} {t t' : Thread}
    (h : CellFileOk c t.cells) (he : evalAgent c order e x t = .ok y t') : CellFileOk c t'.cells :=
  evalAgent_keeps c order (fun u => CellFileOk c u.cells) (fun _ hu => hu) e x t y t'
    (fun ci _ _ _ hk hu => hu.set ci (applyUpdate_fits c _ _ hk)) he h

theorem tickAfter_lt {s : State} (hc : 0 < s.cfg.clkInterval) : tickAfter s < s.cfg.clkInterval := Nat.mod_lt _ hc

/-- A push keeps the length and the fit of the slots (43_shift_register.md R240). -/
theorem ShiftOk.pushedSlots {s : State} (h : ShiftOk s) {v : Word} (hv : Fits s.cfg v) :
    ShiftOk { s with sr := pushedSlots s v } := by
  refine ⟨by simp [Machine.pushedSlots, h.1], fun x hx => ?_⟩
  obtain rfl | hx := List.mem_cons.1 (List.mem_of_mem_take hx)
  · exact fitsVal_some hv
  · exact h.2 x hx

theorem shiftOk_cleared (s : State) : ShiftOk { s with sr := List.replicate s.cfg.srStages none } :=
  ⟨List.length_replicate, fitsVal_replicate_none _ _⟩

theorem RecordOk.raiseFault {s : State} (h : RecordOk s) {c : Status} (hc : isFault c = true) :
    RecordOk (raiseFault s c) := by
  refine ⟨fun hf => absurd hf Bool.noConfusion, fun _ => ?_⟩
  rw [raiseFault_cause, causeAfter]
  split
  · next hf => exact h.2 hf
  · exact ⟨c, hc, rfl⟩

/-! ## Reset (70_reset_and_hazards.md R400) -/

theorem ringOk_resetOf {c : Config} (hc : 0 < c.rbCap) : RingOk (State.resetOf c) := by
  apply RingOk.of_window
  case slots => exact List.length_replicate
  case fits => exact fitsVal_replicate_none _ _
  case ridx_lt => exact hc
  case size_le => exact Nat.zero_le _
  case widx => simp [State.resetOf, ringWrap]
  case present => simp [State.resetOf, InWindow]

theorem stateOk_resetOf {c : Config} (hc : configOk c = true) : StateOk (State.resetOf c) where
  config := hc
  cells := ⟨rfl, (ranges_of_configOk hc).init_fits⟩
  clock := (ranges_of_configOk hc).interval_pos
  shift := shiftOk_cleared (State.resetOf c)
  ring := ringOk_resetOf (ranges_of_configOk hc).cap_pos
  record := ⟨fun _ => rfl, fun hf => nomatch hf⟩

/-! ## What the state operations do to the invariant -/

section Operations

variable {s b : State} (h : StateOk s)

include h

/-- The invariant does not read the staging files, the port and the draw counter. -/
theorem StateOk.with_unread {fv : Vector Word 64} {fw : Vector Width 64} {inputs : List HostEvent} {opa : Word}
    {rsp : Option Response} {draw : Nat} :
    StateOk { s with fv := fv, fw := fw, inputs := inputs, opa := opa, rsp := rsp, draw := draw } :=
  ⟨h.config, h.cells, h.clock, h.shift, h.ring.congr rfl rfl rfl rfl rfl, h.record⟩

theorem StateOk.with_cell {cells : List Word} (hc : CellFileOk s.cfg cells) : StateOk { s with cell := cells } :=
  ⟨h.config, hc, h.clock, h.shift, h.ring.congr rfl rfl rfl rfl rfl, h.record⟩

theorem StateOk.with_tick {n : Nat} (hn : n < s.cfg.clkInterval) : StateOk { s with tick := BitVec.ofNat 32 n } := by
  have hlt : n < 2 ^ 32 := hn.trans (ranges_of_configOk h.config).interval_lt
  refine ⟨h.config, h.cells, ?_, h.shift, h.ring.congr rfl rfl rfl rfl rfl, h.record⟩
  rwa [ClockOk, BitVec.toNat_ofNat, Nat.mod_eq_of_lt hlt]

theorem StateOk.with_sr {sr : List Val} (hs : ShiftOk { s with sr := sr }) : StateOk { s with sr := sr } :=
  ⟨h.config, h.cells, h.clock, hs, h.ring.congr rfl rfl rfl rfl rfl, h.record⟩

theorem StateOk.ringWrite {v : Word} (hv : Fits s.cfg v) : StateOk (ringWrite s v) :=
  ⟨h.config, h.cells, h.clock, h.shift, h.ring.ringWrite (ranges_of_configOk h.config).cap_lt hv, h.record⟩

theorem StateOk.ringRead (he : s.size.toNat ≠ 0) : StateOk (ringRead s) :=
  ⟨h.config, h.cells, h.clock, h.shift, h.ring.ringRead (ranges_of_configOk h.config).cap_lt he, h.record⟩

theorem StateOk.raiseFault {c : Status} (hc : isFault c = true) : StateOk (raiseFault s c) :=
  ⟨h.config, h.cells, h.clock, h.shift, h.ring.congr rfl rfl rfl rfl rfl, h.record.raiseFault hc⟩

theorem StateOk.blockReset : StateOk (blockReset s) := (stateOk_resetOf h.config).with_unread

/-! A check keeps the invariant when what it guards does. -/

theorem StateOk.unlessFault {p : Prop} {_ : Decidable p} {c : Status} (hc : isFault c = true)
    (hb : ¬ p → StateOk b) : StateOk (if p then Machine.raiseFault s c else b) := by
  split
  · exact h.raiseFault hc
  · next hp => exact hb hp

theorem StateOk.unlessFail {p : Prop} {_ : Decidable p} {c : Status} (hb : StateOk b) :
    StateOk (if p then failWith s c else b) := by
  split
  · exact h.with_unread
  · exact hb

theorem StateOk.limitChecked {i : Instr} (hb : StateOk b) : StateOk (limitChecked i s b) := by
  rw [Machine.limitChecked]
  split
  · exact hb
  · exact h.raiseFault rfl

theorem StateOk.uniformChecked {widthOk : Bool} {cap n w : Nat} (hb : StateOk b) :
    StateOk (uniformChecked s widthOk cap n w b) :=
  h.unlessFault rfl fun _ => h.unlessFault rfl fun _ => hb

theorem StateOk.fieldsChecked {ws : List Nat} (hb : StateOk b) : StateOk (fieldsChecked s ws b) :=
  h.unlessFault rfl fun _ => h.unlessFault rfl fun _ => hb

theorem StateOk.resultChecked {ws : List Nat} (hb : StateOk b) : StateOk (resultChecked s ws b) :=
  h.unlessFail (h.unlessFault rfl fun _ => hb)

theorem StateOk.stagingChecked {idx : Nat} (hb : StateOk b) : StateOk (stagingChecked s idx b) :=
  h.unlessFault rfl fun _ => hb

theorem StateOk.cellChecked {c : Nat} (hb : StateOk b) : StateOk (cellChecked s c b) :=
  h.unlessFault rfl fun _ => hb

end Operations

/-! ## The commands -/

/-- Whatever next state the result holds meets the invariant. -/
def EndsOk (r : Result) : Prop := ∀ t, r = .next t → StateOk t

theorem StateOk.endsOk {t : State} (h : StateOk t) : EndsOk (.next t) := fun _ ht => Host.Outcome.next.inj ht ▸ h

section Commands

variable {s : State} (h : StateOk s)

include h

theorem StateOk.execCupd (c : BitVec 10) (k : BitVec 8) : EndsOk (execCupd c k s) := by
  refine StateOk.endsOk (h.cellChecked (h.unlessFault rfl fun hk => ?_))
  have hfits := applyUpdate_fits s.cfg k.toNat (readCell s.cell c.toNat) (Nat.lt_of_not_le hk)
  exact (h.with_cell ((cellsOk_iff.1 h.cells).set c.toNat hfits)).with_unread

theorem StateOk.execRrd : EndsOk (execRrd s) := by
  refine StateOk.endsOk ?_
  split
  · exact h.with_unread
  · next he => exact (h.ringRead (mt (ringEmpty_iff s).2 he)).with_unread

theorem StateOk.execArun (iv : BitVec 1) (a : BitVec 10) : EndsOk (execArun iv a s) := by
  rw [Machine.execArun]
  split
  · exact (h.raiseFault rfl).endsOk
  · cases he : evalAgent s.cfg Config.parOrder a.toNat (agentInput s iv) (threadOf s) with
    | ok y t => exact (h.with_cell (CellFileOk.evalAgent (t := threadOf s) h.cells he)).with_unread.endsOk
    | fault d => exact (h.with_unread.raiseFault rfl).endsOk
    | illFormed => exact fun _ ht => nomatch ht

/-- Every command keeps the invariant, with any operand word and any field values. -/
theorem StateOk.exec (i : Instr) : EndsOk (exec i s) := by
  have hopa : Fits s.cfg (opaData s) := truncData_fits s.cfg s.opa
  have interval_pos := (ranges_of_configOk h.config).interval_pos
  cases i with
  | nop | tcur | sget | sgetall | rfull | rempty | rsize | stat => exact h.with_unread.endsOk
  | pack32 | unpack32 | pack64 | unpack64 => exact (h.limitChecked (h.uniformChecked h.with_unread)).endsOk
  | packf | unpackf => exact (h.limitChecked (h.fieldsChecked h.with_unread)).endsOk
  | unpacki => exact (h.limitChecked (h.resultChecked h.with_unread)).endsOk
  | cfgrd => exact (h.limitChecked h.with_unread).endsOk
  | fvwr | fvrd | fwwr | fwrd => exact (h.stagingChecked h.with_unread).endsOk
  | cget => exact (h.cellChecked h.with_unread).endsOk
  | cset c => exact (h.cellChecked (h.with_cell ((cellsOk_iff.1 h.cells).set c.toNat hopa)).with_unread).endsOk
  | tick => exact (h.with_tick (tickAfter_lt interval_pos)).with_unread.endsOk
  | trst => exact (h.with_tick interval_pos).with_unread.endsOk
  | spush => exact (h.with_sr (h.shift.pushedSlots hopa)).with_unread.endsOk
  | sclr => exact (h.with_sr (shiftOk_cleared s)).with_unread.endsOk
  | rwr => exact (h.ringWrite hopa).with_unread.endsOk
  | extract => exact (h.unlessFault rfl fun _ => h.unlessFault rfl fun _ => h.with_unread).endsOk
  | packi => exact (h.limitChecked (h.unlessFail (h.resultChecked h.with_unread))).endsOk
  | cupd c k => exact h.execCupd c k
  | rrd => exact h.execRrd
  | arun iv a => exact h.execArun iv a

end Commands

theorem StateOk.step {s t : State} (h : StateOk s) (hstep : step s = .next t) : StateOk t := by
  obtain ⟨-, rfl⟩ | ⟨p, rest, -, rfl⟩ | ⟨w, v, rest, -, ⟨i, -, he⟩ | ⟨e, -, rfl⟩⟩ := step_cases hstep
  · exact h.with_unread
  · exact StateOk.blockReset h.with_unread
  · exact StateOk.exec h.with_unread i t he
  · exact StateOk.raiseFault h.with_unread rfl

end Sys2Proof.Safety

namespace Sys2Proof.Proofs

open Sys2Proof.Machine Sys2Proof.Safety

/-- Settles O2: at reset each file holds its initial values, and the window of the ring buffer is empty. -/
theorem resetStateMeetsInvariant : Obligations.ResetStateMeetsInvariant :=
  ⟨fun _ hc => stateOk_resetOf hc, stateOk_resetOf (by decide)⟩

/-- Settles O3: an idle moment, a block reset, each command and a rejected word keep the invariant. -/
theorem stepKeepsInvariant : Obligations.StepKeepsInvariant := fun _ _ => StateOk.step

end Sys2Proof.Proofs
end

section
/-! PROOFS of the family 20_memory.md: the read-only commands change nothing but the response (R79), and a packed word
holds its fields least significant first (R72, 40_codec.md R130). -/

namespace Sys2Proof.Safety

open Sys2Proof.Machine

/-! ## The read-only commands (20_memory.md R79) -/

/-- A read-only command always has a next state: of all commands only `ARUN` could be refused. -/
theorem exec_next_of_isPureCommand {i : Instr} (hp : isPureCommand i = true) (s : State) : ∃ t, exec i s = .next t := by
  cases i with
  | arun => cases hp
  | _ => exact ⟨_, rfl⟩

/-- A read-only command answers with the response alone, unless it faults. -/
theorem rsp_of_isPureCommand {i : Instr} {s t : State} (hp : isPureCommand i = true) (h : exec i s = .next t) :
    ∃ r, t.rsp = some r ∧ (isFault r.st = false → t = { s with rsp := some r }) := by
  obtain ⟨c, d, hc, -, rfl⟩ | ⟨c, -, -, rfl, -⟩ | ⟨r, hr⟩ := exec_shape h
  · exact ⟨_, rfl, fun hf => absurd (hc.symm.trans hf) Bool.noConfusion⟩
  · exact ⟨_, rfl, fun _ => rfl⟩
  · exact ⟨r, hr.rsp, fun _ => hr.pure hp⟩

/-- A read-only command does not look at the response presented before it, and answers over it. -/
theorem exec_with_rsp {i : Instr} (hp : isPureCommand i = true) (s : State) (r : Option Response) :
    exec i { s with rsp := r } = exec i s := by
  cases i with
  | nop | fvrd | fwrd | cget | tcur | sget | rfull | rempty | rsize | stat | cfgrd | pack32 | pack64 | packf | packi
  | extract => rfl
  | unpack32 | unpack64 | unpackf | unpacki | fvwr | fwwr | cset | cupd | tick | trst | spush | sgetall | sclr | rwr
  | rrd | arun => cases hp

/-! ## Passing the checks of a command -/

section Checks

variable {s b : State} {x : Word}

theorem raiseFault_ne_answered (c : Status) : raiseFault s c ≠ answered s true x := fun h =>
  absurd (congrArg State.rsp h) (by simp [answered, plainResponse])

theorem unlessFault_eq_answered {p : Prop} {_ : Decidable p} {c : Status}
    (h : (if p then raiseFault s c else b) = answered s true x) : ¬ p ∧ b = answered s true x := by
  split at h
  · exact absurd h (raiseFault_ne_answered c)
  · next hp => exact ⟨hp, h⟩

theorem limitChecked_eq_answered {i : Instr} (h : limitChecked i s b = answered s true x) : b = answered s true x := by
  rw [limitChecked] at h
  split at h
  · exact h
  · exact absurd h (raiseFault_ne_answered _)

theorem uniformChecked_eq_answered {widthOk : Bool} {cap n w : Nat}
    (h : uniformChecked s widthOk cap n w b = answered s true x) : n * w ≤ cap ∧ b = answered s true x := by
  obtain ⟨-, h⟩ := unlessFault_eq_answered h
  obtain ⟨hcap, h⟩ := unlessFault_eq_answered h
  exact ⟨Nat.le_of_not_lt hcap, h⟩

theorem fieldsChecked_eq_answered {ws : List Nat} (h : fieldsChecked s ws b = answered s true x) :
    ws.sum ≤ 64 ∧ b = answered s true x := by
  obtain ⟨-, h⟩ := unlessFault_eq_answered h
  obtain ⟨hsum, h⟩ := unlessFault_eq_answered h
  exact ⟨Nat.le_of_not_lt hsum, h⟩

theorem respondWord_eq_answered {v : Nat} (h : respondWord s v = answered s true x) : x = BitVec.ofNat 64 v := by
  have hrsp := congrArg State.rsp h
  simpa [answered, plainResponse, eq_comm] using hrsp

end Checks

/-! ## The fields of a packed word (20_memory.md R72, 40_codec.md R130) -/

theorem packFields_eq (s : State) {n : Nat} (hn : n ≤ 64) :
    packFields s n = respondWord s (packSum (fvAt s) (fwAt s) n) := by
  rw [packFields, fvList_eq_map s n hn, fwList_eq_map s n hn, packCore_map_range]

theorem packUniform_eq (s : State) {n : Nat} (hn : n ≤ 64) (w : Nat) :
    packUniform s n w = respondWord s (packSum (fvAt s) (fun _ => w) n) := by
  rw [packUniform, fvList_eq_map s n hn, uniformWidths_eq_map, packCore_map_range]

/-- Bit `j` of a field, read at the field's offset. -/
theorem testBit_fieldAt (p : Nat) (w : Nat → Nat) {i j : Nat} (hj : j < w i) :
    (fieldAt p w i).testBit j = p.testBit (off w i + j) := by
  simp [fieldAt, hj]

/-- Bit `j` of field `i` stands at `off(i) + j`. -/
theorem testBit_packSum (v w : Nat → Nat) {n i j : Nat} (hi : i < n) (hj : j < w i) :
    (packSum v w n).testBit (off w i + j) = (v i).testBit j := by
  rw [← testBit_fieldAt _ w hj, fieldAt_packSum v w n i hi]
  simp [hj]

/-- The bits of a field end where the widths up to it do. -/
theorem off_add_lt (w : Nat → Nat) {n i j : Nat} (hi : i < n) (hj : j < w i) : off w i + j < off w n :=
  calc off w i + j < off w i + w i := Nat.add_lt_add_left hj _
    _ = off w (i + 1) := (off_succ w i).symm
    _ ≤ off w n := off_mono w hi

/-- `x` is `FV[0..n-1]` packed with the widths `w`, all of them within the 64 bits of a word. -/
def IsPacked (s : State) (w : Nat → Nat) (n : Nat) (x : Word) : Prop :=
  off w n ≤ 64 ∧ x = BitVec.ofNat 64 (packSum (fvAt s) w n)

theorem IsPacked.getLsbD {s : State} {w : Nat → Nat} {n : Nat} {x : Word} (h : IsPacked s w n x) {i j : Nat} (hi : i < n)
    (hj : j < w i) : x.getLsbD (off w i + j) = (s.fv.getD i 0).getLsbD j := by
  obtain ⟨hfit, rfl⟩ := h
  have hlt : off w i + j < 64 := (off_add_lt w hi hj).trans_le hfit
  calc (BitVec.ofNat 64 (packSum (fvAt s) w n)).getLsbD (off w i + j)
      = (packSum (fvAt s) w n).testBit (off w i + j) := by
        rw [BitVec.getLsbD_ofNat, decide_eq_true hlt, Bool.true_and]
    _ = (fvAt s i).testBit j := testBit_packSum _ w hi hj

section Packs

variable {n : BitVec 7} {w : BitVec 8} {s : State} {x : Word} (hn : n.toNat ≤ 64)

include hn

theorem isPacked_of_packf (h : exec (.packf n) s = .next (answered s true x)) : IsPacked s (fwAt s) n.toNat x := by
  obtain ⟨hsum, h⟩ := fieldsChecked_eq_answered (limitChecked_eq_answered (Host.Outcome.next.inj h))
  rw [fwList_eq_map s _ hn, sum_map_range] at hsum
  rw [packFields_eq s hn] at h
  exact ⟨hsum, respondWord_eq_answered h⟩

/-- A uniform pack within a capacity of at most 64 bits. -/
theorem isPacked_of_uniformChecked {widthOk : Bool} {cap : Nat} (hcap : cap ≤ 64)
    (h : uniformChecked s widthOk cap n.toNat w.toNat (packUniform s n.toNat w.toNat) = answered s true x) :
    IsPacked s (fun _ => w.toNat) n.toNat x := by
  obtain ⟨hsum, h⟩ := uniformChecked_eq_answered h
  rw [packUniform_eq s hn] at h
  exact ⟨(off_const _ _).trans_le (hsum.trans hcap), respondWord_eq_answered h⟩

theorem isPacked_of_pack32 (h : exec (.pack32 n w) s = .next (answered s true x)) :
    IsPacked s (fun _ => w.toNat) n.toNat x :=
  isPacked_of_uniformChecked hn (by decide) (limitChecked_eq_answered (Host.Outcome.next.inj h))

theorem isPacked_of_pack64 (h : exec (.pack64 n w) s = .next (answered s true x)) :
    IsPacked s (fun _ => w.toNat) n.toNat x :=
  isPacked_of_uniformChecked hn le_rfl (limitChecked_eq_answered (Host.Outcome.next.inj h))

end Packs

end Sys2Proof.Safety

namespace Sys2Proof.Proofs

open Sys2Proof.Machine Sys2Proof.Safety

/-- Settles O19: without a fault only the response differs, and a read-only command does not look at it. -/
theorem readOnlyCommandsChangeNothing : Obligations.ReadOnlyCommandsChangeNothing := by
  intro i s hp
  obtain ⟨t, ht⟩ := exec_next_of_isPureCommand hp s
  obtain ⟨r, hr, hpure⟩ := rsp_of_isPureCommand hp ht
  refine ⟨t, r, ht, hr, fun hf => ⟨hpure hf, ?_⟩⟩
  calc exec i t = exec i { s with rsp := some r } := by rw [← hpure hf]
    _ = exec i s := exec_with_rsp hp s _
    _ = .next t := ht

/-- Settles O35: a pack that succeeds answers with the packed sum, whose fields do not overlap and fit the word. -/
theorem fieldsAreLeastSignificantFirst : Obligations.FieldsAreLeastSignificantFirst := by
  refine fun n w s x hn => ⟨fun h i j => (isPacked_of_packf hn h).getLsbD, fun h i j hi hj => ?_⟩
  have hx : IsPacked s (fun _ => w.toNat) n.toNat x := h.elim (isPacked_of_pack32 hn) (isPacked_of_pack64 hn)
  rw [← off_const]
  exact hx.getLsbD hi hj

end Sys2Proof.Proofs
end

section
/-! PROOFS of the family 30_encoding.md: the decoder inverts the encoder (R94, R95, R99), which words are commands
(R100 to R102, R104), the pulse line (R98), the operand word (R92), and the expansion of `LDFIELDS` (R107). -/

namespace Sys2Proof

open Sys2Proof.Safety

/-! ## Decoding and encoding are inverse (R93 to R95, R99, R104) -/

/-- The opcode of an instruction selects its own format, whose unused fields the encoder leaves 0. -/
theorem decodeFields_encodeFields {i : Instr} (h : WellFormed i = true) : decodeFields (encodeFields i) = .ok i := by
  cases i <;> exact checked_eq_ok.2 ⟨rfl, h, rfl⟩

theorem decodeFields_eq_ok_iff {f : Fields} {i : Instr} :
    decodeFields f = .ok i ↔ WellFormed i = true ∧ encodeFields i = f := by
  refine ⟨decodeFields_eq_ok, ?_⟩
  rintro ⟨hw, rfl⟩
  exact decodeFields_encodeFields hw

theorem encode_eq_iff {i : Instr} {w : CmdWord} : encode i = w ↔ encodeFields i = fieldsOf w := by
  rw [← wordOf_fieldsOf w, fieldsOf_wordOf]
  exact ⟨fun h => wordOf_injective h, fun h => congrArg wordOf h⟩

/-- The commands among the words are the encodings of the well-formed instructions. -/
theorem decode_eq_ok_iff {w : CmdWord} {i : Instr} : decode w = .ok i ↔ WellFormed i = true ∧ encode i = w := by
  rw [decode, decodeFields_eq_ok_iff, encode_eq_iff]

/-! ## What the encoder writes (R95, R99 to R102) -/

theorem fieldsUsed_encodeFields (i : Instr) : (fieldsUsed (encodeFields i).op.toNat).isSome = true := by
  cases i <;> rfl

theorem iv_encodeFields (i : Instr) : (encodeFields i).iv = 0 ∨ (encodeFields i).op = 0x30 := by
  cases i with
  | arun => exact .inr rfl
  | _ => exact .inl rfl

theorem unusedNonzero_iff {f : Fields} {iv a b c : Bool} (h : fieldsUsed f.op.toNat = some (iv, a, b, c)) :
    UnusedNonzero f ↔ iv = false ∧ f.iv ≠ 0 ∨ a = false ∧ f.a ≠ 0 ∨ b = false ∧ f.b ≠ 0 ∨ c = false ∧ f.c ≠ 0 := by
  refine ⟨?_, fun hn => ⟨iv, a, b, c, h, hn⟩⟩
  rintro ⟨iv', a', b', c', h', hn⟩
  cases h.symm.trans h'
  exact hn

theorem not_unusedNonzero_encodeFields (i : Instr) : ¬ UnusedNonzero (encodeFields i) := by
  intro h
  cases i <;> simpa [encodeFields] using (unusedNonzero_iff rfl).1 h

theorem beyondLimit_encodeFields (i : Instr) : BeyondLimit (encodeFields i) ↔ WellFormed i = false := by
  cases i with
  | packi => simp [BeyondLimit, encodeFields, WellFormed, or_iff_not_imp_left]
  | _ => simp [BeyondLimit, encodeFields, WellFormed]

/-! ## Which words are commands (R99 to R102) -/

theorem eq_ofNat_of_toNat_eq {n k : Nat} {x : BitVec n} (h : x.toNat = k) : x = BitVec.ofNat n k := by
  rw [← h, BitVec.ofNat_toNat, BitVec.setWidth_eq]

/-- One case per row of the opcode map: the row's format asks for its unused fields to be 0 and the rest for the limits
of its instruction. -/
theorem exists_decodeFields_eq_ok {f : Fields} (hu : (fieldsUsed f.op.toNat).isSome = true) (hn : ¬ UnusedNonzero f)
    (hb : ¬ BeyondLimit f) : ∃ i, decodeFields f = .ok i := by
  unfold decodeFields
  split
  case h_33 => exact absurd hu (by simp_all [fieldsUsed])
  all_goals
    rename_i hop
    obtain ⟨op, iv, a, b, c⟩ := f
    obtain rfl := eq_ofNat_of_toNat_eq hop
    rw [unusedNonzero_iff rfl] at hn
    refine ⟨_, checked_eq_ok.2 ⟨?_, ?_, rfl⟩⟩
    · simpa [and_assoc] using hn
    · simp_all [BeyondLimit, WellFormed]

/-- The commands: a listed opcode, unused fields 0, used ones within their limits (R100 to R102). -/
theorem exists_decodeFields_eq_ok_iff {f : Fields} : (∃ i, decodeFields f = .ok i) ↔
    (fieldsUsed f.op.toNat).isSome = true ∧ ¬ UnusedNonzero f ∧ ¬ BeyondLimit f := by
  refine ⟨?_, fun ⟨hu, hn, hb⟩ => exists_decodeFields_eq_ok hu hn hb⟩
  rintro ⟨i, h⟩
  obtain ⟨hw, rfl⟩ := decodeFields_eq_ok h
  refine ⟨fieldsUsed_encodeFields i, not_unusedNonzero_encodeFields i, ?_⟩
  simp [beyondLimit_encodeFields, hw]

theorem exists_decode_wordOf_iff {f : Fields} : (∃ i, decode (wordOf f) = .ok i) ↔
    (fieldsUsed f.op.toNat).isSome = true ∧ ¬ UnusedNonzero f ∧ ¬ BeyondLimit f := by
  rw [decode_wordOf, exists_decodeFields_eq_ok_iff]

theorem op_fieldsOf (w : CmdWord) : (fieldsOf w).op.toNat = (w >>> 26).toNat := by
  have hw := w.isLt
  simp only [fieldsOf, BitVec.extractLsb'_toNat, BitVec.toNat_ushiftRight, Nat.shiftRight_eq_div_pow]
  omega

end Sys2Proof

namespace Sys2Proof.Machine

open Sys2Proof.Safety

/-! ## One step on a command word (R91, R104) -/

section StepOnWord

variable {s : State} {w : CmdWord} {v : Word} {rest : List HostEvent} (hc : configOk s.cfg = true)
  (hi : s.inputs = .command w v :: rest)

include hc hi

theorem step_of_decode_eq_ok {i : Instr} (hd : decode w = .ok i) :
    step s = exec i { s with inputs := rest, opa := v } := by
  rw [step_command hc hi, hd]
  rfl

theorem step_of_not_decodes (hd : ¬ ∃ i, decode w = .ok i) :
    step s = .next (faulted { s with inputs := rest, opa := v } .illegalCommand) := by
  rw [step_command hc hi]
  cases h : decode w with
  | ok i => exact absurd ⟨i, h⟩ hd
  | error e => rfl

end StepOnWord

/-! ## The pulse line (R98; 42_clock.md R220) -/

theorem pulseOut_of_exec {i : Instr} {s t : State} (h : exec i s = .next t) (hi : i ≠ .tick) : pulseOut t = false := by
  obtain ⟨c, d, -, -, rfl⟩ | ⟨c, -, -, rfl, -⟩ | ⟨r, hr⟩ := exec_shape h
  · rfl
  · rfl
  · refine Bool.eq_false_of_not_eq_true fun hp => hi (hr.pulse ?_).1
    rwa [pulseOut, hr.rsp] at hp

/-- The counter is below the interval, and so below `2^32`: it is 0 exactly when the `TICK` wrapped it. -/
theorem pulseOut_of_exec_tick {s t : State} (hc : configOk s.cfg = true) (h : exec .tick s = .next t) :
    pulseOut t = true ↔ t.tick = 0 := by
  cases h
  have hr := ranges_of_configOk hc
  have hlt : tickAfter s < 2 ^ 32 := (Nat.mod_lt _ hr.interval_pos).trans hr.interval_lt
  change (tickAfter s == 0) = true ↔ BitVec.ofNat 32 (tickAfter s) = 0
  rw [beq_iff_eq, ← BitVec.toNat_inj, BitVec.toNat_ofNat, Nat.mod_eq_of_lt hlt]
  rfl

/-! ## Commands without an operand word (R92) -/

/-- `s` with another operand word. -/
def withOpa (v : Word) (s : State) : State := { s with opa := v }

/-- A check whose condition does not look at `OPA`. -/
theorem ite_withOpa {p : Prop} {_ : Decidable p} {a b a' b' : State} {v : Word} (ha : a' = withOpa v a)
    (hb : b' = withOpa v b) : (if p then a' else b') = withOpa v (if p then a else b) := by
  rw [ha, hb, apply_ite (withOpa v)]

theorem finishAgent_withOpa {r : EvalResult} {s t : State} (h : finishAgent s r = .next t) (v : Word) :
    finishAgent (withOpa v s) r = .next (withOpa v t) := by
  cases r with
  | ok y t => cases h; rfl
  | fault d => cases h; rfl
  | illFormed => cases h

/-- `ARUN` with `IV = 0` evaluates its agent on the absent input (R96). -/
theorem execArun_withOpa {a : BitVec 10} {s t : State} (h : execArun 0 a s = .next t) (v : Word) :
    execArun 0 a (withOpa v s) = .next (withOpa v t) := by
  unfold execArun at h ⊢
  split at h
  · next ha =>
    cases h
    exact if_pos ha
  · next ha => exact (if_neg ha).trans (finishAgent_withOpa h v)

/-- A command that ignores `OPA` runs the same with any value of it: none of its checks looks at it. -/
theorem exec_withOpa {i : Instr} (hi : ignoresOpa i = true) {s t : State} (h : exec i s = .next t) (v : Word) :
    exec i (withOpa v s) = .next (withOpa v t) := by
  cases i with
  | unpack32 | unpack64 | unpackf | extract | unpacki | fvwr | fwwr | cset | spush | rwr => cases hi
  | arun iv a =>
    obtain rfl : iv = 0 := beq_iff_eq.1 hi
    exact execArun_withOpa h v
  | nop | tick | tcur | trst | sget | sgetall | sclr | rfull | rempty | rsize | stat => cases h; rfl
  | fvrd | fwrd | cget | cfgrd | rrd =>
    cases h
    exact congrArg Host.Outcome.next (ite_withOpa rfl rfl)
  | cupd =>
    cases h
    exact congrArg Host.Outcome.next (ite_withOpa rfl (ite_withOpa rfl rfl))
  | pack32 | pack64 | packf =>
    cases h
    exact congrArg Host.Outcome.next (ite_withOpa (ite_withOpa rfl (ite_withOpa rfl rfl)) rfl)
  | packi =>
    cases h
    exact congrArg Host.Outcome.next (ite_withOpa (ite_withOpa rfl (ite_withOpa rfl (ite_withOpa rfl rfl))) rfl)

end Sys2Proof.Machine

namespace Sys2Proof.Safety

open Sys2Proof.Machine

/-! ## The expansion of `LDFIELDS` (R107; 40_codec.md R150, R152) -/

theorem issue_commandOf {i : Instr} {v : Word} {s t : State} (hc : configOk s.cfg = true) (hw : WellFormed i = true)
    (h : exec i (accept s [] v) = .next t) : issue s (commandOf i v) = some (t.rsp.toList, t) := by
  have hstep : step { s with inputs := [commandOf i v] } = .next t :=
    (step_of_decode_eq_ok (s := { s with inputs := [commandOf i v] }) hc rfl (decode_eq_ok_iff.2 ⟨hw, rfl⟩)).trans h
  rw [issue, hstep]

theorem runEvents_cons {e : HostEvent} {es : List HostEvent} {s t u : State} {rs qs : List Response}
    (he : issue s e = some (rs, t)) (hes : runEvents es t = some (qs, u)) :
    runEvents (e :: es) s = some (rs ++ qs, u) := by
  simp [runEvents, he, hes]

theorem toNat_ofNat_entry {i : Nat} (hi : i < 64) : (BitVec.ofNat 10 i).toNat = i := by
  rw [BitVec.toNat_ofNat, Nat.mod_eq_of_lt (by omega)]

theorem exec_fvwr_of_lt {i : Nat} (hi : i < 64) (s : State) :
    exec (.fvwr (BitVec.ofNat 10 i)) s = .next (respondNone (writeFv s i s.opa)) := by
  simp [exec, execFvwr, stagingChecked, toNat_ofNat_entry hi, hi]

theorem exec_fwwr_of_lt {i : Nat} (hi : i < 64) (s : State) :
    exec (.fwwr (BitVec.ofNat 10 i)) s = .next (respondNone (writeFw s i (opaLow8 s))) := by
  simp [exec, execFwwr, stagingChecked, toNat_ofNat_entry hi, hi]

/-- The state after an `FVWR i, #v`. -/
def afterFvwr (i : Nat) (v : Word) (s : State) : State := respondNone (writeFv (accept s [] v) i v)

/-- The state after an `FWWR i, #w`. -/
def afterFwwr (i : Nat) (w : Word) (s : State) : State := respondNone (writeFw (accept s [] w) i (w.setWidth 8))

theorem issue_fvwr {i : Nat} (hi : i < 64) {s : State} (hc : configOk s.cfg = true) (v : Word) :
    issue s (commandOf (.fvwr (BitVec.ofNat 10 i)) v) = some ([plainResponse .ok false 0], afterFvwr i v s) :=
  issue_commandOf (t := afterFvwr i v s) hc rfl (exec_fvwr_of_lt hi _)

theorem issue_fwwr {i : Nat} (hi : i < 64) {s : State} (hc : configOk s.cfg = true) (w : Word) :
    issue s (commandOf (.fwwr (BitVec.ofNat 10 i)) w) = some ([plainResponse .ok false 0], afterFwwr i w s) :=
  issue_commandOf (t := afterFwwr i w s) hc rfl (exec_fwwr_of_lt hi _)

/-- The state after the commands of `loadFields i fs`. -/
def afterLoad : Nat → List (Word × Word) → State → State
  | _, [], s => s
  | i, (v, w) :: fs, s => afterLoad (i + 1) fs (afterFwwr i w (afterFvwr i v s))

theorem runEvents_loadFields (fs : List (Word × Word)) {i : Nat} (hi : i + fs.length ≤ 64) {s : State}
    (hc : configOk s.cfg = true) : runEvents (loadFields i fs) s =
      some (List.replicate (2 * fs.length) (plainResponse .ok false 0), afterLoad i fs s) := by
  induction fs generalizing i s with
  | nil => rfl
  | cons f fs ih =>
    obtain ⟨v, w⟩ := f
    rw [List.length_cons] at hi ⊢
    have hrest := ih (i := i + 1) (s := afterFwwr i w (afterFvwr i v s)) (by omega) hc
    have hlt : i < 64 := by omega
    have hpair := runEvents_cons (issue_fvwr hlt hc v)
      (runEvents_cons (issue_fwwr hlt (s := afterFvwr i v s) hc w) hrest)
    exact hpair

theorem afterLoad_frame (i : Nat) (fs : List (Word × Word)) (s : State) : afterLoad i fs s =
    { s with
      fv := (afterLoad i fs s).fv, fw := (afterLoad i fs s).fw, inputs := (afterLoad i fs s).inputs
      opa := (afterLoad i fs s).opa, rsp := (afterLoad i fs s).rsp } := by
  induction fs generalizing i s with
  | nil => rfl
  | cons f fs ih => exact ih (i + 1) _

section Entries

/-! `read` gives the entries of a file, and loading a pair at `i` puts `entry` of the pair there. -/

variable {read : State → Nat → Nat} {entry : Word × Word → Nat}
  (hread : ∀ (i j : Nat) (v w : Word) (s : State), i < 64 →
    read (afterFwwr i w (afterFvwr i v s)) j = if j = i then entry (v, w) else read s j)

include hread

theorem read_afterLoad_of_lt (fs : List (Word × Word)) {i j : Nat} (hi : i + fs.length ≤ 64) (hj : j < i) (s : State) :
    read (afterLoad i fs s) j = read s j := by
  induction fs generalizing i s with
  | nil => rfl
  | cons f fs ih =>
    rw [List.length_cons] at hi
    rw [afterLoad, ih (by omega) (by omega), hread _ _ _ _ _ (by omega), if_neg (by omega)]

theorem read_afterLoad (fs : List (Word × Word)) {i : Nat} (k : Nat) (hi : i + fs.length ≤ 64) (s : State) :
    read (afterLoad i fs s) (i + k) = (fs[k]?).elim (read s (i + k)) entry := by
  induction fs generalizing i k s with
  | nil => rfl
  | cons f fs ih =>
    rw [List.length_cons] at hi
    cases k with
    | zero =>
      rw [afterLoad, read_afterLoad_of_lt hread fs (by omega) (by omega), hread _ _ _ _ _ (by omega), if_pos (by omega)]
      rfl
    | succ k =>
      rw [afterLoad, ← Nat.add_assoc, Nat.add_right_comm, ih k (by omega), hread _ _ _ _ _ (by omega),
        if_neg (by omega)]
      rfl

end Entries

theorem fvAt_afterPair (i j : Nat) (v w : Word) (s : State) (hi : i < 64) :
    fvAt (afterFwwr i w (afterFvwr i v s)) j = if j = i then v.toNat else fvAt s j :=
  fvAt_writeFv (accept s [] v) i j v hi

theorem fwAt_afterPair (i j : Nat) (v w : Word) (s : State) (hi : i < 64) :
    fwAt (afterFwwr i w (afterFvwr i v s)) j = if j = i then w.toNat % 256 else fwAt s j := by
  have h := fwAt_writeFw (afterFvwr i v s) i j (w.setWidth 8) hi
  rwa [BitVec.toNat_setWidth] at h

end Sys2Proof.Safety

namespace Sys2Proof.Proofs

open Sys2Proof.Machine Sys2Proof.Safety

/-- Settles O7: a word decodes to the instruction whose encoding it is. -/
theorem decodeOfEncode : Obligations.DecodeOfEncode := fun _ h => decode_eq_ok_iff.2 ⟨h, rfl⟩

/-- Settles O8: no instruction has a reserved opcode. -/
theorem reservedOpcodesFault : Obligations.ReservedOpcodesFault := by
  intro s w v rest hc hi hop
  refine step_of_not_decodes hc hi fun hd => ?_
  have hused := (exists_decodeFields_eq_ok_iff.1 hd).1
  rw [op_fieldsOf] at hused
  revert hused
  generalize (w >>> 26).toNat = op at hop
  revert op
  decide

/-- Settles O9: the well-formed instructions with a given encoding are those the word decodes to, at most one. -/
theorem decodeIsTotal : Obligations.DecodeIsTotal := by
  intro s w v rest hc hi
  by_cases hd : ∃ i, decode w = .ok i
  · obtain ⟨i, hd⟩ := hd
    obtain ⟨hw, he⟩ := decode_eq_ok_iff.1 hd
    refine .inl ⟨i, ⟨hw, he, step_of_decode_eq_ok hc hi hd⟩, fun j ⟨hw', he', _⟩ => ?_⟩
    exact Except.ok.inj ((decode_eq_ok_iff.2 ⟨hw', he'⟩).symm.trans hd)
  · refine .inr ⟨?_, step_of_not_decodes hc hi hd⟩
    rwa [← exists_congr fun i => decode_eq_ok_iff (i := i)]

/-- Settles O10: no encoding holds a nonzero unused field, and only `ARUN`'s can have `IV = 1`. -/
theorem unusedFieldsFault : Obligations.UnusedFieldsFault := by
  refine fun s f v rest hc hi => ⟨fun hn => ?_, fun hiv hop => ?_⟩
  · exact step_of_not_decodes hc hi fun hd => (exists_decode_wordOf_iff.1 hd).2.1 hn
  · refine step_of_not_decodes hc hi fun ⟨i, hd⟩ => ?_
    obtain rfl := wordOf_injective (decode_eq_ok_iff.1 hd).2
    obtain h0 | h30 := iv_encodeFields i
    · exact absurd (h0.symm.trans hiv) (by decide)
    · exact hop h30

/-- Settles O11: a command's fields are within the limits, and the limits are all that R102 asks. -/
theorem fieldLimitsFault : Obligations.FieldLimitsFault := by
  refine fun s f v rest hc hi => ⟨fun hb => ?_, fun hu hn hb => ?_⟩
  · exact step_of_not_decodes hc hi fun hd => (exists_decode_wordOf_iff.1 hd).2.2 hb
  · obtain ⟨i, hd⟩ := exists_decode_wordOf_iff.2 ⟨hu, hn, hb⟩
    exact ⟨i, hd, step_of_decode_eq_ok hc hi hd⟩

/-- Settles O17: a step that runs no `TICK` drives no pulse, and one that runs it compares the new counter with 0. -/
theorem pulseExactlyOnWrap : Obligations.PulseExactlyOnWrap := by
  intro s t h
  obtain ⟨hi, rfl⟩ | ⟨p, rest, hi, rfl⟩ | ⟨w, v, rest, hi, ⟨i, hd, he⟩ | ⟨e, hd, rfl⟩⟩ := step_cases h
  · simp [pulseOut, hi]
  · simp [pulseOut, hi]
  · have hrun : (∃ w v rest, s.inputs = .command w v :: rest ∧ decode w = .ok .tick) ↔ i = .tick := by simp [hi, hd]
    rw [hrun]
    by_cases htick : i = .tick
    · subst htick
      rw [pulseOut_of_exec_tick (s := accept s rest v) (configOk_of_step_next (s := s) h) he, and_iff_left rfl]
    · simp [pulseOut_of_exec he htick, htick]
  · simp [pulseOut, hi, hd]

/-- Settles O20, command by command. -/
theorem unusedOperandIgnored : Obligations.UnusedOperandIgnored := fun _ _ _ v hi h => exec_withOpa hi h v

/-- Settles O59: the pairs are loaded one by one, each into its own entry of `FV` and of `FW`. -/
theorem loadFieldsExpansion : Obligations.LoadFieldsExpansion := by
  intro fs s hc hlen
  rw [← Nat.zero_add fs.length] at hlen
  refine ⟨_, afterLoad 0 fs s, runEvents_loadFields fs hlen hc, List.length_replicate,
    fun _ => List.eq_of_mem_replicate, afterLoad_frame 0 fs s, fun i => ?_⟩
  have hfv := read_afterLoad (entry := fun f => f.1.toNat) fvAt_afterPair fs i hlen s
  have hfw := read_afterLoad (entry := fun f => f.2.toNat % 256) fwAt_afterPair fs i hlen s
  rw [Nat.zero_add] at hfv hfw
  exact ⟨hfv, hfw⟩

/-- Settles O12: the case of `step` in which the word is a command. -/
theorem stepRunsDecodedInstruction : Obligations.StepRunsDecodedInstruction :=
  fun _ _ _ _ _ hc hi => step_of_decode_eq_ok hc hi

/-- Settles O13: the twelve words are closed, and the decoder computes. -/
theorem sampleWordsDecode : Obligations.SampleWordsDecode := by
  unfold Obligations.SampleWordsDecode
  decide

end Sys2Proof.Proofs
end

section
/-! PROOFS of the family 40_codec.md: the results of the codec and staging-file commands (R135 to R153), the one layout
they share (R146, R154), and that unpacking undoes packing (R157). -/

namespace Sys2Proof.Machine

open Sys2Proof.Safety

/-! ## The encodings, one lemma per format (30_encoding.md R95, R101, R102) -/

section Formats

variable {op : BitVec 6} {legal : Fields → Prop}

/-- The legal words of an opcode are those whose unused fields are 0 and whose used ones are within the limits. -/
theorem decodesExactly_of_checked {i : Fields → Instr} (unusedZero : Fields → Bool)
    (hd : ∀ f : Fields, f.op = op → decodeFields f = checked (unusedZero f) (i f))
    (hl : ∀ f : Fields, legal f ↔ unusedZero f = true ∧ WellFormed (i f) = true) : DecodesExactly op legal i := by
  refine decodesExactly fun f hf => ⟨fun hlegal => ?_, fun hillegal => ?_⟩
  · obtain ⟨hu, hw⟩ := (hl f).1 hlegal
    exact (hd f hf).trans (checked_eq_ok.2 ⟨hu, hw, rfl⟩)
  · cases he : decodeFields f with
    | error e => exact ⟨e, rfl⟩
    | ok j =>
      obtain ⟨hu, hw, -⟩ := checked_eq_ok.1 ((hd f hf).symm.trans he)
      exact absurd ((hl f).2 ⟨hu, hw⟩) hillegal

theorem decodesExactly_formatAB {i : BitVec 7 → BitVec 8 → Instr}
    (hd : ∀ f : Fields, f.op = op → decodeFields f = formatAB f i)
    (hl : ∀ f : Fields, legal f ↔ f.iv = 0 ∧ f.c = 0 ∧ WellFormed (i f.a f.b) = true) :
    DecodesExactly op legal fun f => i f.a f.b :=
  decodesExactly_of_checked _ hd fun f => (hl f).trans (by simp [and_assoc])

theorem decodesExactly_formatA {i : BitVec 7 → Instr} (hd : ∀ f : Fields, f.op = op → decodeFields f = formatA f i)
    (hl : ∀ f : Fields, legal f ↔ f.iv = 0 ∧ f.b = 0 ∧ f.c = 0 ∧ WellFormed (i f.a) = true) :
    DecodesExactly op legal fun f => i f.a :=
  decodesExactly_of_checked _ hd fun f => (hl f).trans (by simp [and_assoc])

theorem decodesExactly_formatB {i : BitVec 8 → Instr} (hd : ∀ f : Fields, f.op = op → decodeFields f = formatB f i)
    (hl : ∀ f : Fields, legal f ↔ f.iv = 0 ∧ f.a = 0 ∧ f.c = 0 ∧ WellFormed (i f.b) = true) :
    DecodesExactly op legal fun f => i f.b :=
  decodesExactly_of_checked _ hd fun f => (hl f).trans (by simp [and_assoc])

theorem decodesExactly_formatC {i : BitVec 10 → Instr} (hd : ∀ f : Fields, f.op = op → decodeFields f = formatC f i)
    (hl : ∀ f : Fields, legal f ↔ f.iv = 0 ∧ f.a = 0 ∧ f.b = 0 ∧ WellFormed (i f.c) = true) :
    DecodesExactly op legal fun f => i f.c :=
  decodesExactly_of_checked _ hd fun f => (hl f).trans (by simp [and_assoc])

end Formats

end Sys2Proof.Machine

namespace Sys2Proof.Safety

open Sys2Proof.Machine

/-! ## The checks of the codec commands, clause by clause -/

/-- `t` presents an `OK` response without a pulse: its command passed every check. -/
def AnsweredOk (t : State) : Prop := ∃ rv res, t.rsp = some (plainResponse .ok rv res)

theorem AnsweredOk.ne_raiseFault {t : State} (ht : AnsweredOk t) (s : State) {c : Status} (hc : c ≠ .ok) :
    raiseFault s c ≠ t := by
  obtain ⟨rv, res, hr⟩ := ht
  rintro rfl
  exact hc (congrArg Response.st (Option.some.inj hr))

theorem AnsweredOk.ne_failWith {t : State} (ht : AnsweredOk t) (s : State) {c : Status} (hc : c ≠ .ok) :
    failWith s c ≠ t := by
  obtain ⟨rv, res, hr⟩ := ht
  rintro rfl
  exact hc (congrArg Response.st (Option.some.inj hr))

theorem answeredOk_answered (s : State) (rv : Bool) (res : Word) : AnsweredOk (answered s rv res) := ⟨rv, res, rfl⟩

/-- A guarded body whose guard leaves a response other than that of `t` ends in `t` exactly when the body does. -/
theorem ite_eq_iff_of_ne {p : Prop} {_ : Decidable p} {a b t : State} (h : a ≠ t) :
    (if p then a else b) = t ↔ ¬ p ∧ b = t := by
  by_cases hp : p <;> simp [hp, h]

theorem raiseFault_ne_faulted (s : State) {c d : Status} (h : c ≠ d) : raiseFault s c ≠ faulted s d := fun he =>
  h (congrArg Response.st (Option.some.inj (congrArg State.rsp he)))

section Checks

variable {s b t : State}

theorem limitChecked_of_wellFormed {i : Instr} (h : WellFormed i = true) : limitChecked i s b = b := if_pos h

/-! The uniform commands (40_codec.md R135 to R142). -/

section Uniform

variable {widthOk : Bool} {cap n w : Nat}

theorem byteWidthOk_iff : byteWidthOk w = true ↔ 1 ≤ w ∧ w ≤ 8 := by simp [byteWidthOk]

theorem wordWidthOk_iff : wordWidthOk w = true ↔ 1 ≤ w := decide_eq_true_iff

theorem uniformChecked_of_width (hw : ¬ widthOk = true) :
    uniformChecked s widthOk cap n w b = faulted s .invalidBitWidth := if_pos (Bool.eq_false_iff.2 hw)

theorem uniformChecked_of_capacity (hw : widthOk = true) (hc : cap < n * w) :
    uniformChecked s widthOk cap n w b = faulted s .capacityExceeded := by
  rw [uniformChecked, if_neg (by simp [hw]), if_pos hc]
  rfl

theorem uniformChecked_of_fits (hw : widthOk = true) (hc : n * w ≤ cap) : uniformChecked s widthOk cap n w b = b := by
  rw [uniformChecked, if_neg (by simp [hw]), if_neg hc.not_gt]

theorem uniformChecked_eq_iff (ht : AnsweredOk t) :
    uniformChecked s widthOk cap n w b = t ↔ (widthOk = true ∧ n * w ≤ cap) ∧ b = t := by
  rw [uniformChecked, ite_eq_iff_of_ne (ht.ne_raiseFault s (by decide)),
    ite_eq_iff_of_ne (ht.ne_raiseFault s (by decide)), Bool.not_eq_false, not_lt, and_assoc]

end Uniform

/-! The variable-width commands (40_codec.md R143, R144, R147, R148). -/

/-- The widths `FW[0..n-1]` are nonzero and fit a word. -/
def FieldsFit (s : State) (n : Nat) : Prop := (∀ i, i < n → fwAt s i ≠ 0) ∧ off (fwAt s) n ≤ 64

section Fields

variable {n : Nat} (hn : n ≤ 64)

include hn

theorem hasZeroWidth_fwList : hasZeroWidth (fwList s n) = true ↔ ∃ i, i < n ∧ fwAt s i = 0 := by
  simp [hasZeroWidth, fwList_eq_map s n hn]

theorem sum_fwList : (fwList s n).sum = off (fwAt s) n := by rw [fwList_eq_map s n hn, sum_map_range]

theorem fieldsFit_iff : FieldsFit s n ↔ ¬ hasZeroWidth (fwList s n) = true ∧ ¬ (fwList s n).sum > 64 := by
  simp [hasZeroWidth_fwList hn, sum_fwList hn, FieldsFit]

theorem fieldsChecked_of_zero (hz : ∃ i, i < n ∧ fwAt s i = 0) :
    fieldsChecked s (fwList s n) b = faulted s .invalidBitWidth := if_pos ((hasZeroWidth_fwList hn).2 hz)

theorem fieldsChecked_of_capacity (hz : ∀ i, i < n → fwAt s i ≠ 0) (hc : 64 < off (fwAt s) n) :
    fieldsChecked s (fwList s n) b = faulted s .capacityExceeded := by
  rw [fieldsChecked, if_neg (by simpa [hasZeroWidth_fwList hn] using hz), if_pos (by rwa [sum_fwList hn])]
  rfl

theorem fieldsChecked_of_fits (h : FieldsFit s n) : fieldsChecked s (fwList s n) b = b := by
  obtain ⟨hz, hsum⟩ := (fieldsFit_iff hn).1 h
  rw [fieldsChecked, if_neg hz, if_neg hsum]

theorem fieldsChecked_eq_iff (ht : AnsweredOk t) : fieldsChecked s (fwList s n) b = t ↔ FieldsFit s n ∧ b = t := by
  rw [fieldsChecked, ite_eq_iff_of_ne (ht.ne_raiseFault s (by decide)),
    ite_eq_iff_of_ne (ht.ne_raiseFault s (by decide)), ← and_assoc, ← fieldsFit_iff hn]

/-- Of the ends of a fail-fast command only the capacity check is `CAPACITY_EXCEEDED`. -/
theorem capacity_of_fieldsChecked_eq_faulted (hb : AnsweredOk b)
    (h : fieldsChecked s (fwList s n) b = faulted s .capacityExceeded) : 64 < off (fwAt s) n := by
  rw [fieldsChecked, ite_eq_iff_of_ne (raiseFault_ne_faulted s (by decide)), sum_fwList hn] at h
  by_contra hc
  rw [if_neg hc] at h
  exact hb.ne_raiseFault s (c := .capacityExceeded) (by decide) h.2.symm

theorem resultChecked_of_exceeds (hc : 64 < off (fwAt s) n) :
    resultChecked s (fwList s n) b = failed s .exceeds64Limit := if_pos (by rwa [sum_fwList hn])

theorem resultChecked_of_zero (hc : off (fwAt s) n ≤ 64) (hz : ∃ i, i < n ∧ fwAt s i = 0) :
    resultChecked s (fwList s n) b = faulted s .invalidBitWidth := by
  rw [resultChecked, if_neg (by rw [sum_fwList hn]; exact hc.not_gt), if_pos ((hasZeroWidth_fwList hn).2 hz)]
  rfl

theorem resultChecked_of_fits (h : FieldsFit s n) : resultChecked s (fwList s n) b = b := by
  obtain ⟨hz, hsum⟩ := (fieldsFit_iff hn).1 h
  rw [resultChecked, if_neg hsum, if_neg hz]

theorem resultChecked_eq_iff (ht : AnsweredOk t) : resultChecked s (fwList s n) b = t ↔ FieldsFit s n ∧ b = t := by
  rw [resultChecked, ite_eq_iff_of_ne (ht.ne_failWith s (by decide)),
    ite_eq_iff_of_ne (ht.ne_raiseFault s (by decide)), ← and_assoc, and_comm (a := ¬ _ > 64), ← fieldsFit_iff hn]

end Fields

/-! The staging-file commands (40_codec.md R150 to R153). -/

theorem stagingChecked_of_le {idx : Nat} (h : 64 ≤ idx) : stagingChecked s idx b = faulted s .indexRange := if_pos h

theorem stagingChecked_of_lt {idx : Nat} (h : idx < 64) : stagingChecked s idx b = b := if_neg h.not_ge

end Checks

/-! ## What a pack answers and an unpack leaves (40_codec.md R130) -/

/-- `s` after a pack of `FV[0..n-1]` with the widths `w`. -/
def packed (s : State) (w : Nat → Nat) (n : Nat) : State :=
  answered s true (BitVec.ofNat 64 (packSum (fvAt s) w n))

/-- `s` after an unpack of `p` with the widths `w` into `FV[0..n-1]`. -/
def unpacked (s : State) (p : Nat) (w : Nat → Nat) (n : Nat) : State :=
  respondNone (unpackToFv s p ((List.range n).map w))

theorem answeredOk_packed (s : State) (w : Nat → Nat) (n : Nat) : AnsweredOk (packed s w n) := ⟨_, _, rfl⟩

theorem answeredOk_unpacked (s : State) (p : Nat) (w : Nat → Nat) (n : Nat) : AnsweredOk (unpacked s p w n) :=
  ⟨_, _, rfl⟩

theorem packSum_lt_of_le (v : Nat → Nat) {w : Nat → Nat} {n k : Nat} (h : off w n ≤ k) : packSum v w n < 2 ^ k :=
  (packSum_lt v w n).trans_le (Nat.pow_le_pow_right Nat.two_pos h)

theorem width_le_off (w : Nat → Nat) {i n : Nat} (h : i < n) : w i ≤ off w n :=
  calc w i ≤ off w i + w i := Nat.le_add_left _ _
    _ = off w (i + 1) := (off_succ w i).symm
    _ ≤ off w n := off_mono w h

section Layout

variable {s : State} {w : Nat → Nat} {n : Nat} (hn : n ≤ 64) (hfit : off w n ≤ 64)

include hn hfit

theorem fvAt_unpacked (p i : Nat) : fvAt (unpacked s p w n) i = if i < n then fieldAt p w i else fvAt s i :=
  fvAt_unpackToFv s p n w hn (fun _ hj => (width_le_off w hj).trans hfit) i

theorem fvIs_unpacked (p : Nat) : FvIs s (answered s false 0) (unpacked s p w n) n (fieldAt p w) := by
  refine ⟨rfl, fun i hi _ => ?_, fun i hi => ?_⟩
  · rw [fvAt_unpacked hn hfit, if_pos hi]
  · rw [fvAt_unpacked hn hfit, if_neg hi.not_gt]

end Layout

/-! ## The commands within their decode limits -/

theorem unpackUniform_eq (s : State) (p n w : Nat) : unpackUniform s p n w = unpacked s p (fun _ => w) n := by
  rw [unpackUniform, uniformWidths_eq_map, unpacked]

theorem unpackFields_eq (s : State) {n : Nat} (hn : n ≤ 64) :
    unpackFields s n = unpacked s s.opa.toNat (fwAt s) n := by
  rw [unpackFields, fwList_eq_map s n hn, unpacked]

section Commands

variable {n : BitVec 7} {w : BitVec 8} {s : State}

section Counted

variable (hn : n.toNat ≤ 64)

include hn

theorem exec_pack32 : exec (.pack32 n w) s = .next (uniformChecked s (byteWidthOk w.toNat) 32 n.toNat w.toNat
    (packed s (fun _ => w.toNat) n.toNat)) := by
  rw [exec, execPack32, limitChecked_of_wellFormed (i := .pack32 n w) (decide_eq_true hn), packUniform_eq s hn]
  rfl

theorem exec_unpack32 : exec (.unpack32 n w) s = .next (uniformChecked s (byteWidthOk w.toNat) 32 n.toNat w.toNat
    (unpacked s (s.opa.toNat % 2 ^ 32) (fun _ => w.toNat) n.toNat)) := by
  rw [exec, execUnpack32, limitChecked_of_wellFormed (i := .unpack32 n w) (decide_eq_true hn), unpackUniform_eq, opaLow32]

theorem exec_unpack32_of_fits (hw : byteWidthOk w.toNat = true) (hc : n.toNat * w.toNat ≤ 32) :
    exec (.unpack32 n w) s = .next (unpacked s (s.opa.toNat % 2 ^ 32) (fun _ => w.toNat) n.toNat) := by
  rw [exec_unpack32 hn, uniformChecked_of_fits hw hc]

theorem exec_pack64 : exec (.pack64 n w) s = .next (uniformChecked s (wordWidthOk w.toNat) 64 n.toNat w.toNat
    (packed s (fun _ => w.toNat) n.toNat)) := by
  rw [exec, execPack64, limitChecked_of_wellFormed (i := .pack64 n w) (decide_eq_true hn), packUniform_eq s hn]
  rfl

theorem exec_unpack64 : exec (.unpack64 n w) s = .next (uniformChecked s (wordWidthOk w.toNat) 64 n.toNat w.toNat
    (unpacked s s.opa.toNat (fun _ => w.toNat) n.toNat)) := by
  rw [exec, execUnpack64, limitChecked_of_wellFormed (i := .unpack64 n w) (decide_eq_true hn), unpackUniform_eq]

theorem exec_unpack64_of_fits (hw : wordWidthOk w.toNat = true) (hc : n.toNat * w.toNat ≤ 64) :
    exec (.unpack64 n w) s = .next (unpacked s s.opa.toNat (fun _ => w.toNat) n.toNat) := by
  rw [exec_unpack64 hn, uniformChecked_of_fits hw hc]

theorem exec_packf : exec (.packf n) s = .next (fieldsChecked s (fwList s n.toNat) (packed s (fwAt s) n.toNat)) := by
  rw [exec, execPackf, limitChecked_of_wellFormed (i := .packf n) (decide_eq_true hn), packFields_eq s hn]
  rfl

theorem fieldsFit_of_packf {x : Word} (h : exec (.packf n) s = .next (answered s true x)) : FieldsFit s n.toNat := by
  rw [exec_packf hn] at h
  exact ((fieldsChecked_eq_iff hn (answeredOk_answered s true x)).1 (Host.Outcome.next.inj h)).1

theorem exec_unpackf : exec (.unpackf n) s =
    .next (fieldsChecked s (fwList s n.toNat) (unpacked s s.opa.toNat (fwAt s) n.toNat)) := by
  rw [exec, execUnpackf, limitChecked_of_wellFormed (i := .unpackf n) (decide_eq_true hn), unpackFields_eq s hn]

theorem exec_unpackf_of_fits (h : FieldsFit s n.toNat) :
    exec (.unpackf n) s = .next (unpacked s s.opa.toNat (fwAt s) n.toNat) := by
  rw [exec_unpackf hn, fieldsChecked_of_fits hn h]

end Counted

theorem exec_packi_of_ne (hn : n.toNat ≤ 64) (hw : w.toNat ≤ 64) (h : n.toNat ≠ w.toNat) :
    exec (.packi n w) s = .next (failed s .lenMismatch) := by
  rw [exec, execPacki, limitChecked_of_wellFormed (by simp [WellFormed, hn, hw]), if_pos h]
  rfl

theorem exec_packi (hw : w.toNat ≤ 64) (h : n.toNat = w.toNat) :
    exec (.packi n w) s = .next (resultChecked s (fwList s w.toNat) (packed s (fwAt s) w.toNat)) := by
  rw [exec, execPacki, limitChecked_of_wellFormed (by simp [WellFormed, h, hw]), if_neg (not_not.2 h),
    packFields_eq s hw]
  rfl

theorem exec_unpacki (hw : w.toNat ≤ 64) :
    exec (.unpacki w) s = .next (resultChecked s (fwList s w.toNat) (unpacked s s.opa.toNat (fwAt s) w.toNat)) := by
  rw [exec, execUnpacki, limitChecked_of_wellFormed (i := .unpacki w) (decide_eq_true hw), unpackFields_eq s hw]

theorem exec_unpacki_of_fits (hw : w.toNat ≤ 64) (h : FieldsFit s w.toNat) :
    exec (.unpacki w) s = .next (unpacked s s.opa.toNat (fwAt s) w.toNat) := by
  rw [exec_unpacki hw, resultChecked_of_fits hw h]

end Commands

/-! ## EXTRACT (40_codec.md R145) -/

/-- Shifting and masking a word cuts out `w` of its bits. -/
theorem ofNat_shiftRight_and_mask (x : Word) (o w : Nat) :
    BitVec.ofNat 64 ((x.toNat >>> o) &&& mask w) = (x.extractLsb' o w).setWidth 64 := by
  apply BitVec.eq_of_toNat_eq
  rw [BitVec.toNat_setWidth, BitVec.extractLsb'_toNat, BitVec.toNat_ofNat, mask_eq, Nat.and_two_pow_sub_one_eq_mod]

section Extract

variable {o : BitVec 7} {w : BitVec 8} {s : State}

theorem exec_extract_of_zero (hw : w.toNat = 0) : exec (.extract o w) s = .next (faulted s .invalidBitWidth) := by
  rw [exec, execExtract, if_pos hw]
  rfl

theorem exec_extract_of_range (hw : w.toNat ≠ 0) (h : 64 < o.toNat + w.toNat) :
    exec (.extract o w) s = .next (faulted s .fieldRange) := by
  rw [exec, execExtract, if_neg hw, if_pos h]
  rfl

theorem exec_extract_of_fits (hw : w.toNat ≠ 0) (h : o.toNat + w.toNat ≤ 64) : exec (.extract o w) s =
    .next (answered s true (BitVec.ofNat 64 ((s.opa.toNat >>> o.toNat) &&& mask w.toNat))) := by
  rw [exec, execExtract, if_neg hw, if_neg h.not_gt]
  rfl

end Extract

/-! ## Unpacking a packed word (40_codec.md R157) -/

/-- `u` answers `(OK, 0, 0)` and holds in `FV[0..n-1]` the values of `s`, each cut to its width. -/
def RestoredFrom (s : State) (w : Nat → Nat) (n : Nat) (u : State) : Prop :=
  u.rsp = some (plainResponse .ok false 0) ∧
    ∀ i, i < n → fvAt u i = fvAt s i % 2 ^ w i ∧ (fvAt s i < 2 ^ w i → fvAt u i = fvAt s i)

theorem IsPacked.toNat_eq {s : State} {w : Nat → Nat} {n : Nat} {p : Word} (h : IsPacked s w n p) :
    p.toNat = packSum (fvAt s) w n := by
  obtain ⟨hfit, rfl⟩ := h
  exact Nat.mod_eq_of_lt (packSum_lt_of_le _ hfit)

theorem IsPacked.restoredFrom {s s' : State} {w : Nat → Nat} {n q : Nat} {p : Word} (h : IsPacked s w n p) (hn : n ≤ 64)
    (hq : q = p.toNat) : RestoredFrom s w n (unpacked s' q w n) := by
  refine ⟨rfl, fun i hi => ?_⟩
  have hfield : fvAt (unpacked s' q w n) i = fvAt s i % 2 ^ w i := by
    rw [fvAt_unpacked hn h.1, if_pos hi, hq, h.toNat_eq, fieldAt_packSum _ _ _ _ hi]
  exact ⟨hfield, fun hlt => hfield.trans (Nat.mod_eq_of_lt hlt)⟩

end Sys2Proof.Safety

namespace Sys2Proof.Proofs

open Sys2Proof.Machine Sys2Proof.Safety

/-- Settles O21: the checks of R135 in order, then the packed sum, which its widths bound. -/
theorem pack32Result : Obligations.Pack32Result := by
  refine ⟨decodesExactly_formatAB (by rintro ⟨⟩ rfl; rfl) (by simp [WellFormed]), fun n w s hn => ?_⟩
  rw [exec_pack32 hn]
  refine ⟨fun hw => ?_, fun h1 h8 hc => ?_, fun h1 h8 hc => ⟨packSum_lt_of_le _ (by rwa [off_const]), ?_⟩⟩
  · rw [uniformChecked_of_width (by rw [byteWidthOk_iff]; omega)]
  · rw [uniformChecked_of_capacity (byteWidthOk_iff.2 ⟨h1, h8⟩) hc]
  · rw [uniformChecked_of_fits (byteWidthOk_iff.2 ⟨h1, h8⟩) hc, packed]

/-- Settles O22: the checks of `PACK32`, then the fields of the low half of `OPA`. -/
theorem unpack32Result : Obligations.Unpack32Result := by
  refine ⟨decodesExactly_formatAB (by rintro ⟨⟩ rfl; rfl) (by simp [WellFormed]), fun n w s hn => ?_⟩
  refine ⟨fun hw => ?_, fun h1 h8 hc => ?_, fun h1 h8 hc => ?_⟩
  · rw [exec_unpack32 hn, uniformChecked_of_width (by rw [byteWidthOk_iff]; omega)]
  · rw [exec_unpack32 hn, uniformChecked_of_capacity (byteWidthOk_iff.2 ⟨h1, h8⟩) hc]
  · exact ⟨_, exec_unpack32_of_fits hn (byteWidthOk_iff.2 ⟨h1, h8⟩) hc, fvIs_unpacked hn (by rw [off_const]; omega) _⟩

/-- Settles O23: as `PACK32` without an upper bound on the width. -/
theorem pack64Result : Obligations.Pack64Result := by
  refine ⟨decodesExactly_formatAB (by rintro ⟨⟩ rfl; rfl) (by simp [WellFormed]), fun n w s hn => ?_⟩
  rw [exec_pack64 hn]
  refine ⟨fun hw => ?_, fun h1 hc => ?_, fun h1 hc => ⟨packSum_lt_of_le _ (by rwa [off_const]), ?_⟩⟩
  · rw [uniformChecked_of_width (by rw [wordWidthOk_iff]; omega)]
  · rw [uniformChecked_of_capacity (wordWidthOk_iff.2 h1) hc]
  · rw [uniformChecked_of_fits (wordWidthOk_iff.2 h1) hc, packed]

/-- Settles O24: the checks of `PACK64`, then the fields of `OPA`. -/
theorem unpack64Result : Obligations.Unpack64Result := by
  refine ⟨decodesExactly_formatAB (by rintro ⟨⟩ rfl; rfl) (by simp [WellFormed]), fun n w s hn => ?_⟩
  refine ⟨fun hw => ?_, fun h1 hc => ?_, fun h1 hc => ?_⟩
  · rw [exec_unpack64 hn, uniformChecked_of_width (by rw [wordWidthOk_iff]; omega)]
  · rw [exec_unpack64 hn, uniformChecked_of_capacity (wordWidthOk_iff.2 h1) hc]
  · exact ⟨_, exec_unpack64_of_fits hn (wordWidthOk_iff.2 h1) hc, fvIs_unpacked hn (by rwa [off_const]) _⟩

/-- Settles O25: the fail-fast checks of R143 in order, then the packed sum. -/
theorem packfResult : Obligations.PackfResult := by
  refine ⟨decodesExactly_formatA (by rintro ⟨⟩ rfl; rfl) (by simp [WellFormed]), fun n s hn => ?_⟩
  rw [exec_packf hn]
  refine ⟨fun hz => ?_, fun hz hc => ?_, fun hz hc => ⟨packSum_lt_of_le _ hc, ?_⟩⟩
  · rw [fieldsChecked_of_zero hn hz]
  · rw [fieldsChecked_of_capacity hn hz hc]
  · rw [fieldsChecked_of_fits hn ⟨hz, hc⟩, packed]

/-- Settles O26: the checks of `PACKF`, then the fields of `OPA`. -/
theorem unpackfResult : Obligations.UnpackfResult := by
  refine ⟨decodesExactly_formatA (by rintro ⟨⟩ rfl; rfl) (by simp [WellFormed]), fun n s hn => ?_⟩
  refine ⟨fun hz => ?_, fun hz hc => ?_, fun hz hc => ?_⟩
  · rw [exec_unpackf hn, fieldsChecked_of_zero hn hz]
  · rw [exec_unpackf hn, fieldsChecked_of_capacity hn hz hc]
  · exact ⟨_, exec_unpackf_of_fits hn ⟨hz, hc⟩, fvIs_unpacked hn hc _⟩

/-- Settles O27: the two checks of R145 in order, then the field, whose shift and mask cut out its bits. -/
theorem extractResult : Obligations.ExtractResult := by
  refine ⟨decodesExactly_formatAB (by rintro ⟨⟩ rfl; rfl) (by simp [WellFormed]), fun o w s => ?_⟩
  refine ⟨exec_extract_of_zero, exec_extract_of_range, fun hw h => ?_⟩
  rw [exec_extract_of_fits hw h, ofNat_shiftRight_and_mask]

/-- Settles O28: the counts, then the result-typed checks of R147 in order, then the packed sum. -/
theorem packiResult : Obligations.PackiResult := by
  refine ⟨decodesExactly_formatAB (by rintro ⟨⟩ rfl; rfl) (by simp [WellFormed]), fun nv nw s hv hw => ?_⟩
  refine ⟨exec_packi_of_ne hv hw, fun h hc => ?_, fun h hc hz => ?_, fun h hc hz => ?_⟩ <;> rw [exec_packi hw h]
  · rw [resultChecked_of_exceeds hw hc]
  · rw [resultChecked_of_zero hw hc hz]
  · rw [resultChecked_of_fits hw ⟨hz, hc⟩, packed]

/-- Settles O29: the result-typed checks of R148 in order, then the fields of `OPA`. -/
theorem unpackiResult : Obligations.UnpackiResult := by
  refine ⟨decodesExactly_formatB (by rintro ⟨⟩ rfl; rfl) (by simp [WellFormed]), fun nw s hw => ?_⟩
  refine ⟨fun hc => ?_, fun hc hz => ?_, fun hc hz => ?_⟩
  · rw [exec_unpacki hw, resultChecked_of_exceeds hw hc]
  · rw [exec_unpacki hw, resultChecked_of_zero hw hc hz]
  · exact ⟨_, exec_unpacki_of_fits hw ⟨hz, hc⟩, fvIs_unpacked hw hc _⟩

/-- Settles O30: past the index check each command is one write to its own file. -/
theorem stagingWriteResult : Obligations.StagingWriteResult := by
  refine ⟨decodesExactly_formatC (by rintro ⟨⟩ rfl; rfl) (by simp [WellFormed]),
    decodesExactly_formatC (by rintro ⟨⟩ rfl; rfl) (by simp [WellFormed]), fun idx s => ?_⟩
  rw [exec, exec, execFvwr, execFwwr]
  refine ⟨fun h => ?_, fun h => ?_⟩
  · rw [stagingChecked_of_le h, stagingChecked_of_le h]
    exact ⟨rfl, rfl⟩
  · rw [stagingChecked_of_lt h, stagingChecked_of_lt h]
    refine ⟨⟨_, rfl, rfl, fun i => fvAt_writeFv s _ i _ h⟩, _, rfl, rfl, fun i => ?_⟩
    calc fwAt (writeFw s idx.toNat (opaLow8 s)) i
        = if i = idx.toNat then (opaLow8 s).toNat else fwAt s i := fwAt_writeFw s _ i _ h
      _ = if i = idx.toNat then s.opa.toNat % 256 else fwAt s i := by rw [opaLow8, BitVec.toNat_setWidth]

/-- Settles O31: past the index check each command answers with the entry. -/
theorem stagingReadResult : Obligations.StagingReadResult := by
  refine ⟨decodesExactly_formatC (by rintro ⟨⟩ rfl; rfl) (by simp [WellFormed]),
    decodesExactly_formatC (by rintro ⟨⟩ rfl; rfl) (by simp [WellFormed]), fun idx s => ?_⟩
  rw [exec, exec, execFvrd, execFwrd]
  refine ⟨fun h => ?_, fun h => ?_⟩
  · rw [stagingChecked_of_le h, stagingChecked_of_le h]
    exact ⟨rfl, rfl⟩
  · rw [stagingChecked_of_lt h, stagingChecked_of_lt h]
    exact ⟨rfl, rfl⟩

/-- Settles O32: the checks `UNPACKF` passed are those `EXTRACT` makes of each of its fields. -/
theorem extractAgreesWithUnpackf : Obligations.ExtractAgreesWithUnpackf := by
  intro n s t hn h ht i o w hi ho hw
  rw [exec_unpackf hn] at h
  obtain ⟨⟨hz, hfit⟩, rfl⟩ := (fieldsChecked_eq_iff hn ⟨_, _, ht⟩).1 (Host.Outcome.next.inj h)
  have hrange : off (fwAt s) i + fwAt s i ≤ 64 := by
    rw [← off_succ]
    exact (off_mono _ hi).trans hfit
  rw [exec_extract_of_fits (hw ▸ hz i hi) (by rwa [ho, hw]), fvAt_unpacked hn hfit, if_pos hi, ho, hw]
  rfl

/-- Settles O33: both policies end in `OK` exactly when the widths are nonzero and fit, with the same effect. -/
theorem oneLayoutForBothPolicies : Obligations.OneLayoutForBothPolicies := by
  intro nv nw s h hv
  have hw : nw.toNat ≤ 64 := h ▸ hv
  rw [exec_packf hv, exec_packi hw h, exec_unpackf hv, exec_unpacki hw, h]
  simp only [Host.Outcome.next.injEq]
  refine ⟨fun x => ?_, fun hc => ?_, fun t ht => ?_, fun hc => ?_⟩
  · rw [fieldsChecked_eq_iff hw (answeredOk_answered s true x), resultChecked_eq_iff hw (answeredOk_answered s true x)]
  · exact resultChecked_of_exceeds hw (capacity_of_fieldsChecked_eq_faulted hw (answeredOk_packed _ _ _) hc)
  · rw [fieldsChecked_eq_iff hw ⟨_, _, ht⟩, resultChecked_eq_iff hw ⟨_, _, ht⟩]
  · exact resultChecked_of_exceeds hw (capacity_of_fieldsChecked_eq_faulted hw (answeredOk_unpacked _ _ _ _) hc)

/-- Settles O34: the unpack makes the checks the pack passed, and the fields of a packed word are the values cut. -/
theorem packThenUnpackKeepsLowBits : Obligations.PackThenUnpackKeepsLowBits := by
  rintro n w s _ p hn rfl
  have hok : AnsweredOk (answered s true p) := answeredOk_answered s true p
  refine ⟨fun h => ?_, fun h => ?_, fun h => ?_, fun hnw h => ?_⟩
  · have hp := isPacked_of_pack32 hn h
    rw [exec_pack32 hn] at h
    obtain ⟨⟨hwidth, hcap⟩, -⟩ := (uniformChecked_eq_iff hok).1 (Host.Outcome.next.inj h)
    have hlow : p.toNat % 2 ^ 32 = p.toNat :=
      Nat.mod_eq_of_lt (hp.toNat_eq ▸ packSum_lt_of_le _ (by rwa [off_const]))
    exact ⟨_, exec_unpack32_of_fits hn hwidth hcap, hp.restoredFrom hn hlow⟩
  · have hp := isPacked_of_pack64 hn h
    rw [exec_pack64 hn] at h
    obtain ⟨⟨hwidth, hcap⟩, -⟩ := (uniformChecked_eq_iff hok).1 (Host.Outcome.next.inj h)
    exact ⟨_, exec_unpack64_of_fits hn hwidth hcap, hp.restoredFrom hn rfl⟩
  · have hp := isPacked_of_packf hn h
    have hfit := fieldsFit_of_packf hn h
    exact ⟨_, exec_unpackf_of_fits hn hfit, hp.restoredFrom hn rfl⟩
  · replace h := ((oneLayoutForBothPolicies n w s hnw.symm hn).1 p).2 h
    have hp := isPacked_of_packf hn h
    have hfit := fieldsFit_of_packf hn h
    rw [← hnw] at hn hp hfit ⊢
    exact ⟨_, exec_unpacki_of_fits hn hfit, hp.restoredFrom hn rfl⟩

end Sys2Proof.Proofs
end

section
/-! PROOFS of the family 41_cells.md: the results of `CGET`, `CSET` and `CUPD` (R201 to R203), and the laws that relate
them (R206). -/

namespace Sys2Proof.Machine

open Sys2Proof.Safety

theorem decodesExactly_formatCB {op : BitVec 6} {legal : Fields → Prop} {i : BitVec 10 → BitVec 8 → Instr}
    (hd : ∀ f : Fields, f.op = op → decodeFields f = formatCB f i)
    (hl : ∀ f : Fields, legal f ↔ f.iv = 0 ∧ f.a = 0 ∧ WellFormed (i f.c f.b) = true) :
    DecodesExactly op legal fun f => i f.c f.b :=
  decodesExactly_of_checked _ hd fun f => (hl f).trans (by simp [and_assoc])

/-- A `DATA_W`-bit value is stored as it is (20_memory.md R75). -/
theorem truncData_of_fits {c : Config} {v : Word} (h : Fits c v) : truncData c v = v :=
  BitVec.eq_of_toNat_eq ((truncData_toNat c v).trans (Nat.mod_eq_of_lt h))

theorem respondWord_toNat (s : State) (v : Word) : respondWord s v.toNat = answered s true v := by
  rw [respondWord, BitVec.ofNat_toNat, BitVec.setWidth_eq]
  rfl

end Sys2Proof.Machine

namespace Sys2Proof.Safety

open Sys2Proof.Machine

section Cells

variable {s b : State} {c : BitVec 10} {k : BitVec 8}

/-! ## The bounds (41_cells.md R200, R203) -/

theorem cellChecked_of_le {i : Nat} (h : s.cfg.ncells ≤ i) : cellChecked s i b = faulted s .indexRange := if_pos h

theorem cellChecked_of_lt {i : Nat} (h : i < s.cfg.ncells) : cellChecked s i b = b := if_neg h.not_ge

theorem exec_cget_of_le (h : s.cfg.ncells ≤ c.toNat) : exec (.cget c) s = .next (faulted s .indexRange) :=
  congrArg _ (cellChecked_of_le h)

theorem exec_cset_of_le (h : s.cfg.ncells ≤ c.toNat) : exec (.cset c) s = .next (faulted s .indexRange) :=
  congrArg _ (cellChecked_of_le h)

/-- Both bounds of `CUPD` raise the one fault, so their order does not show. -/
theorem exec_cupd_of_le (h : s.cfg.ncells ≤ c.toNat ∨ s.cfg.nuf ≤ k.toNat) :
    exec (.cupd c k) s = .next (faulted s .indexRange) := by
  rw [exec, execCupd]
  by_cases hc : s.cfg.ncells ≤ c.toNat
  · rw [cellChecked_of_le hc]
  · rw [cellChecked_of_lt (Nat.lt_of_not_le hc), if_pos (h.resolve_left hc)]
    rfl

/-! ## The commands within their bounds -/

/-- `UF[k]` of cell `c` (41_cells.md R203). -/
def updatedCell (s : State) (c k : Nat) : Word := applyUpdate s.cfg k (s.cell.getD c 0)

theorem exec_cget_of_lt (h : c.toNat < s.cfg.ncells) :
    exec (.cget c) s = .next (answered s true (s.cell.getD c.toNat 0)) := by
  rw [exec, execCget, cellChecked_of_lt h, respondWord_toNat, readCell]

theorem exec_cset_of_lt (h : c.toNat < s.cfg.ncells) :
    exec (.cset c) s = .next (answered (writeCell s c.toNat (storedOpa s)) false 0) := by
  rw [exec, execCset, cellChecked_of_lt h, opaData_eq]
  rfl

theorem exec_cupd_of_lt (h : c.toNat < s.cfg.ncells) (hk : k.toNat < s.cfg.nuf) : exec (.cupd c k) s =
    .next (answered (writeCell s c.toNat (updatedCell s c.toNat k.toNat)) true (updatedCell s c.toNat k.toNat)) := by
  rw [exec, execCupd, cellChecked_of_lt h, if_neg hk.not_ge, respondWord_toNat]
  rfl

/-! ## The cell file after a write (41_cells.md R200, R206) -/

theorem CellsOk.getElem?_writeCell (hs : CellsOk s) {i : Nat} (h : i < s.cfg.ncells) (v : Word) (j : Nat) :
    (writeCell s i v).cell[j]? = if j = i then some v else s.cell[j]? :=
  getElem?_set_of_lt s.cell i j v (hs.1.symm ▸ h)

theorem CellsOk.getD_writeCell_same (hs : CellsOk s) {i : Nat} (h : i < s.cfg.ncells) (v : Word) :
    (writeCell s i v).cell.getD i 0 = v := by
  rw [List.getD_eq_getElem?_getD, hs.getElem?_writeCell h, if_pos rfl, Option.getD_some]

theorem getElem?_writeCell_of_ne {i j : Nat} (h : j ≠ i) (v : Word) : (writeCell s i v).cell[j]? = s.cell[j]? :=
  List.getElem?_set_ne h.symm

end Cells

end Sys2Proof.Safety

namespace Sys2Proof.Proofs

open Sys2Proof.Machine Sys2Proof.Safety

/-- Settles O36: past the index check `CGET` answers with the cell and `CSET` is one write to the cell file. -/
theorem cellReadWriteResult : Obligations.CellReadWriteResult := by
  refine ⟨decodesExactly_formatC (by rintro ⟨⟩ rfl; rfl) (by simp [WellFormed]),
    decodesExactly_formatC (by rintro ⟨⟩ rfl; rfl) (by simp [WellFormed]), fun c s hs => ⟨fun h => ?_, fun h => ?_⟩⟩
  · exact ⟨exec_cget_of_le h, exec_cset_of_le h⟩
  · exact ⟨exec_cget_of_lt h, _, exec_cset_of_lt h, rfl, hs.getElem?_writeCell h _⟩

/-- Settles O37: past both checks `CUPD` is one write of a value that fits, which it answers. -/
theorem cellUpdateResult : Obligations.CellUpdateResult := by
  refine ⟨decodesExactly_formatCB (by rintro ⟨⟩ rfl; rfl) (by simp [WellFormed]), fun c k s hs =>
    ⟨exec_cupd_of_le, fun h hk => ?_⟩⟩
  have hfits : Fits s.cfg (updatedCell s c.toNat k.toNat) := applyUpdate_fits s.cfg k.toNat _ hk
  exact ⟨_, _, rfl, hfits, exec_cupd_of_lt h hk, rfl, hs.getElem?_writeCell h _⟩

/-- Settles O38: a cell reads back what was written to it, a result of `UF[k]` fits and so is stored uncut, and every
write is to the named cell. -/
theorem cellLaws : Obligations.CellLaws := by
  intro c k s hs h hk
  refine ⟨?_, ?_, fun i t hi ht j hj => ?_⟩
  · refine ⟨_, _, exec_cset_of_lt h, exec_cget_of_lt h, ?_⟩
    exact congrArg (fun v => some (plainResponse .ok true v)) (hs.getD_writeCell_same h (storedOpa s))
  · have hstored : truncData s.cfg (updatedCell s c.toNat k.toNat) = updatedCell s c.toNat k.toNat :=
      truncData_of_fits (applyUpdate_fits s.cfg k.toNat _ hk)
    refine ⟨_, _, _, _, exec_cget_of_lt h, rfl, exec_cset_of_lt h, exec_cupd_of_lt h hk, ?_⟩
    exact congrArg (s.cell.set c.toNat) hstored.symm
  · rcases hi with rfl | rfl | rfl
    · rw [exec_cget_of_lt h] at ht
      cases ht
      rfl
    · rw [exec_cset_of_lt h] at ht
      cases ht
      exact getElem?_writeCell_of_ne hj _
    · rw [exec_cupd_of_lt h hk] at ht
      cases ht
      exact getElem?_writeCell_of_ne hj _

end Sys2Proof.Proofs
end

section
/-! PROOFS of the family 42_clock.md: the results of `TICK`, `TCUR` and `TRST` (R220 to R222), the pulses of a run of
`TICK` commands (R223, R224), and what changes the counter (R225). -/

namespace Sys2Proof.Machine

open Sys2Proof.Safety

/-- Format N uses no field, so its one legal word has all of them 0 (30_encoding.md R95, R101). -/
theorem decodesExactly_formatN {op : BitVec 6} {i : Instr}
    (hd : ∀ f : Fields, f.op = op → decodeFields f = formatN f i) (hw : WellFormed i = true) :
    DecodesExactly op (fun f => f.iv = 0 ∧ f.a = 0 ∧ f.b = 0 ∧ f.c = 0) fun _ => i :=
  decodesExactly_of_checked _ hd fun f => by simp [hw, and_assoc]

end Sys2Proof.Machine

namespace Sys2Proof.Safety

open Sys2Proof.Machine

/-! ## The commands (42_clock.md R220 to R222) -/

/-- The response of a `TICK` that wraps the counter when `p` (R220). -/
def tickResponse (p : Bool) : Response := ⟨.ok, true, if p then 1 else 0, p⟩

/-- `s` after a `TICK` (R220). -/
def ticked (s : State) : State :=
  { s with tick := BitVec.ofNat 32 (tickAfter s), rsp := some (tickResponse (tickAfter s == 0)) }

theorem respondPulse_eq (s : State) (p : Bool) : respondPulse s p = { s with rsp := some (tickResponse p) } := by
  cases p <;> rfl

theorem exec_tick (s : State) : exec .tick s = .next (ticked s) := by
  rw [exec, execTick, respondPulse_eq, ticked]

theorem exec_tcur (s : State) : exec .tcur s = .next (answered s true (BitVec.ofNat 64 s.tick.toNat)) := rfl

theorem exec_trst (s : State) : exec .trst s = .next { answered s false 0 with tick := 0 } := rfl

/-- The interval is below `2^32`, so the counter holds its new value uncut. -/
theorem ticked_tick_toNat {s : State} (hc : configOk s.cfg = true) : (ticked s).tick.toNat = tickAfter s := by
  have hr := ranges_of_configOk hc
  exact Nat.mod_eq_of_lt ((tickAfter_lt hr.interval_pos).trans hr.interval_lt)

/-! ## A run of `TICK` commands (42_clock.md R223, R224) -/

/-- The response to the `m`-th `TICK` after the counter was 0, with the interval `c`. -/
def nthTickResponse (c m : Nat) : Response := tickResponse (m % c == 0)

theorem nthTickResponse_pulse (c m : Nat) : (nthTickResponse c m).pulse = true ↔ c ∣ m :=
  beq_iff_eq.trans Nat.dvd_iff_mod_eq_zero.symm

/-- After `n` ticks the next one is the `n + 1`-st. -/
theorem tickAfter_of_mod {s : State} {n : Nat} (h : s.tick.toNat = n % s.cfg.clkInterval) :
    tickAfter s = (n + 1) % s.cfg.clkInterval := by
  rw [tickAfter, h, Nat.mod_add_mod]

theorem issue_tick {s : State} {n : Nat} (hc : configOk s.cfg = true) (h : s.tick.toNat = n % s.cfg.clkInterval) :
    issue s (commandOf .tick 0) = some ([nthTickResponse s.cfg.clkInterval (n + 1)], ticked (accept s [] 0)) := by
  rw [nthTickResponse, ← tickAfter_of_mod h]
  exact issue_commandOf (s := s) hc rfl (exec_tick _)

/-- A run of `k` `TICK` commands after `n` of them gives the responses number `n + 1` to `n + k`. -/
theorem runEvents_repeated_tick (k : Nat) {s : State} {n : Nat} (hc : configOk s.cfg = true)
    (h : s.tick.toNat = n % s.cfg.clkInterval) : ∃ t,
    runEvents (repeated k .tick) s = some ((List.range' (n + 1) k).map (nthTickResponse s.cfg.clkInterval), t) ∧
      t.tick.toNat = (n + k) % s.cfg.clkInterval := by
  induction k generalizing s n with
  | zero => exact ⟨s, rfl, h⟩
  | succ k ih =>
    have hnext : (ticked (accept s [] 0)).tick.toNat = (n + 1) % s.cfg.clkInterval :=
      (ticked_tick_toNat (s := accept s [] 0) hc).trans (tickAfter_of_mod h)
    obtain ⟨t, hrun, ht⟩ := ih (s := ticked (accept s [] 0)) hc hnext
    rw [Nat.add_right_comm] at ht
    exact ⟨t, runEvents_cons (issue_tick hc h) hrun, ht⟩

/-! ## What changes the counter (42_clock.md R225) -/

theorem eq_tick_or_trst_of_exec {i : Instr} {s t : State} (h : exec i s = .next t) (ht : t.tick ≠ s.tick) :
    i = .tick ∨ i = .trst := by
  obtain ⟨c, d, -, -, rfl⟩ | ⟨c, -, -, rfl, -⟩ | ⟨r, hr⟩ := exec_shape h
  · exact absurd rfl ht
  · exact absurd rfl ht
  · exact hr.tick ht

end Sys2Proof.Safety

namespace Sys2Proof.Proofs

open Sys2Proof.Machine Sys2Proof.Safety

/-- Settles O39: the counter holds the sum modulo the interval uncut, so it is 0 exactly when the `TICK` wrapped. -/
theorem tickResult : Obligations.TickResult := by
  refine ⟨decodesExactly_formatN (by rintro ⟨⟩ rfl; rfl) rfl, fun s hc => ?_⟩
  exact ⟨ticked s, pulseOut (ticked s), exec_tick s, ticked_tick_toNat hc, pulseOut_of_exec_tick hc (exec_tick s), rfl⟩

/-- Settles O41: the responses of the run are those number 1 to `k`, and the counter ends at `k` modulo the interval. -/
theorem pulsePeriod : Obligations.PulsePeriod := by
  intro k s hc h0
  have hstart : s.tick.toNat = 0 % s.cfg.clkInterval := by simp [h0]
  obtain ⟨t, hrun, ht⟩ := runEvents_repeated_tick k hc hstart
  rw [Nat.zero_add] at ht
  refine ⟨_, t, hrun, by simp, ht ▸ exec_tcur t, fun m r hr => ?_⟩
  obtain ⟨hm, rfl⟩ := List.getElem?_eq_some_iff.1 hr
  rw [List.getElem_map, List.getElem_range'_1, Nat.zero_add, Nat.add_comm 1 m]
  exact ⟨nthTickResponse_pulse _ _, rfl⟩

/-- Settles O42: an idle moment and a rejected word hold the counter, and of the commands only two change it. -/
theorem clockIsIndependent : Obligations.ClockIsIndependent := by
  intro s t h ht
  obtain ⟨-, rfl⟩ | ⟨p, rest, hi, -⟩ | ⟨w, v, rest, hi, ⟨i, hd, he⟩ | ⟨e, -, rfl⟩⟩ := step_cases h
  · exact absurd (idle_tick s) ht
  · exact .inl ⟨p, rest, hi⟩
  · refine .inr ⟨w, v, rest, hi, ?_⟩
    obtain rfl | rfl := eq_tick_or_trst_of_exec (s := accept s rest v) he ht
    · exact .inl hd
    · exact .inr hd
  · exact absurd (accept_tick s rest v) ht

/-- Settles O40: each command is one update of the state. -/
theorem clockReadAndClear : Obligations.ClockReadAndClear := by
  refine ⟨decodesExactly_formatN (by rintro ⟨⟩ rfl; rfl) rfl, decodesExactly_formatN (by rintro ⟨⟩ rfl; rfl) rfl,
    fun s => ⟨?_, exec_trst s⟩⟩
  rw [exec_tcur, BitVec.ofNat_toNat]

end Sys2Proof.Proofs
end

section
/-! PROOFS of the family 43_shift_register.md: the results of `SPUSH`, `SGET`, `SGETALL` and `SCLR` (R240 to R243), and
what a run of pushes leaves in the register and evicts from it (R244, R245). -/

namespace Sys2Proof.Safety

open Sys2Proof.Machine

/-! ## The commands (43_shift_register.md R240 to R243) -/

/-- What the last slot holds (R240). -/
def tailSlot (s : State) : Val := s.sr.getD (s.cfg.srStages - 1) none

/-- `s` after an `SPUSH` of its operand word (R240). -/
def shifted (s : State) : State :=
  { s with sr := pushedSlots s (storedOpa s), rsp := some (optionalResponse (tailSlot s)) }

/-- `s` after an `SGETALL` (R242). -/
def slotsToFv (s : State) : State :=
  answered (writeFvList s (s.sr.map data)) true (BitVec.ofNat 64 (presenceMask 0 s.sr))

theorem exec_spush {s : State} (hc : configOk s.cfg = true) : exec .spush s = .next (shifted s) := by
  have htail : readStage s (s.cfg.srStages - 1) = tailSlot s :=
    if_pos (Nat.sub_one_lt (Nat.ne_of_gt (ranges_of_configOk hc).stages_pos))
  rw [exec, execSpush, htail]
  rfl

theorem exec_sget (stage : BitVec 10) (s : State) :
    exec (.sget stage) s = .next { s with rsp := some (optionalResponse (readStage s stage.toNat)) } := rfl

theorem exec_sgetall (s : State) : exec .sgetall s = .next (slotsToFv s) := rfl

theorem exec_sclr (s : State) :
    exec .sclr s = .next { answered s false 0 with sr := List.replicate s.cfg.srStages none } := rfl

section Slots

variable {s : State} (h : ShiftOk s)

include h

/-- A push puts the value in front and drops the tail (R240). -/
theorem ShiftOk.pushedSlots_eq (hc : configOk s.cfg = true) (v : Word) :
    Machine.pushedSlots s v = some v :: s.sr.dropLast := by
  rw [Machine.pushedSlots, List.dropLast_eq_take, h.1, List.take_cons (ranges_of_configOk hc).stages_pos]

/-- The register is its tail behind the other slots. -/
theorem ShiftOk.sr_eq (hc : configOk s.cfg = true) : s.sr = s.sr.dropLast ++ [tailSlot s] := by
  have hpos : 0 < s.sr.length := h.1 ▸ (ranges_of_configOk hc).stages_pos
  have htail : tailSlot s = s.sr.getLast (List.ne_nil_of_length_pos hpos) := by
    rw [tailSlot, ← h.1, List.getLast_eq_getElem, List.getD_eq_getElem]
  rw [htail, List.dropLast_concat_getLast]

theorem shiftOk_shifted : ShiftOk (shifted s) := h.pushedSlots (truncData_fits s.cfg s.opa)

/-- Slot `j`'s data is in `FV[j]` after an `SGETALL` (R242). -/
theorem ShiftOk.fvAt_slotsToFv (hc : configOk s.cfg = true) (j : Nat) : fvAt (slotsToFv s) j =
    if j < s.cfg.srStages then (data (s.sr.getD j none)).toNat else fvAt s j := by
  have hlen : (s.sr.map data).length = s.cfg.srStages := (List.length_map data).trans h.1
  have hfv := fvAt_writeFvList s (s.sr.map data) j (hlen ▸ (ranges_of_configOk hc).stages_le)
  rw [hlen] at hfv
  rwa [show (0 : Word) = data none from rfl, List.getD_map] at hfv

/-- The register has at most 64 slots, so the 64-bit word holds the whole presence mask (R242). -/
theorem ShiftOk.getLsbD_presenceMask (hc : configOk s.cfg = true) (j : Nat) :
    (BitVec.ofNat 64 (presenceMask 0 s.sr)).getLsbD j = (s.sr.getD j none).isSome := by
  rw [BitVec.getLsbD_ofNat, presenceMask_testBit]
  by_cases hj : j < 64
  · simp [hj]
  · have hlen : s.sr.length ≤ j := h.1 ▸ (ranges_of_configOk hc).stages_le.trans (Nat.le_of_not_lt hj)
    simp [hj, hlen]

end Slots

/-! ## A run of pushes (43_shift_register.md R244, R245) -/

/-- What passes through the register when `vs` is pushed into `s`, in the order in which it leaves at the tail: the
slots of `s` from the tail on, and then the values pushed. -/
def shiftLine (s : State) (vs : List Word) : List Val := s.sr.reverse ++ vs.map fun v => some (truncData s.cfg v)

/-- A push takes the first of the line out of the register and the next value in. -/
theorem ShiftOk.shiftLine_cons {s : State} (h : ShiftOk s) (hc : configOk s.cfg = true) (v : Word) (vs : List Word) :
    shiftLine s (v :: vs) = tailSlot s :: shiftLine (shifted (accept s [] v)) vs := by
  have hpush : (shifted (accept s [] v)).sr = some (truncData s.cfg v) :: s.sr.dropLast :=
    h.pushedSlots_eq hc (truncData s.cfg v)
  have hrev : s.sr.reverse = tailSlot s :: s.sr.dropLast.reverse :=
    (congrArg List.reverse (h.sr_eq hc)).trans List.reverse_concat
  rw [shiftLine, shiftLine, hpush, hrev, List.reverse_cons, List.append_assoc]
  rfl

theorem issue_spush {s : State} (hc : configOk s.cfg = true) (v : Word) :
    issue s (commandOf .spush v) = some ([optionalResponse (tailSlot s)], shifted (accept s [] v)) :=
  issue_commandOf (s := s) hc rfl (exec_spush (s := accept s [] v) hc)

/-- The responses of a run of pushes are the head of the line, and the register holds the rest of it. -/
theorem ShiftOk.runEvents_spush (vs : List Word) {s : State} (h : ShiftOk s) (hc : configOk s.cfg = true) : ∃ t,
    runEvents (forEachValue .spush vs) s =
      some (((shiftLine s vs).take vs.length).map optionalResponse, t) ∧
      t.sr.reverse = (shiftLine s vs).drop vs.length := by
  induction vs generalizing s with
  | nil => exact ⟨s, rfl, (List.append_nil _).symm⟩
  | cons v vs ih =>
    obtain ⟨t, hrun, ht⟩ := ih (shiftOk_shifted (s := accept s [] v) h) hc
    rw [h.shiftLine_cons hc]
    exact ⟨t, runEvents_cons (issue_spush hc v) hrun, ht⟩

/-- From the empty register the line is `SR_STAGES` absent values and then the values pushed. -/
theorem getElem?_shiftLine_of_empty {s : State} (hs : s.sr = List.replicate s.cfg.srStages none) {vs : List Word}
    {m : Nat} (hm : m < s.cfg.srStages + vs.length) : (shiftLine s vs)[m]? =
      some (if m < s.cfg.srStages then none else (vs[m - s.cfg.srStages]?).map (truncData s.cfg)) := by
  rw [shiftLine, hs, List.reverse_replicate]
  split
  · next hlt => simp [List.getElem?_append, hlt]
  · next hge =>
    have hlt : m - s.cfg.srStages < vs.length := by omega
    simp [List.getElem?_append, hge, hlt]

end Sys2Proof.Safety

namespace Sys2Proof.Proofs

open Sys2Proof.Machine Sys2Proof.Safety

/-- Settles O43: a push is one value in front of the register without its tail; a get and a clear are one update. -/
theorem shiftRegisterResult : Obligations.ShiftRegisterResult := by
  refine ⟨decodesExactly_formatN (by rintro ⟨⟩ rfl; rfl) rfl,
    decodesExactly_formatC (by rintro ⟨⟩ rfl; rfl) (by simp [WellFormed]),
    decodesExactly_formatN (by rintro ⟨⟩ rfl; rfl) rfl, fun s hc hs => ⟨?_, fun st => exec_sget st s, ?_⟩⟩
  · have hpush : (shifted s).sr = some (storedOpa s) :: s.sr.dropLast := hs.pushedSlots_eq hc (storedOpa s)
    refine ⟨shifted s, exec_spush hc, (shiftOk_shifted hs).1, rfl, by rw [hpush]; rfl, fun j hpos hlt => ?_⟩
    have hkept : j - 1 < s.sr.length - 1 := by rw [hs.1]; omega
    rw [hpush, List.getElem?_cons, if_neg hpos.ne', List.getElem?_dropLast, if_pos hkept]
  · exact ⟨_, exec_sclr s, rfl, List.length_replicate, fun _ hx => List.eq_of_mem_replicate hx⟩

/-- Settles O44: the slots' data is written to the head of `FV`, and the mask is answered uncut. -/
theorem shiftGetAllResult : Obligations.ShiftGetAllResult := by
  refine ⟨decodesExactly_formatN (by rintro ⟨⟩ rfl; rfl) rfl, fun s hc hs => ?_⟩
  refine ⟨slotsToFv s, _, exec_sgetall s, ⟨rfl, fun j hj _ => ?_, fun j hj => ?_⟩, hs.getLsbD_presenceMask hc⟩
  · exact (hs.fvAt_slotsToFv hc j).trans (if_pos hj)
  · exact (hs.fvAt_slotsToFv hc j).trans (if_neg hj.not_gt)

/-- Settles O45: push number `m` returns entry `m` of the line, and slot `j` is the line's entry `j` from its end. -/
theorem mostRecentFirst : Obligations.MostRecentFirst := by
  intro vs s hc hs hempty
  have hline := @getElem?_shiftLine_of_empty s (List.eq_replicate_iff.2 ⟨hs.1, hempty⟩) vs
  have hlen : (shiftLine s vs).length = s.cfg.srStages + vs.length := by simp [shiftLine, hs.1]
  obtain ⟨t, hrun, ht⟩ := hs.runEvents_spush vs hc
  refine ⟨_, t, hrun, fun j hj => ?_, by simp [hlen], fun m hm => ?_⟩
  · have hsr : t.sr = ((shiftLine s vs).drop vs.length).reverse := by rw [← ht, List.reverse_reverse]
    have hslot : t.sr[j]? = (shiftLine s vs)[s.cfg.srStages + vs.length - 1 - j]? := by
      rw [hsr, List.getElem?_reverse (by simp [hlen, hj]), List.getElem?_drop, List.length_drop, hlen]
      congr 1
      omega
    rw [List.getD_eq_getElem?_getD, hslot, hline (by omega), Option.getD_some]
    by_cases hk : j < vs.length
    · rw [if_neg (by omega), if_pos hk]
      congr 2
      omega
    · rw [if_pos (by omega), if_neg hk]
  · rw [List.getElem?_map, List.getElem?_take_of_lt hm, hline (by omega), Option.map_some]

end Sys2Proof.Proofs
end

section
/-! PROOFS of the family 44_ring_buffer.md: the results of `RWR` and `RRD` (R260, R262) and of the accessors (R263 to
R265), and the order in which values come out of the buffer (R266). -/

namespace Sys2Proof.Safety

open Sys2Proof.Machine

/-! ## The commands (44_ring_buffer.md R260 to R265) -/

/-- `s` after an `RWR` of its operand word (R260). -/
def ringWritten (s : State) : State := answered (ringWrite s (storedOpa s)) false 0

theorem exec_rwr (s : State) : exec .rwr s = .next (ringWritten s) := rfl

theorem size_toNat_eq_zero {s : State} : s.size.toNat = 0 ↔ s.size = 0 := BitVec.toNat_inj (y := 0)

theorem exec_rrd_of_empty {s : State} (h : s.size = 0) : exec .rrd s = .next (answered s false 0) :=
  congrArg Host.Outcome.next (if_pos ((ringEmpty_iff s).2 (size_toNat_eq_zero.2 h)))

theorem exec_rrd_of_ne {s : State} (h : s.size ≠ 0) {v : Word} (hv : s.rb[s.ridx.toNat]? = some (some v)) :
    exec .rrd s = .next (answered (ringRead s) true v) := by
  have hne : ¬ ringEmpty s = true := fun he => h (size_toNat_eq_zero.1 ((ringEmpty_iff s).1 he))
  rw [exec, execRrd, if_neg hne, respondWord_toNat, readSlot, List.getD_eq_getElem?_getD, hv]
  rfl

theorem ofNat_bitOf (b : Bool) : BitVec.ofNat 64 (bitOf b) = if b then 1 else 0 := by cases b <;> rfl

theorem exec_rfull (s : State) :
    exec .rfull s = .next (answered s true (if s.size.toNat = s.cfg.rbCap then 1 else 0)) := by
  simp only [← ringFull_iff, ← ofNat_bitOf]
  rfl

theorem exec_rempty (s : State) : exec .rempty s = .next (answered s true (if s.size = 0 then 1 else 0)) := by
  simp only [← size_toNat_eq_zero, ← ringEmpty_iff, ← ofNat_bitOf]
  rfl

theorem exec_rsize (s : State) : exec .rsize s = .next (answered s true (s.size.setWidth 64)) := by
  rw [exec, execRsize, respondWord, BitVec.ofNat_toNat]
  rfl

/-! ## The read index after a command

Both commands move the read index along the ring: a write by the one entry it discards, if any, and a read by one. -/

theorem ringNext_toNat_mod {s : State} (hc : s.cfg.rbCap < 2 ^ 16) {i : BitVec 16} (hi : i.toNat < s.cfg.rbCap) :
    (ringNext s i).toNat = (i.toNat + 1) % s.cfg.rbCap := by
  rw [ringNext_toNat hc hi, add_mod_eq_ringWrap hi (by omega)]

/-- How many entries a write discards (R260). -/
def discarded (s : State) : Nat := if s.size.toNat = s.cfg.rbCap then 1 else 0

section Indices

variable {s : State} (h : RingOk s) (hc : s.cfg.rbCap < 2 ^ 16)

include h hc

theorem RingOk.ringWrite_ridx (v : Word) :
    (Machine.ringWrite s v).ridx.toNat = (s.ridx.toNat + discarded s) % s.cfg.rbCap := by
  rw [ringWrite_ridx_toNat hc h.ridx_lt, ← add_mod_eq_ringWrap h.ridx_lt h.ridx_lt.pos, discarded]
  split
  · rfl
  · exact (Nat.mod_eq_of_lt h.ridx_lt).symm

theorem RingOk.ringWrite_size (v : Word) :
    (Machine.ringWrite s v).size.toNat + discarded s = s.size.toNat + 1 := by
  rw [ringWrite_size_toNat hc h.size_le, discarded]
  split <;> rfl

end Indices

/-! ## The slots from the read index on (10_state.md R45) -/

/-- The slot `k` places after the read index. -/
def ringSlot (s : State) (k : Nat) : Val := s.rb.getD ((s.ridx.toNat + k) % s.cfg.rbCap) none

theorem ringContents_eq (s : State) : ringContents s = (List.range s.size.toNat).map (ringSlot s) := rfl

theorem length_ringContents (s : State) : (ringContents s).length = s.size.toNat := by simp [ringContents_eq]

/-- Two offsets less than one turn of the ring apart name the same slot only when they are equal. -/
theorem add_mod_eq_iff {r a b n : Nat} (hab : a < b + n) (hba : b < a + n) : (r + a) % n = (r + b) % n ↔ a = b := by
  refine ⟨fun h => ?_, fun h => h ▸ rfl⟩
  exact (Nat.ModEq.add_left_cancel' r h).eq_of_abs_lt (abs_lt.2 ⟨by omega, by omega⟩)

/-- The slots when the read index has moved by `d` and slot `m`, counted from the old read index, holds `x`. -/
theorem ringSlot_of_set {s t : State} {d m k : Nat} {x : Val} (hlen : s.rb.length = s.cfg.rbCap)
    (hcfg : t.cfg = s.cfg) (hrb : t.rb = s.rb.set ((s.ridx.toNat + m) % s.cfg.rbCap) x)
    (hridx : t.ridx.toNat = (s.ridx.toNat + d) % s.cfg.rbCap) (hkm : d + k < m + s.cfg.rbCap)
    (hmk : m < d + k + s.cfg.rbCap) : ringSlot t k = if d + k = m then x else ringSlot s (d + k) := by
  have hlt : (s.ridx.toNat + m) % s.cfg.rbCap < s.rb.length := hlen ▸ Nat.mod_lt _ (by omega)
  rw [ringSlot, hcfg, hridx, Nat.mod_add_mod, Nat.add_assoc, hrb, getD_set_of_lt _ _ _ hlt]
  simp only [add_mod_eq_iff hkm hmk]
  rfl

/-- A list of at most `n` elements is all of its last `n`. -/
theorem lastN_of_length_le {α : Type} {n : Nat} {xs : List α} (h : xs.length ≤ n) : lastN n xs = xs := by
  rw [lastN, Nat.sub_eq_zero_of_le h, List.drop_zero]

theorem lastN_lastN_append {α : Type} (n : Nat) (xs ys : List α) :
    lastN n (lastN n xs ++ ys) = lastN n (xs ++ ys) := by
  simp only [lastN, List.drop_append, List.drop_drop, List.length_append, List.length_drop]
  congr 2 <;> omega

theorem lastN_map {α β : Type} (n : Nat) (f : α → β) (xs : List α) : lastN n (xs.map f) = (lastN n xs).map f := by
  rw [lastN, lastN, List.map_drop, List.length_map]

theorem length_lastN {α : Type} (n : Nat) (xs : List α) : (lastN n xs).length = min xs.length n := by
  rw [lastN, List.length_drop]
  omega

section Contents

variable {s : State} (h : RingOk s) (hc : s.cfg.rbCap < 2 ^ 16)

include h

/-- R45 (b): the slot at the read index of a buffer that is not empty is present. -/
theorem RingOk.exists_oldest (hne : s.size ≠ 0) : ∃ v, s.rb[s.ridx.toNat]? = some (some v) := by
  have hpos : 0 < s.size.toNat := Nat.pos_of_ne_zero (mt size_toNat_eq_zero.1 hne)
  have hsome := (h.present _ h.ridx_lt).2 ⟨0, hpos, (Nat.mod_eq_of_lt h.ridx_lt).symm⟩
  obtain ⟨v, hv⟩ := Option.isSome_iff_exists.1 hsome
  have hlt : s.ridx.toNat < s.rb.length := h.slots ▸ h.ridx_lt
  rw [List.getD_eq_getElem _ _ hlt] at hv
  exact ⟨v, by rw [List.getElem?_eq_getElem hlt, hv]⟩

include hc

/-- A write puts the value behind the contents, of which the last `RB_CAP` stay (R260). -/
theorem RingOk.ringContents_ringWrite (v : Word) :
    ringContents (Machine.ringWrite s v) = lastN s.cfg.rbCap (ringContents s ++ [some v]) := by
  have hle := h.size_le
  have hsize := h.ringWrite_size hc v
  have hdrop : s.size.toNat + 1 - s.cfg.rbCap = discarded s := by rw [discarded]; split <;> omega
  have hslot (k : Nat) (hk : k < (Machine.ringWrite s v).size.toNat) : ringSlot (Machine.ringWrite s v) k =
      if discarded s + k = s.size.toNat then some v else ringSlot s (discarded s + k) :=
    ringSlot_of_set h.slots rfl (h.widx_eq ▸ rfl) (h.ringWrite_ridx hc v) (by omega) (by omega)
  rw [lastN, List.length_append, length_ringContents, List.length_singleton, hdrop]
  refine List.ext_getElem (by simp [length_ringContents]; omega) fun k hk _ => ?_
  rw [length_ringContents] at hk
  by_cases hlast : discarded s + k = s.size.toNat
  · simp [ringContents_eq, hslot k hk, hlast]
  · have hlt : discarded s + k < s.size.toNat := by omega
    simp [ringContents_eq, hslot k hk, hlast, hlt]

/-- A read takes the first of the contents (R262). -/
theorem RingOk.ringContents_eq_cons (hne : s.size ≠ 0) {v : Word} (hv : s.rb[s.ridx.toNat]? = some (some v)) :
    ringContents s = some v :: ringContents (Machine.ringRead s) := by
  have hle := h.size_le
  have hpos : s.size.toNat ≠ 0 := mt size_toNat_eq_zero.1 hne
  have hsize : s.size.toNat = (Machine.ringRead s).size.toNat + 1 := by
    rw [ringRead_size_toNat hpos, Nat.sub_one_add_one hpos]
  have hfirst : (s.ridx.toNat + 0) % s.cfg.rbCap = s.ridx.toNat := Nat.mod_eq_of_lt h.ridx_lt
  have hhead : ringSlot s 0 = some v := by rw [ringSlot, hfirst, List.getD_eq_getElem?_getD, hv]; rfl
  rw [ringContents_eq, hsize, List.range_succ_eq_map, List.map_cons, List.map_map, hhead, ringContents_eq]
  refine congrArg _ (List.map_congr_left fun k hk => ?_)
  have hk := List.mem_range.1 hk
  have hslot : ringSlot (Machine.ringRead s) k = if 1 + k = 0 then none else ringSlot s (1 + k) :=
    ringSlot_of_set h.slots rfl (hfirst.symm ▸ rfl) (ringNext_toNat_mod hc h.ridx_lt) (by omega) (by omega)
  rw [hslot, if_neg (by omega), Nat.add_comm]
  rfl

end Contents

/-! ## A run of writes, a run of reads (44_ring_buffer.md R266) -/

theorem issue_rwr {s : State} (hc : configOk s.cfg = true) (v : Word) : issue s (commandOf .rwr v) =
    some ([plainResponse .ok false 0], ringWritten (accept s [] v)) :=
  issue_commandOf (s := s) hc rfl (exec_rwr _)

theorem RingOk.ringWritten {s : State} (h : RingOk s) (hc : configOk s.cfg = true) : RingOk (ringWritten s) :=
  (h.ringWrite (ranges_of_configOk hc).cap_lt (truncData_fits s.cfg s.opa)).congr rfl rfl rfl rfl rfl

/-- A run of writes leaves the last `RB_CAP` of the old contents and the values written. -/
theorem RingOk.runEvents_rwr (vs : List Word) {s : State} (h : RingOk s) (hc : configOk s.cfg = true) : ∃ ws t,
    runEvents (forEachValue .rwr vs) s = some (ws, t) ∧ RingOk t ∧ t.cfg = s.cfg ∧
      ringContents t = lastN s.cfg.rbCap (ringContents s ++ vs.map fun v => some (truncData s.cfg v)) := by
  induction vs generalizing s with
  | nil =>
    refine ⟨[], s, rfl, h, rfl, ?_⟩
    rw [List.map_nil, List.append_nil, lastN_of_length_le ((length_ringContents s).trans_le h.size_le)]
  | cons v vs ih =>
    have haccept : RingOk (accept s [] v) := h.congr rfl rfl rfl rfl rfl
    have hfirst : ringContents (Safety.ringWritten (accept s [] v)) =
        lastN s.cfg.rbCap (ringContents s ++ [some (truncData s.cfg v)]) :=
      haccept.ringContents_ringWrite (ranges_of_configOk hc).cap_lt (truncData s.cfg v)
    obtain ⟨ws, t, hrun, ht, hcfg, hcontents⟩ := ih (haccept.ringWritten hc) hc
    refine ⟨_, t, runEvents_cons (issue_rwr hc v) hrun, ht, hcfg, hcontents.trans ?_⟩
    rw [hfirst]
    refine (lastN_lastN_append s.cfg.rbCap _ _).trans ?_
    rw [List.append_assoc]
    rfl

/-- As many reads as there are entries return the contents in order and leave the buffer empty. -/
theorem RingOk.runEvents_rrd {n : Nat} {s : State} (hn : s.size.toNat = n) (h : RingOk s)
    (hc : configOk s.cfg = true) : ∃ u,
    runEvents (repeated n .rrd) s = some ((ringContents s).map optionalResponse, u) ∧ u.size = 0 := by
  induction n generalizing s with
  | zero => exact ⟨s, by rw [ringContents_eq, hn]; rfl, size_toNat_eq_zero.1 hn⟩
  | succ n ih =>
    have hcap := (ranges_of_configOk hc).cap_lt
    have hpos : s.size.toNat ≠ 0 := by omega
    have hne : s.size ≠ 0 := mt size_toNat_eq_zero.2 hpos
    obtain ⟨v, hv⟩ := h.exists_oldest hne
    have hread : RingOk (answered (Machine.ringRead (accept s [] 0)) true v) :=
      (h.ringRead hcap hpos).congr rfl rfl rfl rfl rfl
    have hissue : issue s (commandOf .rrd 0) =
        some ([optionalResponse (some v)], answered (Machine.ringRead (accept s [] 0)) true v) :=
      issue_commandOf (s := s) hc rfl (exec_rrd_of_ne (s := accept s [] 0) hne hv)
    have hleft : (Machine.ringRead s).size.toNat = n := by rw [ringRead_size_toNat hpos, hn, Nat.add_sub_cancel]
    obtain ⟨u, hrun, hu⟩ := ih (s := answered (Machine.ringRead (accept s [] 0)) true v) hleft hread hc
    rw [h.ringContents_eq_cons hcap hne hv]
    exact ⟨u, runEvents_cons hissue hrun, hu⟩

end Sys2Proof.Safety

namespace Sys2Proof.Proofs

open Sys2Proof.Machine Sys2Proof.Safety

/-- Settles O46: a write is one update of the ring buffer's registers and slots, with no sum cut to 16 bits. -/
theorem ringWriteResult : Obligations.RingWriteResult := by
  refine ⟨decodesExactly_formatN (by rintro ⟨⟩ rfl; rfl) rfl, fun s hc h => ?_⟩
  have hcap := (ranges_of_configOk hc).cap_lt
  refine ⟨ringWritten s, exec_rwr s, rfl, fun j => getElem?_set_of_lt _ _ j _ (h.slots ▸ h.widx_lt),
    ringNext_toNat_mod hcap h.widx_lt, fun hnot => ⟨?_, ?_⟩, fun hfull => ⟨?_, ?_⟩⟩
  · exact (ringWrite_size_toNat hcap h.size_le (storedOpa s)).trans (if_neg hnot)
  · exact if_neg (mt (ringFull_iff s).1 hnot)
  · exact if_pos ((ringFull_iff s).2 hfull)
  · have hridx := h.ringWrite_ridx hcap (storedOpa s)
    rwa [discarded, if_pos hfull] at hridx

/-- Settles O47: the slot at the read index is occupied unless the buffer is empty, and a read is one update. -/
theorem ringReadResult : Obligations.RingReadResult := by
  refine ⟨decodesExactly_formatN (by rintro ⟨⟩ rfl; rfl) rfl, fun s hc h => ⟨exec_rrd_of_empty, fun hne => ?_⟩⟩
  obtain ⟨v, hv⟩ := h.exists_oldest hne
  exact ⟨_, v, exec_rrd_of_ne hne hv, hv, rfl, fun j => getElem?_set_of_lt _ _ j _ (h.slots ▸ h.ridx_lt),
    ringNext_toNat_mod (ranges_of_configOk hc).cap_lt h.ridx_lt,
    ringRead_size_toNat (mt size_toNat_eq_zero.1 hne)⟩

/-- Settles O49: the writes leave the last values as the contents, and the reads return the contents in order. -/
theorem fifoWithOverwrite : Obligations.FifoWithOverwrite := by
  intro vs s hc h hempty
  obtain ⟨ws, t, hwrites, ht, hcfg, hcontents⟩ := h.runEvents_rwr vs hc
  have hstart : ringContents s = [] := by rw [ringContents_eq, hempty]; rfl
  rw [hstart, List.nil_append, lastN_map] at hcontents
  have hsize : t.size.toNat = min vs.length s.cfg.rbCap := by
    rw [← length_ringContents, hcontents, List.length_map, length_lastN]
  obtain ⟨u, hreads, hu⟩ := ht.runEvents_rrd hsize (hcfg ▸ hc)
  refine ⟨ws, _, t, u, hwrites, hcontents, hreads, ?_, hu⟩
  rw [hcontents, List.map_map]
  rfl

/-- Settles O48: each accessor answers with a reading of the occupancy. -/
theorem ringAccessorsResult : Obligations.RingAccessorsResult :=
  ⟨decodesExactly_formatN (by rintro ⟨⟩ rfl; rfl) rfl, decodesExactly_formatN (by rintro ⟨⟩ rfl; rfl) rfl,
    decodesExactly_formatN (by rintro ⟨⟩ rfl; rfl) rfl, fun s => ⟨exec_rfull s, exec_rempty s, exec_rsize s⟩⟩

end Sys2Proof.Proofs
end

section
/-! PROOFS of the family 45_agents.md: the evaluation relation as one reading per descriptor (R293 to R303), the
machine's evaluator as a realisation of it under some sequence of draws (R305), the cells an evaluation can change and
depends on (R304), the pipeline algebra (R308) and `ARUN` (R309, R310). -/

namespace Sys2Proof.Safety

open Sys2Proof.Machine

/-! ## Results in sequence (45_agents.md §3, R306) -/

/-- The results of an evaluation that admits `A`, followed by the rest `K`: the relation's form of `andThen`. -/
inductive Then (A : AgentOutcome → Prop) (K : Val → List Word → AgentOutcome → Prop) : AgentOutcome → Prop where
  | next {y σ o} : A (.ok y σ) → K y σ o → Then A K o
  | fault : A .fault → Then A K .fault

theorem then_assoc (A : AgentOutcome → Prop) (K L : Val → List Word → AgentOutcome → Prop) :
    Then (Then A K) L = Then A fun y σ => Then (K y σ) L := by
  funext o
  refine propext ⟨fun h => ?_, fun h => ?_⟩
  · cases h with
    | next hAK hL => cases hAK with | next hA hK => exact .next hA (.next hK hL)
    | fault hAK =>
      cases hAK with
      | next hA hK => exact .next hA (.fault hK)
      | fault hA => exact .fault hA
  · cases h with
    | next hA hKL =>
      cases hKL with
      | next hK hL => exact .next (.next hA hK) hL
      | fault hK => exact .fault (.next hA hK)
    | fault hA => exact .fault (.fault hA)

theorem ok_then (x : Val) (σ : List Word) (K : Val → List Word → AgentOutcome → Prop) :
    Then (· = .ok x σ) K = K x σ := by
  funext o
  refine propext ⟨fun h => ?_, .next rfl⟩
  cases h with
  | next hA hK => cases hA; exact hK
  | fault hA => cases hA

theorem then_ok (A : AgentOutcome → Prop) : Then A (fun y σ => (· = .ok y σ)) = A := by
  funext o
  refine propext ⟨fun h => ?_, fun h => ?_⟩
  · cases h with
    | next hA hK => cases hK; exact hA
    | fault hA => exact hA
  · cases o with
    | ok y σ => exact .next h rfl
    | fault => exact .fault h

theorem not_then_fault {A : AgentOutcome → Prop} {K : Val → List Word → AgentOutcome → Prop} (hA : ¬ A .fault)
    (hK : ∀ y σ, ¬ K y σ .fault) : ¬ Then A K .fault := by
  intro h
  cases h with
  | next _ h => exact hK _ _ h
  | fault h => exact hA h

/-- Two evaluations one after the other, their outputs combined: one order of a `PAR` (R303). -/
def InTurn (A B : List Word → AgentOutcome → Prop) (f : Val → Val → Val) (σ : List Word) : AgentOutcome → Prop :=
  Then (A σ) fun y σ1 => Then (B σ1) fun z σ2 => (· = .ok (f y z) σ2)

/-! ## The evaluation relation, descriptor by descriptor (45_agents.md R293 to R303) -/

/-- The one result of a `CELL ci` primitive (R293). -/
def cellOutcome (c : Config) (ci : Nat) (x : Val) (σ : List Word) : AgentOutcome :=
  match x with
  | none => .fault
  | some v =>
    if c.nuf ≤ v.toNat then .fault
    else .ok (some (applyUpdate c v.toNat (σ.getD ci 0))) (σ.set ci (applyUpdate c v.toNat (σ.getD ci 0)))

theorem cellOutcome_of_le {c : Config} {v : Word} (h : c.nuf ≤ v.toNat) (ci : Nat) (σ : List Word) :
    cellOutcome c ci (some v) σ = .fault := if_pos h

theorem cellOutcome_of_lt {c : Config} {v : Word} (h : v.toNat < c.nuf) (ci : Nat) (σ : List Word) :
    cellOutcome c ci (some v) σ =
      .ok (some (applyUpdate c v.toNat (σ.getD ci 0))) (σ.set ci (applyUpdate c v.toNat (σ.getD ci 0))) :=
  if_neg h.not_ge

/-- The results the rules R293 to R303 give a descriptor, from those of the entries it names. -/
def Admitted (c : Config) (d : AgentDesc) (x : Val) (σ : List Word) : AgentOutcome → Prop :=
  match d with
  | .ident => (· = .ok x σ)
  | .pureFn k => (· = .ok (applyMap c k x) σ)
  | .cell ci => (· = cellOutcome c ci x σ)
  | .transform a k => Then (Eval c a x σ) fun y σ1 => (· = .ok (applyMap c k y) σ1)
  | .filter a p => Then (Eval c a x σ) fun y σ1 => (· = .ok (if applyPred c p y then y else none) σ1)
  | .pipe a b => Then (Eval c a x σ) (Eval c b)
  | .par a b k => fun o =>
    InTurn (Eval c a x) (Eval c b x) (applyCombine c k) σ o ∨
      InTurn (Eval c b x) (Eval c a x) (flip (applyCombine c k)) σ o
  | .shift a ss => Then (Eval c a x σ) (EvalStages c ss)
  | .feedback a n => EvalStages c (List.replicate n a) x σ

theorem exists_admitted_of_eval {c : Config} {e : Nat} {x : Val} {σ : List Word} {o : AgentOutcome}
    (h : Eval c e x σ o) : ∃ d, c.ag[e]? = some d ∧ Admitted c d x σ o := by
  cases h with
  | ident he => exact ⟨_, he, rfl⟩
  | pureFn he => exact ⟨_, he, rfl⟩
  | cellAbsent he => exact ⟨_, he, rfl⟩
  | cellUnnamed he hv => exact ⟨_, he, (cellOutcome_of_le hv _ _).symm⟩
  | cell he hv => exact ⟨_, he, (cellOutcome_of_lt hv _ _).symm⟩
  | transform he ha => exact ⟨_, he, .next ha rfl⟩
  | filter he ha => exact ⟨_, he, .next ha rfl⟩
  | pipe he ha hb => exact ⟨_, he, .next ha hb⟩
  | parAB he ha hb => exact ⟨_, he, .inl (.next ha (.next hb rfl))⟩
  | parBA he hb ha => exact ⟨_, he, .inr (.next hb (.next ha rfl))⟩
  | parABFault he ha hb => exact ⟨_, he, .inl (.next ha (.fault hb))⟩
  | parBAFault he hb ha => exact ⟨_, he, .inr (.next hb (.fault ha))⟩
  | parSecondFault he hb => exact ⟨_, he, .inr (.fault hb)⟩
  | shift he ha hs => exact ⟨_, he, .next ha hs⟩
  | feedback he hs => exact ⟨_, he, hs⟩
  | @firstFault _ a d _ _ he hfirst hd ha =>
    refine ⟨d, he, ?_⟩
    cases d with
    | ident | pureFn | cell => cases hfirst
    | transform | filter | pipe | shift => cases hfirst; exact .fault ha
    | par => cases hfirst; exact .inl (.fault ha)
    | feedback b n => exact absurd rfl (hd b n)

theorem eval_of_admitted {c : Config} {e : Nat} {d : AgentDesc} (he : c.ag[e]? = some d) {x : Val} {σ : List Word}
    {o : AgentOutcome} (h : Admitted c d x σ o) : Eval c e x σ o := by
  cases d with
  | ident => cases h; exact .ident he
  | pureFn k => cases h; exact .pureFn he
  | cell ci =>
    cases h
    cases x with
    | none => exact .cellAbsent he
    | some v =>
      by_cases hv : c.nuf ≤ v.toNat
      · rw [cellOutcome_of_le hv]; exact .cellUnnamed he hv
      · rw [cellOutcome_of_lt (Nat.lt_of_not_le hv)]; exact .cell he (Nat.lt_of_not_le hv)
  | transform a k =>
    cases h with
    | next ha hr => cases hr; exact .transform he ha
    | fault ha => exact .firstFault he rfl (by simp) ha
  | filter a p =>
    cases h with
    | next ha hr => cases hr; exact .filter he ha
    | fault ha => exact .firstFault he rfl (by simp) ha
  | pipe a b =>
    cases h with
    | next ha hb => exact .pipe he ha hb
    | fault ha => exact .firstFault he rfl (by simp) ha
  | par a b k =>
    obtain (h | h) := h
    · cases h with
      | next ha hrest =>
        cases hrest with
        | next hb hr => cases hr; exact .parAB he ha hb
        | fault hb => exact .parABFault he ha hb
      | fault ha => exact .firstFault he rfl (by simp) ha
    · cases h with
      | next hb hrest =>
        cases hrest with
        | next ha hr => cases hr; exact .parBA he hb ha
        | fault ha => exact .parBAFault he hb ha
      | fault hb => exact .parSecondFault he hb
  | shift a ss =>
    cases h with
    | next ha hs => exact .shift he ha hs
    | fault ha => exact .firstFault he rfl (by simp) ha
  | feedback a n => exact .feedback he h

/-- An entry admits the results of its descriptor. -/
theorem eval_eq {c : Config} {e : Nat} {d : AgentDesc} (he : c.ag[e]? = some d) : Eval c e = Admitted c d := by
  funext x σ o
  refine propext ⟨fun h => ?_, eval_of_admitted he⟩
  obtain ⟨d', he', h'⟩ := exists_admitted_of_eval h
  cases he.symm.trans he'
  exact h'

theorem lt_nagents_of_eval {c : Config} {e : Nat} {x : Val} {σ : List Word} {o : AgentOutcome}
    (h : Eval c e x σ o) : e < c.nagents :=
  have ⟨_, he, _⟩ := exists_admitted_of_eval h
  (List.getElem?_eq_some_iff.1 he).1

theorem evalStages_nil (c : Config) : EvalStages c [] = fun y σ => (· = .ok y σ) := by
  funext y σ o
  refine propext ⟨fun h => ?_, fun h => ?_⟩
  · cases h; rfl
  · cases h; exact .done

theorem evalStages_cons (c : Config) (j : Nat) (js : List Nat) :
    EvalStages c (j :: js) = fun y σ => Then (Eval c j y σ) (EvalStages c js) := by
  funext y σ o
  refine propext ⟨fun h => ?_, fun h => ?_⟩
  · cases h with
    | stage hj hjs => exact .next hj hjs
    | stageFault hj => exact .fault hj
  · cases h with
    | next hj hjs => exact .stage hj hjs
    | fault hj => exact .stageFault hj

/-- Induction over the table: in a well-formed configuration an entry names only smaller ones (R296 (a), R297). -/
theorem entry_induction {c : Config} (hc : configOk c = true) {P : Nat → Prop}
    (h : ∀ (e : Nat) d, c.ag[e]? = some d → (∀ j ∈ namedBy d, P j) → P e) (e : Nat) (he : e < c.nagents) : P e := by
  induction e using Nat.strong_induction_on with
  | _ e ih =>
    have hd : c.ag[e]? = some c.ag[e] := List.getElem?_eq_getElem he
    refine h e _ hd fun j hj => ?_
    have hlt : j < e := lt_of_namedBy (descOk_of_configOk hc hd) j hj
    exact ih j hlt (hlt.trans he)

/-! ## The pipeline algebra (45_agents.md R308) -/

theorem eval_of_isPipeChain {c : Config} (ss : List Nat) {a p : Nat} (h : IsPipeChain c a ss p) (x : Val)
    (σ : List Word) : Eval c p x σ = Then (Eval c a x σ) (EvalStages c ss) := by
  induction ss generalizing a with
  | nil =>
    cases h
    rw [evalStages_nil, then_ok]
  | cons j js ih =>
    obtain ⟨q, hq, hp⟩ := h
    calc Eval c p x σ = Then (Eval c q x σ) (EvalStages c js) := ih hp
      _ = Then (Then (Eval c a x σ) (Eval c j)) (EvalStages c js) := by rw [eval_eq hq, Admitted]
      _ = Then (Eval c a x σ) (EvalStages c (j :: js)) := by rw [then_assoc, evalStages_cons]

/-! ## The machine's evaluator realises the relation (45_agents.md R303, R305) -/

/-- The machine's form of an outcome, with `d` draws taken. -/
def ended : AgentOutcome → Nat → EvalResult
  | .ok y σ, d => .ok y ⟨σ, d⟩
  | .fault, d => .fault d

@[simp] theorem outcomeOf_ended (o : AgentOutcome) (d : Nat) : outcomeOf (ended o d) = some o := by cases o <;> rfl

/-- `order` gives the draws `l` from count `d` on. -/
def Draws (order : Nat → ParOrder) (d : Nat) (l : List ParOrder) : Prop := ∀ i p, l[i]? = some p → order (d + i) = p

theorem exists_draws (d : Nat) (l : List ParOrder) : ∃ order, Draws order d l :=
  ⟨fun n => l.getD (n - d) .ab, fun i p h => by simp [h]⟩

theorem draws_of_append {order : Nat → ParOrder} {d : Nat} {l m : List ParOrder} (h : Draws order d (l ++ m)) :
    Draws order d l ∧ Draws order (d + l.length) m := by
  refine ⟨fun i p hi => h i p ?_, fun i p hi => ?_⟩
  · rw [List.getElem?_append_left (List.getElem?_eq_some_iff.1 hi).1, hi]
  · rw [Nat.add_assoc]
    refine h (l.length + i) p ?_
    rw [List.getElem?_append_right (Nat.le_add_right ..), Nat.add_sub_cancel_left, hi]

theorem draws_of_cons {order : Nat → ParOrder} {d : Nat} {p : ParOrder} {l : List ParOrder}
    (h : Draws order d (p :: l)) : order d = p ∧ Draws order (d + 1) l :=
  ⟨h 0 p rfl, fun i q hi => (Nat.succ_add_eq_add_succ d i).symm ▸ h (i + 1) q hi⟩

/-- The computation `m`, a function of the draws and of how many have been taken, realises the results `A`: it always
ends with one of them, and each of them is forced by some list of draws, which `m` then uses up. -/
structure Realizes (m : (Nat → ParOrder) → Nat → EvalResult) (A : AgentOutcome → Prop) : Prop where
  ends : ∀ order d, ∃ o d', A o ∧ m order d = ended o d'
  forced : ∀ o, A o → ∃ l, ∀ order d, Draws order d l → m order d = ended o (d + l.length)

/-- A computation that takes no draw has one result. -/
theorem realizes_ended (o : AgentOutcome) : Realizes (fun _ => ended o) (· = o) where
  ends _ d := ⟨o, d, rfl, rfl⟩
  forced _ h := ⟨[], fun _ _ _ => h ▸ rfl⟩

theorem Realizes.andThen {m : (Nat → ParOrder) → Nat → EvalResult} {A : AgentOutcome → Prop}
    {k : (Nat → ParOrder) → Val → Thread → EvalResult} {K : Val → List Word → AgentOutcome → Prop}
    (hm : Realizes m A) (hk : ∀ y σ, Realizes (fun order d => k order y ⟨σ, d⟩) (K y σ)) :
    Realizes (fun order d => andThen (m order d) (k order)) (Then A K) where
  ends order d := by
    obtain ⟨o, d1, ho, hd⟩ := hm.ends order d
    rw [hd]
    cases o with
    | fault => exact ⟨.fault, d1, .fault ho, rfl⟩
    | ok y σ =>
      obtain ⟨o', d2, ho', hd'⟩ := (hk y σ).ends order d1
      exact ⟨o', d2, .next ho ho', hd'⟩
  forced o h := by
    cases h with
    | fault hA =>
      obtain ⟨l, hl⟩ := hm.forced _ hA
      exact ⟨l, fun order d hd => by rw [hl order d hd]; rfl⟩
    | @next y σ _ hA hK =>
      obtain ⟨l1, hl1⟩ := hm.forced _ hA
      obtain ⟨l2, hl2⟩ := (hk y σ).forced o hK
      refine ⟨l1 ++ l2, fun order d hd => ?_⟩
      obtain ⟨hd1, hd2⟩ := draws_of_append hd
      rw [hl1 order d hd1, List.length_append, ← Nat.add_assoc]
      exact hl2 order _ hd2

/-- One draw decides between two computations (R305). -/
theorem Realizes.draw {m m' : (Nat → ParOrder) → Nat → EvalResult} {A B : AgentOutcome → Prop}
    (hm : Realizes m A) (hm' : Realizes m' B) :
    Realizes (fun order d => match order d with
      | .ab => m order (d + 1)
      | .ba => m' order (d + 1)) (fun o => A o ∨ B o) where
  ends order d := by
    cases hd : order d with
    | ab =>
      obtain ⟨o, d', ho, h⟩ := hm.ends order (d + 1)
      exact ⟨o, d', .inl ho, h⟩
    | ba =>
      obtain ⟨o, d', ho, h⟩ := hm'.ends order (d + 1)
      exact ⟨o, d', .inr ho, h⟩
  forced o h := by
    obtain (hA | hB) := h
    · obtain ⟨l, hl⟩ := hm.forced o hA
      refine ⟨.ab :: l, fun order d hd => ?_⟩
      obtain ⟨hp, hd⟩ := draws_of_cons hd
      rw [hp, List.length_cons, ← Nat.add_assoc, Nat.add_right_comm]
      exact hl order _ hd
    · obtain ⟨l, hl⟩ := hm'.forced o hB
      refine ⟨.ba :: l, fun order d hd => ?_⟩
      obtain ⟨hp, hd⟩ := draws_of_cons hd
      rw [hp, List.length_cons, ← Nat.add_assoc, Nat.add_right_comm]
      exact hl order _ hd

theorem evalCell_eq_ended (c : Config) (ci : Nat) (x : Val) (σ : List Word) (d : Nat) :
    evalCell c ci x ⟨σ, d⟩ = ended (cellOutcome c ci x σ) d := by
  cases x with
  | none => rfl
  | some v =>
    by_cases hv : c.nuf ≤ v.toNat
    · rw [cellOutcome_of_le hv, evalCell, if_pos hv]; rfl
    · rw [cellOutcome_of_lt (Nat.lt_of_not_le hv), evalCell, if_neg hv]; rfl

/-- `FEEDBACK` runs as a `SHIFT` over copies of its agent does (R301, R302). -/
theorem iterateAgent_eq_runStages (sub : Nat → Val → Thread → EvalResult) (a n : Nat) (y : Val) (t : Thread) :
    iterateAgent (sub a) n y t = runStages sub (List.replicate n a) y t := by
  induction n generalizing y t with
  | zero => rfl
  | succ n ih => exact andThen_congr ih

/-- The machine's evaluation of entry `e` realises its admitted results, on every input and cell file. -/
def EntryRealized (c : Config) (e : Nat) : Prop :=
  ∀ x σ, Realizes (fun order d => evalAgent c order e x ⟨σ, d⟩) (Eval c e x σ)

theorem realizes_runStages {c : Config} (js : List Nat) (h : ∀ j ∈ js, EntryRealized c j) (y : Val) (σ : List Word) :
    Realizes (fun order d => runStages (evalAgent c order) js y ⟨σ, d⟩) (EvalStages c js y σ) := by
  induction js generalizing y σ with
  | nil =>
    rw [evalStages_nil]
    exact realizes_ended (.ok y σ)
  | cons j js ih =>
    rw [evalStages_cons]
    exact (h j (by simp) y σ).andThen (ih fun i hi => h i (by simp [hi]))

theorem realizes_evalDesc {c : Config} (d : AgentDesc) (h : ∀ j ∈ namedBy d, EntryRealized c j) (x : Val)
    (σ : List Word) : Realizes (fun order n => evalDesc c order (evalAgent c order) d x ⟨σ, n⟩) (Admitted c d x σ) := by
  cases d with
  | ident => exact realizes_ended (.ok x σ)
  | pureFn k => exact realizes_ended (.ok (applyMap c k x) σ)
  | cell ci =>
    simp only [evalDesc, evalCell_eq_ended]
    exact realizes_ended (cellOutcome c ci x σ)
  | transform a k =>
    exact (h a (by simp [namedBy]) x σ).andThen fun y σ1 => realizes_ended (.ok (applyMap c k y) σ1)
  | filter a p =>
    exact (h a (by simp [namedBy]) x σ).andThen fun y σ1 =>
      realizes_ended (.ok (if applyPred c p y then y else none) σ1)
  | pipe a b => exact (h a (by simp [namedBy]) x σ).andThen (h b (by simp [namedBy]))
  | par a b k =>
    have ha := h a (by simp [namedBy])
    have hb := h b (by simp [namedBy])
    exact Realizes.draw
      ((ha x σ).andThen fun ya σ1 => (hb x σ1).andThen fun yb σ2 => realizes_ended (.ok (applyCombine c k ya yb) σ2))
      ((hb x σ).andThen fun yb σ1 => (ha x σ1).andThen fun ya σ2 => realizes_ended (.ok (applyCombine c k ya yb) σ2))
  | shift a ss =>
    exact (h a (by simp [namedBy]) x σ).andThen (realizes_runStages ss fun j hj => h j (by simp [namedBy, hj]))
  | feedback a n =>
    simp only [evalDesc, iterateAgent_eq_runStages]
    refine realizes_runStages _ (fun j hj => ?_) x σ
    exact h j (by simp [namedBy, List.eq_of_mem_replicate hj])

theorem entryRealized {c : Config} (hc : configOk c = true) (e : Nat) (he : e < c.nagents) : EntryRealized c e :=
  entry_induction hc (fun e d he ih x σ => by
    simp only [eval_eq he, evalAgent_eq hc _ he]
    exact realizes_evalDesc d ih x σ) e he

/-! ## The cells an evaluation reaches (45_agents.md R304) -/

/-- `τ` has the size of `σ` and its value in every cell that entry `e` does not reach. -/
def KeepsUnreached (c : Config) (e : Nat) (σ τ : List Word) : Prop :=
  τ.length = σ.length ∧ ∀ j, ¬ ReachesCell c e j → τ[j]? = σ[j]?

theorem KeepsUnreached.set {c : Config} {e ci : Nat} {σ τ : List Word} (h : KeepsUnreached c e σ τ)
    (hci : ReachesCell c e ci) (v : Word) : KeepsUnreached c e σ (τ.set ci v) := by
  obtain ⟨hlen, hcells⟩ := h
  refine ⟨(List.length_set ..).trans hlen, fun j hj => ?_⟩
  have hne : ci ≠ j := fun heq => hj (heq ▸ hci)
  exact (List.getElem?_set_ne hne).trans (hcells j hj)

theorem keepsUnreached_of_evalAgent {c : Config} {order : Nat → ParOrder} {e : Nat} {x y : Val} {t t' : Thread}
    (h : evalAgent c order e x t = .ok y t') : KeepsUnreached c e t.cells t'.cells :=
  evalAgent_keeps c order (fun u => KeepsUnreached c e t.cells u.cells) (fun _ hu => hu) e x t y t'
    (fun _ _ _ hci _ hu => hu.set hci _) h ⟨rfl, fun _ _ => rfl⟩

theorem keepsUnreached_of_eval {c : Config} (hc : configOk c = true) {e : Nat} {x y : Val} {σ τ : List Word}
    (h : Eval c e x σ (.ok y τ)) : KeepsUnreached c e σ τ := by
  obtain ⟨l, hl⟩ := (entryRealized hc e (lt_nagents_of_eval h) x σ).forced _ h
  obtain ⟨order, horder⟩ := exists_draws 0 l
  exact keepsUnreached_of_evalAgent (hl order 0 horder)

theorem KeepsUnreached.eq {c : Config} {e : Nat} {σ τ : List Word} (h : KeepsUnreached c e σ τ)
    (hno : ∀ ci, ¬ ReachesCell c e ci) : τ = σ := List.ext_getElem? fun j => h.2 j (hno j)

/-! ## Only a `CELL` primitive faults (45_agents.md R306) -/

/-- No evaluation of entry `e` faults. -/
def FaultFree (c : Config) (e : Nat) : Prop := ∀ x σ, ¬ Eval c e x σ .fault

theorem not_evalStages_fault {c : Config} (js : List Nat) (h : ∀ j ∈ js, FaultFree c j) (y : Val)
    (σ : List Word) : ¬ EvalStages c js y σ .fault := by
  induction js generalizing y σ with
  | nil => simp [evalStages_nil]
  | cons j js ih =>
    rw [evalStages_cons]
    exact not_then_fault (h j (by simp) y σ) (ih fun i hi => h i (by simp [hi]))

theorem not_admitted_fault {c : Config} {d : AgentDesc} (hcell : ∀ ci, d ≠ .cell ci)
    (h : ∀ j ∈ namedBy d, FaultFree c j) (x : Val) (σ : List Word) : ¬ Admitted c d x σ .fault := by
  cases d with
  | ident | pureFn => exact AgentOutcome.noConfusion
  | cell ci => exact absurd rfl (hcell ci)
  | transform a | filter a => exact not_then_fault (h a (by simp [namedBy]) x σ) fun _ _ => AgentOutcome.noConfusion
  | pipe a b => exact not_then_fault (h a (by simp [namedBy]) x σ) (h b (by simp [namedBy]))
  | par a b k =>
    have ha := h a (by simp [namedBy]) x
    have hb := h b (by simp [namedBy]) x
    exact not_or_intro
      (not_then_fault (ha σ) fun _ σ1 => not_then_fault (hb σ1) fun _ _ => AgentOutcome.noConfusion)
      (not_then_fault (hb σ) fun _ σ1 => not_then_fault (ha σ1) fun _ _ => AgentOutcome.noConfusion)
  | shift a ss =>
    exact not_then_fault (h a (by simp [namedBy]) x σ)
      (not_evalStages_fault ss fun j hj => h j (by simp [namedBy, hj]))
  | feedback a n =>
    refine not_evalStages_fault _ (fun j hj => ?_) x σ
    exact h j (by simp [namedBy, List.eq_of_mem_replicate hj])

theorem faultFree_of_not_reachesCell {c : Config} (hc : configOk c = true) (e : Nat) (he : e < c.nagents)
    (hno : ∀ ci, ¬ ReachesCell c e ci) : FaultFree c e := by
  refine entry_induction (P := fun e => (∀ ci, ¬ ReachesCell c e ci) → FaultFree c e) hc (fun e d he ih hno => ?_)
    e he hno
  rw [FaultFree, eval_eq he]
  exact not_admitted_fault (fun ci hd => hno ci (.here (hd ▸ he))) fun j hj =>
    ih j hj fun ci hj' => hno ci (.through he hj hj')

/-! ## What an evaluation depends on (45_agents.md R304, R305) -/

/-- The two cell files hold the same in the cells of `R`. -/
def SameOn (R : Nat → Prop) (σ τ : List Word) : Prop := ∀ j, R j → σ[j]? = τ[j]?

/-- Both outcomes are faults, or the outputs are equal and so are the cells of `R`. -/
inductive Alike (R : Nat → Prop) : AgentOutcome → AgentOutcome → Prop where
  | ok {y σ τ} : SameOn R σ τ → Alike R (.ok y σ) (.ok y τ)
  | fault : Alike R .fault .fault

/-- Any two results, one admitted by `A` and one by `B`, are alike. -/
def AllAlike (R : Nat → Prop) (A B : AgentOutcome → Prop) : Prop := ∀ o o', A o → B o' → Alike R o o'

theorem allAlike_eq {R : Nat → Prop} {o o' : AgentOutcome} (h : Alike R o o') : AllAlike R (· = o) (· = o') := by
  rintro _ _ rfl rfl
  exact h

theorem AllAlike.andThen {R : Nat → Prop} {A B : AgentOutcome → Prop} {K L : Val → List Word → AgentOutcome → Prop}
    (hAB : AllAlike R A B) (hKL : ∀ y σ τ, SameOn R σ τ → AllAlike R (K y σ) (L y τ)) :
    AllAlike R (Then A K) (Then B L) := by
  intro o o' h h'
  cases h with
  | next hA hK =>
    cases h' with
    | next hB hL => cases hAB _ _ hA hB with | ok hσ => exact hKL _ _ _ hσ _ _ hK hL
    | fault hB => cases hAB _ _ hA hB
  | fault hA =>
    cases h' with
    | next hB hL => cases hAB _ _ hA hB
    | fault _ => exact .fault

/-- Evaluations on cell files that hold the same in `R` give alike results. -/
def DependsOn (R : Nat → Prop) (P : List Word → AgentOutcome → Prop) : Prop :=
  ∀ σ τ, SameOn R σ τ → AllAlike R (P σ) (P τ)

theorem DependsOn.inTurn {R : Nat → Prop} {A B : List Word → AgentOutcome → Prop} (hA : DependsOn R A)
    (hB : DependsOn R B) (f : Val → Val → Val) : DependsOn R (InTurn A B f) := fun σ τ h =>
  (hA σ τ h).andThen fun _ σ1 τ1 h1 => (hB σ1 τ1 h1).andThen fun _ _ _ h2 => allAlike_eq (.ok h2)

/-- The evaluation `P` changes no cell outside `Q`, and what it does in a set of cells that contains `Q` depends on that
set alone. -/
structure StaysWithin (Q : Nat → Prop) (P : List Word → AgentOutcome → Prop) : Prop where
  keeps : ∀ σ y τ, P σ (.ok y τ) → SameOn (fun j => ¬ Q j) σ τ
  dependsOn : ∀ R : Nat → Prop, (∀ j, Q j → R j) → DependsOn R P

/-- Two evaluations that stay within disjoint sets of cells give alike results in either order (R305). -/
theorem StaysWithin.allAlike_swapped {Q Q' R : Nat → Prop} {A B : List Word → AgentOutcome → Prop}
    (hA : StaysWithin Q A) (hB : StaysWithin Q' B) (hdisj : ∀ j, Q j → ¬ Q' j) (hQ : ∀ j, Q j → R j)
    (hQ' : ∀ j, Q' j → R j) (f : Val → Val → Val) {σ τ : List Word} (hστ : SameOn R σ τ) :
    AllAlike R (InTurn A B f σ) (InTurn B A (flip f) τ) := by
  have hBfirst (σ1 : List Word) (y : Val) (h : A σ (.ok y σ1)) : AllAlike (fun j => R j ∧ ¬ Q j) (B σ1) (B τ) :=
    hB.dependsOn _ (fun j hj => ⟨hQ' j hj, fun hq => hdisj j hq hj⟩) σ1 τ fun j hj =>
      (hA.keeps σ y σ1 h j hj.2).symm.trans (hστ j hj.1)
  have hAsecond (τ1 : List Word) (z : Val) (h : B τ (.ok z τ1)) : AllAlike (fun j => R j ∧ ¬ Q' j) (A σ) (A τ1) :=
    hA.dependsOn _ (fun j hj => ⟨hQ j hj, hdisj j hj⟩) σ τ1 fun j hj =>
      (hστ j hj.1).trans (hB.keeps τ z τ1 h j hj.2)
  intro o o' h h'
  cases h' with
  | fault hB0 =>
    cases h with
    | fault _ => exact .fault
    | next hA1 hrest =>
      cases hrest with
      | fault _ => exact .fault
      | next hB2 _ => cases hBfirst _ _ hA1 _ _ hB2 hB0
  | @next z τ1 _ hB1 hrest' =>
    cases h with
    | fault hA0 =>
      cases hrest' with
      | fault _ => exact .fault
      | next hA2 _ => cases hAsecond _ _ hB1 _ _ hA0 hA2
    | @next y σ1 _ hA1 hrest =>
      cases hrest with
      | fault hB2 => cases hBfirst _ _ hA1 _ _ hB2 hB1
      | @next _ σ2 _ hB2 hr =>
        cases hrest' with
        | fault hA2 => cases hAsecond _ _ hB1 _ _ hA1 hA2
        | @next _ τ2 _ hA2 hr' =>
          cases hr
          cases hr'
          obtain ⟨hcellsB⟩ := hBfirst _ _ hA1 _ _ hB2 hB1
          obtain ⟨hcellsA⟩ := hAsecond _ _ hB1 _ _ hA1 hA2
          refine .ok fun j hj => ?_
          by_cases hq : Q j
          · calc σ2[j]? = σ1[j]? := (hB.keeps _ _ _ hB2 j (hdisj j hq)).symm
              _ = τ2[j]? := hcellsA j ⟨hj, hdisj j hq⟩
          · calc σ2[j]? = τ1[j]? := hcellsB j ⟨hj, hq⟩
              _ = τ2[j]? := hA.keeps _ _ _ hA2 j hq

theorem SameOn.set {R : Nat → Prop} {σ τ : List Word} (h : SameOn R σ τ) (ci : Nat) (v : Word) :
    SameOn R (σ.set ci v) (τ.set ci v) := fun j hj => by rw [List.getElem?_set', List.getElem?_set', h j hj]

theorem alike_cellOutcome {R : Nat → Prop} {σ τ : List Word} (h : SameOn R σ τ) (c : Config) {ci : Nat} (hci : R ci)
    (x : Val) : Alike R (cellOutcome c ci x σ) (cellOutcome c ci x τ) := by
  cases x with
  | none => exact .fault
  | some v =>
    by_cases hv : c.nuf ≤ v.toNat
    · rw [cellOutcome_of_le hv, cellOutcome_of_le hv]
      exact .fault
    · have hv := Nat.lt_of_not_le hv
      have hvalue : σ.getD ci 0 = τ.getD ci 0 := by
        rw [List.getD_eq_getElem?_getD, h ci hci, List.getD_eq_getElem?_getD]
      rw [cellOutcome_of_lt hv, cellOutcome_of_lt hv, hvalue]
      exact .ok (h.set ci _)

theorem dependsOn_evalStages {R : Nat → Prop} {c : Config} (js : List Nat)
    (h : ∀ j ∈ js, ∀ x, DependsOn R (Eval c j x)) (y : Val) : DependsOn R (EvalStages c js y) := by
  induction js generalizing y with
  | nil =>
    intro σ τ hστ
    rw [evalStages_nil]
    exact allAlike_eq (.ok hστ)
  | cons j js ih =>
    intro σ τ hστ
    rw [evalStages_cons]
    exact (h j (by simp) y σ τ hστ).andThen fun y' => ih (fun i hi => h i (by simp [hi])) y'

/-- The results of an entry depend on the cells it reaches alone. -/
def DependsOnReached (c : Config) (e : Nat) : Prop :=
  ∀ R : Nat → Prop, (∀ ci, ReachesCell c e ci → R ci) → ∀ x, DependsOn R (Eval c e x)

theorem staysWithin_eval {c : Config} (hc : configOk c = true) {e : Nat} (h : DependsOnReached c e) (x : Val) :
    StaysWithin (ReachesCell c e) (Eval c e x) where
  keeps _ _ _ he j hj := ((keepsUnreached_of_eval hc he).2 j hj).symm
  dependsOn R hR := h R hR x

theorem dependsOnReached {c : Config} (hc : configOk c = true) (hdisj : ParsDisjoint c) (e : Nat)
    (he : e < c.nagents) : DependsOnReached c e := by
  refine entry_induction hc (fun e d he ih R hR x σ τ hστ => ?_) e he
  have reached (j : Nat) (hj : j ∈ namedBy d) (ci : Nat) (h : ReachesCell c j ci) : R ci := hR ci (.through he hj h)
  have sub (j : Nat) (hj : j ∈ namedBy d) : ∀ x, DependsOn R (Eval c j x) := ih j hj R (reached j hj)
  rw [eval_eq he]
  cases d with
  | ident => exact allAlike_eq (.ok hστ)
  | pureFn k => exact allAlike_eq (.ok hστ)
  | cell ci => exact allAlike_eq (alike_cellOutcome hστ c (hR ci (.here he)) x)
  | transform a | filter a =>
    exact (sub a (by simp [namedBy]) x σ τ hστ).andThen fun _ _ _ h => allAlike_eq (.ok h)
  | pipe a b => exact (sub a (by simp [namedBy]) x σ τ hστ).andThen (sub b (by simp [namedBy]))
  | par a b k =>
    have ha : a ∈ namedBy (.par a b k) := by simp [namedBy]
    have hb : b ∈ namedBy (.par a b k) := by simp [namedBy]
    have la := staysWithin_eval hc (ih a ha) x
    have lb := staysWithin_eval hc (ih b hb) x
    have hab : ∀ ci, ReachesCell c a ci → ¬ ReachesCell c b ci := hdisj e a b k he
    have hba : ∀ ci, ReachesCell c b ci → ¬ ReachesCell c a ci := fun ci h h' => hab ci h' h
    rintro o o' (h | h) (h' | h')
    · exact (sub a ha x).inTurn (sub b hb x) _ σ τ hστ o o' h h'
    · exact la.allAlike_swapped lb hab (reached a ha) (reached b hb) _ hστ o o' h h'
    · exact lb.allAlike_swapped la hba (reached b hb) (reached a ha) _ hστ o o' h h'
    · exact (sub b hb x).inTurn (sub a ha x) _ σ τ hστ o o' h h'
  | shift a ss =>
    exact (sub a (by simp [namedBy]) x σ τ hστ).andThen
      (dependsOn_evalStages ss fun j hj => sub j (by simp [namedBy, hj]))
  | feedback a n =>
    refine dependsOn_evalStages _ (fun j hj => sub j ?_) x σ τ hστ
    simp [namedBy, List.eq_of_mem_replicate hj]

theorem Alike.eq {o o' : AgentOutcome} (h : Alike (fun _ => True) o o') : o = o' := by
  cases h with
  | ok hcells => rw [List.ext_getElem? fun j => hcells j trivial]
  | fault => rfl

/-- With disjoint `PAR` sub-agents an entry admits one result (R305). -/
theorem eval_unique {c : Config} (hc : configOk c = true) (hdisj : ParsDisjoint c) {e : Nat} {x : Val}
    {σ : List Word} {o o' : AgentOutcome} (h : Eval c e x σ o) (h' : Eval c e x σ o') : o = o' :=
  (dependsOnReached hc hdisj e (lt_nagents_of_eval h) (fun _ => True) (fun _ _ => trivial) x σ σ (fun _ _ => rfl)
    o o' h h').eq

end Sys2Proof.Safety

namespace Sys2Proof.Machine

open Sys2Proof.Safety

/-! ## `SHIFT` as a left fold, `FEEDBACK` as an iteration (45_agents.md R301, R302) -/

theorem andThen_assoc (r : EvalResult) (k l : Val → Thread → EvalResult) :
    andThen (andThen r k) l = andThen r fun y t => andThen (k y t) l := by
  cases r <;> rfl

theorem andThen_ok_eq (r : EvalResult) : andThen r .ok = r := by cases r <;> rfl

theorem andThen_runStages (sub : Nat → Val → Thread → EvalResult) (js : List Nat) (r : EvalResult) :
    andThen r (runStages sub js) = js.foldl (fun r j => andThen r (sub j)) r := by
  induction js generalizing r with
  | nil => exact andThen_ok_eq r
  | cons j js ih => exact (andThen_assoc r (sub j) (runStages sub js)).symm.trans (ih _)

theorem andThen_iterateAgent (f : Val → Thread → EvalResult) (n : Nat) (r : EvalResult) :
    andThen r (iterateAgent f n) = (fun r => andThen r f)^[n] r := by
  induction n generalizing r with
  | zero => exact andThen_ok_eq r
  | succ n ih => exact (andThen_assoc r f (iterateAgent f n)).symm.trans (ih _)

/-! ## `ARUN` (45_agents.md R309, R310) -/

theorem decodesExactly_formatG {op : BitVec 6} {legal : Fields → Prop} {i : BitVec 1 → BitVec 10 → Instr}
    (hd : ∀ f : Fields, f.op = op → decodeFields f = formatG f i)
    (hl : ∀ f : Fields, legal f ↔ f.a = 0 ∧ f.b = 0 ∧ WellFormed (i f.iv f.c) = true) :
    DecodesExactly op legal fun f => i f.iv f.c :=
  decodesExactly_of_checked _ hd fun f => (hl f).trans (by simp [and_assoc])

/-- `s` after an `ARUN` whose evaluation ended with this outcome and `d` draws taken. -/
def arunEnd (s : State) (d : Nat) : AgentOutcome → State
  | .ok y σ => { s with cell := σ, rsp := some (optionalResponse y), draw := d }
  | .fault => { faulted s .agentInput with draw := d }

theorem exec_arun_of_le {iv : BitVec 1} {a : BitVec 10} {s : State} (h : s.cfg.nagents ≤ a.toNat) :
    exec (.arun iv a) s = .next (faulted s .indexRange) := if_pos h

theorem exec_arun_of_ended {iv : BitVec 1} {a : BitVec 10} {s : State} {o : AgentOutcome} {d : Nat}
    (ha : a.toNat < s.cfg.nagents)
    (h : evalAgent s.cfg Config.parOrder a.toNat (agentInput s iv) (threadOf s) = ended o d) :
    exec (.arun iv a) s = .next (arunEnd s d o) := by
  rw [exec, execArun, if_neg ha.not_ge, h]
  cases o <;> rfl

theorem exec_arun_of_lt {iv : BitVec 1} {a : BitVec 10} {s : State} (hc : configOk s.cfg = true)
    (ha : a.toNat < s.cfg.nagents) :
    ∃ o d, Eval s.cfg a.toNat (agentInput s iv) s.cell o ∧ exec (.arun iv a) s = .next (arunEnd s d o) := by
  obtain ⟨o, d, ho, h⟩ := (entryRealized hc a.toNat ha (agentInput s iv) s.cell).ends Config.parOrder s.draw
  exact ⟨o, d, ho, exec_arun_of_ended ha h⟩

/-- A `CELL` primitive takes no draw. -/
theorem exec_arun_of_cell {iv : BitVec 1} {a : BitVec 10} {ci : Nat} {s : State} (hc : configOk s.cfg = true)
    (he : s.cfg.ag[a.toNat]? = some (.cell ci)) :
    exec (.arun iv a) s = .next (arunEnd s s.draw (cellOutcome s.cfg ci (agentInput s iv) s.cell)) :=
  exec_arun_of_ended (List.getElem?_eq_some_iff.1 he).1
    ((evalAgent_eq hc _ he _ _).trans (evalCell_eq_ended s.cfg ci _ s.cell s.draw))

theorem agentInput_one (s : State) : agentInput s 1 = some (storedOpa s) := rfl

end Sys2Proof.Machine

namespace Sys2Proof.Proofs

open Sys2Proof.Machine Sys2Proof.Safety

/-- Settles O50: the evaluation `ARUN` runs realises the relation, and its outcome fixes the state it leaves. -/
theorem arunResult : Obligations.ArunResult := by
  refine ⟨decodesExactly_formatG (by rintro ⟨⟩ rfl; rfl) (by simp [WellFormed]), fun iv a s hc =>
    ⟨exec_arun_of_le, fun ha => ?_⟩⟩
  obtain ⟨o, d, ho, h⟩ := exec_arun_of_lt (iv := iv) hc ha
  refine ⟨o, _, ho, h, ?_⟩
  cases o <;> rfl

/-- Settles O51: the result is forced by a list of draws, which some sequence gives from the counter on. -/
theorem everyAdmittedResultHasDraws : Obligations.EveryAdmittedResultHasDraws := by
  intro c e x σ r hc h d
  obtain ⟨l, hl⟩ := (entryRealized hc e (lt_nagents_of_eval h) x σ).forced r h
  obtain ⟨order, horder⟩ := exists_draws d l
  exact ⟨order, by rw [hl order d horder, outcomeOf_ended]⟩

/-- Settles O52: the outcome of the primitive fixes the state `ARUN` leaves, and takes no draw. -/
theorem arunOfCellAgent : Obligations.ArunOfCellAgent := by
  intro iv a ci s hc hs he
  have hci : ci < s.cfg.ncells := of_decide_eq_true (descOk_of_configOk hc he)
  refine ⟨fun h => ?_, fun hiv hv => ?_⟩
  · have hfault : cellOutcome s.cfg ci (agentInput s iv) s.cell = .fault := by
      obtain (rfl | hv) := h
      · rfl
      · by_cases hiv : iv = 1
        · rw [hiv, agentInput_one, cellOutcome_of_le hv]
        · rw [agentInput, if_neg hiv]
          rfl
    rw [exec_arun_of_cell hc he, hfault]
    rfl
  · refine ⟨_, _, rfl, exec_arun_of_cell hc he, ?_⟩
    rw [hiv, agentInput_one, cellOutcome_of_lt hv]
    exact ⟨rfl, hs.getElem?_writeCell hci _⟩

/-- Settles O53: only a `CELL` primitive faults or changes a cell. -/
theorem arunWithoutCells : Obligations.ArunWithoutCells := by
  intro iv a s hc ha hno
  obtain ⟨o, d, ho, h⟩ := exec_arun_of_lt (iv := iv) hc ha
  cases o with
  | fault => exact absurd ho (faultFree_of_not_reachesCell hc a.toNat ha hno _ _)
  | ok y σ =>
    cases (keepsUnreached_of_eval hc ho).eq hno
    exact ⟨_, y, h, rfl⟩

/-- Settles O54: the writes of an evaluation are to cells the entry reaches. -/
theorem agentChangesOnlyReachedCells : Obligations.AgentChangesOnlyReachedCells :=
  fun _ _ _ _ _ _ _ => keepsUnreached_of_evalAgent

/-- Settles O55: whatever the draws, the evaluation ends with an admitted result, and there is only one. -/
theorem disjointParOrderIsImmaterial : Obligations.DisjointParOrderIsImmaterial := by
  intro c o1 o2 e x σ d1 d2 hc hdisj
  by_cases he : e < c.nagents
  · have realized := entryRealized hc e he x σ
    obtain ⟨r1, n1, hr1, h1⟩ := realized.ends o1 d1
    obtain ⟨r2, n2, hr2, h2⟩ := realized.ends o2 d2
    rw [h1, h2, outcomeOf_ended, outcomeOf_ended, eval_unique hc hdisj hr1 hr2]
  · have hnone : c.ag[e]? = none := List.getElem?_eq_none (Nat.le_of_not_lt he)
    rw [evalAgent_none o1 hnone, evalAgent_none o2 hnone]

/-- Settles O56: each clause is the equation of the entry's descriptor; the stages of a `SHIFT` and the rounds of a
`FEEDBACK` regroup to the left. -/
theorem combinatorEquations : Obligations.CombinatorEquations := by
  intro c order e a b k p n ci ss x t hc
  have eq {d : AgentDesc} (he : c.ag[e]? = some d) := evalAgent_eq hc order he x t
  refine ⟨fun he => (eq he).trans ?_, eq, eq, eq, fun he => (eq he).trans ?_, eq, fun he => (eq he).trans ?_,
    fun he => (eq he).trans ?_, fun he hab => (eq he).trans ?_, fun he hba => (eq he).trans ?_⟩
  · cases x with
    | none => rfl
    | some v =>
      by_cases hv : v.toNat < c.nuf
      · exact (if_neg hv.not_ge).trans (if_pos hv).symm
      · exact (if_pos (Nat.le_of_not_lt hv)).trans (if_neg hv).symm
  · exact andThen_congr fun y u => by split <;> rfl
  · exact andThen_runStages _ ss _
  · exact andThen_iterateAgent _ n (.ok x t)
  · simp only [evalDesc, hab]
  · simp only [evalDesc, hba]

/-- Settles O57: `PIPE` sequences results, sequencing is associative with `ID`'s result as its identity, and a chain of
`PIPE` entries is its first agent followed by the stages. -/
theorem pipelineAlgebra : Obligations.PipelineAlgebra := by
  intro c a b d p q r s i l m h ss x σ o
  refine ⟨fun hp hq hr hs => ?_, fun hi hl => ?_, fun hi hm => ?_, fun hh hchain => ?_⟩
  · have nested : Eval c r = fun y τ => Then (Eval c b y τ) (Eval c d) := eval_eq hr
    simp only [eval_eq hq, eval_eq hs, Admitted, eval_eq hp, then_assoc, nested]
  · simp only [eval_eq hl, Admitted, eval_eq hi, ok_then]
  · have outputs : Eval c i = fun y τ => (· = .ok y τ) := eval_eq hi
    rw [eval_eq hm, Admitted, outputs, then_ok]
  · rw [eval_eq hh, Admitted, eval_of_isPipeChain ss hchain]

end Sys2Proof.Proofs
end

section
/-! PROOFS of the family 46_system.md: the results of `NOP`, `STAT` and `CFGRD` (R340 to R342), with the STATUS register
bit by bit (10_state.md R48). -/

namespace Sys2Proof.Machine

open Sys2Proof.Safety

theorem bitOf_eq_toNat (b : Bool) : bitOf b = b.toNat := by cases b <;> rfl

/-- R48: every bit of the STATUS register. -/
theorem getLsbD_statusWord (s : State) (j : Nat) :
    (statusWord s).getLsbD j = (decide (4 ≤ j ∧ j < 8) && s.cause.getLsbD (j - 4) || decide (j = 0) && s.flt) := by
  rw [statusWord, BitVec.getLsbD_ofNat, Nat.testBit_or, Nat.testBit_shiftLeft, bitOf_eq_toNat,
    Nat.testBit_bool_toNat, BitVec.testBit_toNat]
  by_cases hj : j < 8
  · simp [hj, hj.trans (by decide : 8 < 64)]
  · have hcause : s.cause.getLsbD (j - 4) = false := BitVec.getLsbD_of_ge _ _ (by omega)
    simp [hcause, show j ≠ 0 by omega]

/-- R342: the configuration registers as a list, in the order of their selectors. -/
theorem cfgValue_eq_getD (c : Config) {sel : Nat} (h : sel ≤ 8) : cfgValue c sel =
    [0x42464331, c.dataW, c.cellInit.length, c.clkInterval, c.srStages, c.rbCap, c.uf.length, c.ag.length,
      64].getD sel 0 := by
  interval_cases sel <;> rfl

theorem exec_nop (s : State) : exec .nop s = .next (answered s false 0) := rfl

theorem exec_stat (s : State) : exec .stat s = .next (answered s true (statusWord s)) :=
  congrArg Host.Outcome.next (respondWord_toNat s (statusWord s))

theorem exec_cfgrd {sel : BitVec 10} (s : State) (h : sel.toNat ≤ 8) :
    exec (.cfgrd sel) s = .next (answered s true (BitVec.ofNat 64 (cfgValue s.cfg sel.toNat))) :=
  congrArg Host.Outcome.next (limitChecked_of_wellFormed (i := .cfgrd sel) (decide_eq_true h))

end Sys2Proof.Machine

namespace Sys2Proof.Proofs

open Sys2Proof.Machine Sys2Proof.Safety

/-- Settles O58: the bits of the answer of `STAT` are those of the STATUS register, and the value of `CFGRD` is the
register its selector names. -/
theorem systemCommandsResult : Obligations.SystemCommandsResult := by
  refine ⟨decodesExactly_formatN (by rintro ⟨⟩ rfl; rfl) rfl, decodesExactly_formatN (by rintro ⟨⟩ rfl; rfl) rfl,
    decodesExactly_formatC (by rintro ⟨⟩ rfl; rfl) (by simp [WellFormed]), fun s =>
    ⟨exec_nop s, ⟨statusWord s, exec_stat s, ?_, fun j hj => ?_⟩, fun sel h => ?_⟩⟩
  · rw [getLsbD_statusWord]
    simp
  · simp [getLsbD_statusWord, hj.ne']
  · rw [exec_cfgrd s h, cfgValue_eq_getD s.cfg h]

end Sys2Proof.Proofs
end

section
/-! PROOFS of the families 60_exceptions.md and 70_reset_and_hazards.md: what a command answers (R360, R361, R366), the
fault record over a run (R362), idling (R380), reset (R400) and what it leaves to the variable-width commands (R405). -/

namespace Sys2Proof.Machine

open Sys2Proof.Safety

/-! ## What a command answers (60_exceptions.md R360, R361, R366) -/

theorem ok_mem_allowedStatus (i : Instr) : .ok ∈ allowedStatus i := by cases i <;> exact .head _

theorem isFault_eq_false_of_failure {c : Status} (hc : c = .lenMismatch ∨ c = .exceeds64Limit) : isFault c = false := by
  obtain rfl | rfl := hc <;> rfl

/-! ## The fault record (60_exceptions.md R362) -/

/-- `FLT` and `CAUSE`. -/
def faultRecord (s : State) : Bool × BitVec 4 := (s.flt, s.cause)

/-- The fault record after a response: a fault sets it, and keeps the cause of an earlier one. -/
def recordAfter (fr : Bool × BitVec 4) (r : Response) : Bool × BitVec 4 :=
  if isFault r.st then (true, causeAfter fr.1 fr.2 r.st) else fr

theorem recordAfter_of_isFault {r : Response} (h : isFault r.st = true) (fr : Bool × BitVec 4) :
    recordAfter fr r = (true, causeAfter fr.1 fr.2 r.st) := if_pos h

theorem recordAfter_of_not_isFault {r : Response} (h : isFault r.st = false) (fr : Bool × BitVec 4) :
    recordAfter fr r = fr := if_neg (Bool.eq_false_iff.1 h)

/-- Every command responds, and its response alone moves the fault record. -/
theorem exec_records {i : Instr} {s t : State} (h : exec i s = .next t) :
    ∃ r, t.rsp = some r ∧ faultRecord t = recordAfter (faultRecord s) r := by
  obtain ⟨c, d, hc, -, rfl⟩ | ⟨c, hc, -, rfl, -⟩ | ⟨r, hr⟩ := exec_shape h
  · exact ⟨_, rfl, (recordAfter_of_isFault (r := ⟨c, false, 0, false⟩) hc (faultRecord s)).symm⟩
  · exact ⟨_, rfl, (recordAfter_of_not_isFault (isFault_eq_false_of_failure hc) _).symm⟩
  · refine ⟨r, hr.rsp, ?_⟩
    rw [recordAfter_of_not_isFault (by rw [hr.st]; rfl), faultRecord, hr.flt, hr.cause]
    rfl

/-- So does every step that takes a command word, be it a command or not. -/
theorem step_command_records {s t : State} {w : CmdWord} {v : Word} {rest : List HostEvent}
    (hi : s.inputs = .command w v :: rest) (h : step s = .next t) :
    ∃ r, t.rsp = some r ∧ faultRecord t = recordAfter (faultRecord s) r := by
  rw [step_command (configOk_of_step_next h) hi] at h
  split at h
  · exact exec_records (s := accept s rest v) h
  · cases h
    exact ⟨_, rfl, rfl⟩

/-- A step other than a reset moves the fault record by the response it presents, if any. -/
theorem step_records {s t : State} (h : step s = .next t) (hrst : ∀ p rest, s.inputs ≠ .rst p :: rest) :
    faultRecord t = t.rsp.elim (faultRecord s) (recordAfter (faultRecord s)) := by
  match hi : s.inputs with
  | [] =>
    rw [step_idle (configOk_of_step_next h) hi] at h
    cases h
    rfl
  | .rst p :: rest => exact absurd hi (hrst p rest)
  | .command w v :: rest =>
    obtain ⟨r, hr, hrec⟩ := step_command_records hi h
    rw [hr]
    exact hrec

/-- One command of a run gives one response. -/
theorem issue_command {s : State} (hc : configOk s.cfg = true) (w : CmdWord) (v : Word) :
    ∃ r t, issue s (.command w v) = some ([r], t) ∧ configOk t.cfg = true ∧
      faultRecord t = recordAfter (faultRecord s) r := by
  obtain ⟨t, ht⟩ := step_next (s := { s with inputs := [.command w v] }) hc
  obtain ⟨r, hr, hrec⟩ := step_command_records rfl ht
  refine ⟨r, t, ?_, by rwa [step_cfg ht], hrec⟩
  rw [issue, ht]
  simp [hr]

/-- A run of commands gives one response for each, and these alone move the fault record. -/
theorem runEvents_program_records (cs : List (CmdWord × Word)) {s : State} (hc : configOk s.cfg = true) :
    ∃ rs t, runEvents (program cs) s = some (rs, t) ∧ rs.length = cs.length ∧
      faultRecord t = rs.foldl recordAfter (faultRecord s) := by
  induction cs generalizing s with
  | nil => exact ⟨[], s, rfl, rfl, rfl⟩
  | cons c cs ih =>
    obtain ⟨r, u, hu, hcu, hr⟩ := issue_command hc c.1 c.2
    obtain ⟨rs, t, ht, hlen, hrs⟩ := ih hcu
    refine ⟨r :: rs, t, runEvents_cons hu ht, congrArg Nat.succ hlen, ?_⟩
    rw [hrs, hr, List.foldl_cons]

/-- Once a fault is recorded the record stays. -/
theorem foldl_recordAfter_of_flt (rs : List Response) (c : BitVec 4) : rs.foldl recordAfter (true, c) = (true, c) := by
  induction rs with
  | nil => rfl
  | cons r rs ih =>
    have hr : recordAfter (true, c) r = (true, c) := ite_self _
    rw [List.foldl_cons, hr, ih]

/-- From an empty record, responses leave whether one of them is a fault, and the cause of the first. -/
theorem foldl_recordAfter (rs : List Response) : rs.foldl recordAfter (false, 0) =
    (rs.any fun r => isFault r.st, (rs.find? fun r => isFault r.st).elim 0 fun r => statusCode r.st) := by
  induction rs with
  | nil => rfl
  | cons r rs ih =>
    rw [List.foldl_cons, List.any_cons, List.find?_cons]
    cases hf : isFault r.st with
    | true =>
      rw [recordAfter_of_isFault hf, foldl_recordAfter_of_flt]
      rfl
    | false => rw [recordAfter_of_not_isFault hf, ih, Bool.false_or]

/-! ## The widths after reset (70_reset_and_hazards.md R405) -/

theorem fwAt_of_reset {s : State} (h : s.fw = State.reset.fw) : fwAt s = fun _ => 0 := by
  funext i
  have hreset : State.reset.fw = Vector.replicate 64 0 := rfl
  rw [fwAt, h, hreset, vector_getD_replicate, ite_self]
  rfl

end Sys2Proof.Machine

namespace Sys2Proof.Proofs

open Sys2Proof.Machine Sys2Proof.Safety

/-- Settles O15: a step moves the record by its response, and so a run by its responses, one after the other. -/
theorem runRecordsFirstFault : Obligations.RunRecordsFirstFault := by
  refine ⟨fun s t h hrst => ?_, fun cs s hc hflt hcause => ?_⟩
  · have hrec := step_records h hrst
    refine ⟨fun r hr hf => ?_, fun hno => ?_⟩
    · rw [hr, Option.elim_some, recordAfter_of_isFault hf] at hrec
      exact Prod.mk.inj hrec
    · have hsame : faultRecord t = faultRecord s := by
        rw [hrec]
        cases hr : t.rsp with
        | none => rfl
        | some r => exact recordAfter_of_not_isFault (hno r hr) _
      exact Prod.mk.inj hsame
  · obtain ⟨rs, t, hrun, hlen, hrec⟩ := runEvents_program_records cs hc
    have hstart : faultRecord s = (false, 0) := Prod.ext hflt hcause
    rw [hstart, foldl_recordAfter] at hrec
    obtain ⟨hany, hfirst⟩ := Prod.mk.inj hrec
    exact ⟨rs, t, hrun, hlen, by rw [hany, List.any_eq_true], hfirst⟩

/-- Settles O14: a command that faults or fails ends as `raiseFault` or `failWith` leaves it. -/
theorem failingCommandsChangeNothing : Obligations.FailingCommandsChangeNothing := by
  intro i s t r h hr
  obtain ⟨c, d, hc, -, rfl⟩ | ⟨c, hc, -, rfl, hi⟩ | ⟨q, hq⟩ := exec_shape h
  · cases hr
    exact ⟨fun _ => rfl, fun hfail => absurd (hc.symm.trans (isFault_eq_false_of_failure hfail)) Bool.noConfusion⟩
  · cases hr
    exact ⟨fun hf => absurd (hf.symm.trans (isFault_eq_false_of_failure hc)) Bool.noConfusion, fun _ => ⟨rfl, hi⟩⟩
  · obtain rfl : q = r := Option.some.inj (hq.rsp.symm.trans hr)
    rw [hq.st]
    exact ⟨nofun, nofun⟩

/-- Settles O16: a fault and a failure carry a listed status and `(0, 0)`, and every command may answer `OK`. -/
theorem onlyListedResponses : Obligations.OnlyListedResponses := by
  intro i s t h
  obtain ⟨c, d, -, hc, rfl⟩ | ⟨c, -, hc, rfl, -⟩ | ⟨r, hr⟩ := exec_shape h
  · exact ⟨_, rfl, hc, fun _ => rfl, fun _ => rfl⟩
  · exact ⟨_, rfl, hc, fun _ => rfl, fun _ => rfl⟩
  · exact ⟨r, hr.rsp, by rw [hr.st]; exact ok_mem_allowedStatus i, fun hne => absurd hr.st hne, hr.res⟩

/-- Settles O6: the case of `step` with nothing presented. -/
theorem idleHoldsState : Obligations.IdleHoldsState := fun _ => step_idle

/-- Settles O18: every command has a next state, and a command with a next state responds. -/
theorem everyCommandCompletes : Obligations.EveryCommandCompletes := by
  intro i s hc
  obtain ⟨t, ht⟩ := exec_next i hc
  obtain ⟨r, hr, -⟩ := exec_records ht
  exact ⟨t, r, ht, hr⟩

/-- Settles O60: field 0 has width 0, and widths that are all 0 never exceed a word. -/
theorem unloadedWidthsFault : Obligations.UnloadedWidthsFault := by
  intro n nw s hfw hpos hn hnw
  have hwidth : fwAt s = fun _ => 0 := fwAt_of_reset hfw
  have hzero : ∃ i, i < n.toNat ∧ fwAt s i = 0 := ⟨0, hpos, congrFun hwidth 0⟩
  have hsum : off (fwAt s) n.toNat ≤ 64 := by simp [hwidth]
  have hw : nw.toNat ≤ 64 := hnw.trans_le hn
  rw [exec_packf hn, exec_unpackf hn, exec_packi hw hnw.symm, exec_unpacki hw, hnw, fieldsChecked_of_zero hn hzero,
    fieldsChecked_of_zero hn hzero, resultChecked_of_zero hn hsum hzero, resultChecked_of_zero hn hsum hzero]
  exact ⟨rfl, rfl, rfl, rfl⟩

/-- Settles O1: `blockReset` field by field; a cleared file reads 0 and a cleared slot is absent. -/
theorem blockResetGivesResetValues : Obligations.BlockResetGivesResetValues := by
  intro s p rest hc hi
  refine ⟨_, step_rst hc hi, rfl, rfl, rfl, fun i _ => ⟨?_, ?_⟩, rfl, rfl, List.length_replicate,
    fun _ => List.eq_of_mem_replicate, List.length_replicate, fun _ => List.eq_of_mem_replicate,
    rfl, rfl, rfl, rfl, rfl⟩
  · simp [fvAt, vector_getD_replicate]
  · exact congrFun (fwAt_of_reset rfl) i

end Sys2Proof.Proofs
end
